-- ==== Sys2Proof/Word.lean ====
section
/-! DEFINITION. The word types of the 2-channel bit extractor (00_scope.md R8): a byte is 8 bits, a
register is 32 bits, and a stream of single bits is a sequence in the source's order (R9). -/

namespace Sys2Proof

/-- A byte: 8 bits (R8). -/
abbrev Byte := BitVec 8

/-- A register or a table word: 32 bits (R8). -/
abbrev Word := BitVec 32

/-- A bit sequence in stream order (R9): entry `i` is the `i`-th bit. -/
abbrev Bits := List Bool

end Sys2Proof
end

