-- ==== Sys2Proof/Config.lean ====
section
/-! DEFINITION. What an implementation fixes (00_scope.md R5) and the values the spec leaves free
(93_implementation_defined.md): the names of the host address spaces and registers, the parameters
`SYNC`, `N_MAX` and `BASE_*`, and the draws. A free value is an opaque constant, so no proof can rest
on what it is. -/

namespace Sys2Proof

/-- The seven host address spaces (20_memory.md R60). `inp` is the spec's `IN`. -/
inductive Space where
  | reg | inp | samp | dbits | ftab | pmtab | pout
deriving DecidableEq, Repr

/-- The registers of REG that have a name (10_state.md R24). -/
inductive RegName where
  | cmd | status | nLen | packStart | packLen
  | sampleCount | markerCount | bitCount
  | frameCount | frameMinLen | frameMaxLen
  | pmCount | packBytes | diagPrefixLen | diagHeadLen
  | syncPattern | capNmax
deriving DecidableEq, Repr

/-- Where the platform places each space on its bus: the parameters `BASE_REG` to `BASE_POUT`
(00_scope.md R5, 20_memory.md R76). -/
structure Bases where
  reg : Nat
  inp : Nat
  samp : Nat
  dbits : Nat
  ftab : Nat
  pmtab : Nat
  pout : Nat
deriving DecidableEq, Repr, Inhabited

/-- The build-time parameters of one block (00_scope.md R5).
`sync` is `SYNCW`, the sync pattern as a word with the first stream bit in bit 31 (10_state.md R37).
`nMaxPred` is `N_MAX - 1`: its 31 bits give exactly the range `1 <= N_MAX <= 2^31` (decision D5). -/
structure Params where
  sync : Word
  nMaxPred : BitVec 31
  bases : Bases
deriving DecidableEq, Repr, Inhabited

/-- OPEN parameter `SYNC` (R5, D3, I1). No source gives its value, so nothing here does. -/
opaque Config.sync : Word

/-- OPEN parameter `N_MAX`, less one (R5, D5, I2). -/
opaque Config.nMaxPred : BitVec 31

/-- OPEN parameters `BASE_*` (R5, D7, I3). -/
opaque Config.bases : Bases

/-- The parameters of the block whose reset state `State.reset` is. -/
def Config.params : Params :=
  { sync := Config.sync, nMaxPred := Config.nMaxPred, bases := Config.bases }

/-- FREE VALUE: the draw a host access returns where the spec says the read is a draw (I7, I8, I14).
The argument is the model's draw counter, so every access has a draw of its own. -/
opaque Config.draw : Nat → Word

/-- FREE VALUE: what a byte of a byte-organised space holds from reset until it is written
(I5, I7, I9, 10_state.md R40, R49). The arguments are the count of resets, the space and the offset: the
draw is fixed until the byte is written or the block is reset. -/
opaque Config.powerOnByte : Nat → Space → Nat → Byte

/-- FREE VALUE: the same for a word of the word-organised tables FTAB and PMTAB (R49, I7). -/
opaque Config.powerOnWord : Nat → Space → Nat → Word

end Sys2Proof
end

