-- ==== Sys2Proof/Syntax.lean ====
section
/-! DEFINITION. The command set, the "instruction set" of this hardware (00_scope.md R1,
30_encoding.md R91): one constructor per row of spec/opcode_table.json. No command carries an operand
(30_encoding.md R95): each reads the registers and buffers its rule names. -/

namespace Sys2Proof

/-- The nine commands of 30_encoding.md R91. -/
inductive Instr where
  /-- NOP, 44_control.md R175. -/
  | nop
  /-- EXTRACT, 40_extract.md R111. -/
  | extract
  /-- DEMOD, 41_demod.md R125. -/
  | demod
  /-- FSYNC, 42_fsync.md R142. -/
  | fsync
  /-- PCORR, 42_fsync.md R146. -/
  | pcorr
  /-- PACKF, 43_pack.md R163. -/
  | packf
  /-- PACKR, 43_pack.md R164. -/
  | packr
  /-- RUN, 44_control.md R176. -/
  | run
  /-- CLEAR, 44_control.md R177. -/
  | clear
deriving DecidableEq, Repr

end Sys2Proof
end

