-- ==== Sys2Proof/WellFormed.lean ====
section
/-! DEFINITION. Well-formedness. A command has no operand field (30_encoding.md R90, R95), so every term
of `Instr` is well formed, and the checks that can fail are those on the raw command word: its reserved
field (R90) and its opcode (R91, R93). -/

namespace Sys2Proof

/-- `RSV`, bits 31:4 of a command word, must be 0 (R90). -/
def rsvClear (w : Word) : Bool := decide (w.toNat < 16)

/-- `OP`, bits 3:0, must not be one of the reserved opcodes 0x9 to 0xF (R91, R93). -/
def opDefined (w : Word) : Bool := decide (w.toNat % 16 ≤ 8)

/-- A command word that stands for one of the nine commands (R90, R91). -/
def CmdWord.wellFormed (w : Word) : Bool := rsvClear w && opDefined w

/-- Every command is well formed: none has an operand (R95). -/
def Instr.wellFormed (i : Instr) : Bool :=
  match i with
  | .nop => true
  | .extract => true
  | .demod => true
  | .fsync => true
  | .pcorr => true
  | .packf => true
  | .packr => true
  | .run => true
  | .clear => true

end Sys2Proof
end

