-- ==== Sys2Proof/Decode.lean ====
section
/-! DEFINITION. The decoder of the latched command word (30_encoding.md R92), total on every 32-bit word
and rejecting by name, and after it the encoder, written from the opcode map (R91). -/

namespace Sys2Proof

/-- The opcode field `OP` of a command word, bits 3:0 (30_encoding.md R90). -/
def cmdOp (w : Word) : Nat := (w.extractLsb' 0 4).toNat

/-- The reserved field `RSV` of a command word, bits 31:4 (30_encoding.md R90). -/
def cmdRsv (w : Word) : Nat := (w.extractLsb' 4 28).toNat

/-- Why a word decodes to ILLEGAL (30_encoding.md R93). Both causes complete with the same code. -/
inductive DecodeError where
  /-- Bits 31:4 are not 0. -/
  | reservedBits
  /-- `OP` is one of 0x9 to 0xF. -/
  | reservedOpcode
deriving DecidableEq, Repr

/-- The opcode map of R91; the reserved opcodes have no command. -/
def opcodeMap (op : Nat) : Option Instr :=
  match op with
  | 0 => some .nop
  | 1 => some .extract
  | 2 => some .demod
  | 3 => some .fsync
  | 4 => some .pcorr
  | 5 => some .packf
  | 6 => some .packr
  | 7 => some .run
  | 8 => some .clear
  | _ => none

/-- R92: the total decoding function. The spec's ILLEGAL is the `error` side. -/
def decode (w : Word) : Except DecodeError Instr :=
  if cmdRsv w = 0 then
    match opcodeMap (cmdOp w) with
    | some i => .ok i
    | none => .error .reservedOpcode
  else .error .reservedBits

/-- The match column of R91: the whole command word of each command. -/
def encode (i : Instr) : Word :=
  match i with
  | .nop => 0x00000000#32
  | .extract => 0x00000001#32
  | .demod => 0x00000002#32
  | .fsync => 0x00000003#32
  | .pcorr => 0x00000004#32
  | .packf => 0x00000005#32
  | .packr => 0x00000006#32
  | .run => 0x00000007#32
  | .clear => 0x00000008#32

/-- The command word whose low `nbits` bits are those of `w`; every bit above them is 0. -/
def tableWord (nbits w : Nat) : Word := BitVec.ofNat 32 (w % 2 ^ nbits)

/-- The command the decoder reads from a row of spec/opcode_table.json. A command is one 32-bit word
(R90), so there is one word to lay out. -/
def decodeTableWord (nbits w : Nat) : Option Instr :=
  match decode (tableWord nbits w) with
  | .ok i => some i
  | .error _ => none

end Sys2Proof
end

