-- ==== Sys2Proof/Machine/Capacity.lean ====
section
/-! DEFINITION. The fixed constants (00_scope.md R6), the capacities derived from `N_MAX` (R7), the sizes
of the host address spaces (20_memory.md R60), the register offsets (10_state.md R24) and the platform's
address map (20_memory.md R76). -/

namespace Sys2Proof.Machine

/-- `SYNC_LEN` (R6): the sync pattern's length and the exact-match window, in bits. -/
abbrev syncLen : Nat := 32
/-- `CORR_LEN` (R6): the correlation window, the first 24 bits of `SYNC`. -/
abbrev corrLen : Nat := 24
/-- `CORR_THRESH` (R6): the least score of a partial match, inclusive. -/
abbrev corrThresh : Nat := 20
/-- `OBS_LEN` (R6): bits recorded from a partial match's position. -/
abbrev obsLen : Nat := 32
/-- `DIAG_PREFIX` (R6): decoded bits in the diagnostic prefix. -/
abbrev diagPrefix : Nat := 1000
/-- `DIAG_HEAD` (R6): decoded bits in the diagnostic head. -/
abbrev diagHead : Nat := 32

/-- `ceil(n / 8)`: the bytes that hold `n` bits (R8, 43_pack.md R162). -/
def bytesFor (n : Nat) : Nat := (n + 7) / 8

/-- `N_MAX`, between 1 and 2^31 (R5). -/
def nMax (p : Params) : Nat := p.nMaxPred.toNat + 1
/-- `DB_MAX = floor((N_MAX - 1) / 2)` (R7). -/
def dbMax (p : Params) : Nat := (nMax p - 1) / 2
/-- `FT_MAX = floor(DB_MAX / 32)` (R7). -/
def ftMax (p : Params) : Nat := dbMax p / 32
/-- `PM_MAX = max(0, DB_MAX - 23)` (R7); natural subtraction stops at 0. -/
def pmMax (p : Params) : Nat := dbMax p - 23
/-- `PO_MAX = ceil(DB_MAX / 8) + FT_MAX` (R7). -/
def poMax (p : Params) : Nat := bytesFor (dbMax p) + ftMax p

/-- `SYNC[j]`, the pattern's bit `j` in stream order: `SYNCW[31 - j] = SYNC[j]` (10_state.md R37). -/
def syncBit (sync : Word) (j : Nat) : Bool := sync.getMsbD j

/-- Bytes of one FTAB or PMTAB entry (10_state.md R43, R44). -/
abbrev entryBytes : Nat := 16

/-- The size in bytes of each host address space (20_memory.md R60). -/
def spaceSize (p : Params) (sp : Space) : Nat :=
  match sp with
  | .reg => 256
  | .inp => nMax p
  | .samp => nMax p
  | .dbits => dbMax p
  | .ftab => entryBytes * ftMax p
  | .pmtab => entryBytes * pmMax p
  | .pout => poMax p

/-- The offset of each register in REG (10_state.md R24). -/
def regOffset (r : RegName) : Nat :=
  match r with
  | .cmd => 0x00
  | .status => 0x04
  | .nLen => 0x08
  | .packStart => 0x0C
  | .packLen => 0x10
  | .sampleCount => 0x14
  | .markerCount => 0x18
  | .bitCount => 0x1C
  | .frameCount => 0x20
  | .frameMinLen => 0x24
  | .frameMaxLen => 0x28
  | .pmCount => 0x2C
  | .packBytes => 0x30
  | .diagPrefixLen => 0x34
  | .diagHeadLen => 0x38
  | .syncPattern => 0x3C
  | .capNmax => 0x40

/-- The named registers in the order of R24. -/
def regNames : List RegName :=
  [.cmd, .status, .nLen, .packStart, .packLen, .sampleCount, .markerCount, .bitCount, .frameCount,
   .frameMinLen, .frameMaxLen, .pmCount, .packBytes, .diagPrefixLen, .diagHeadLen, .syncPattern, .capNmax]

/-- The register at an offset of REG; none at the reserved offsets (R24, R39). -/
def regAt (off : Nat) : Option RegName := regNames.find? fun r => regOffset r == off

/-- Where the platform places a space (R76). -/
def spaceBase (p : Params) (sp : Space) : Nat :=
  match sp with
  | .reg => p.bases.reg
  | .inp => p.bases.inp
  | .samp => p.bases.samp
  | .dbits => p.bases.dbits
  | .ftab => p.bases.ftab
  | .pmtab => p.bases.pmtab
  | .pout => p.bases.pout

/-- The seven spaces in the order of R60. -/
def spaces : List Space := [.reg, .inp, .samp, .dbits, .ftab, .pmtab, .pout]

/-- Whether bus address `addr` lies in space `sp` (R76). -/
def inSpace (p : Params) (addr : Nat) (sp : Space) : Bool :=
  decide (spaceBase p sp ≤ addr ∧ addr < spaceBase p sp + spaceSize p sp)

/-- R76: bus address `BASE_X + off` is offset `off` of space X; an address in no space is not this
block's. -/
def busDecode (p : Params) (addr : Nat) : Option (Space × Nat) :=
  (spaces.find? (inSpace p addr)).map fun sp => (sp, addr - spaceBase p sp)

/-- Two spaces share no bus address. DESIGN CHOICE (log entry 9): R76 does not say whether a space of
size 0 (R60) whose base lies inside another space overlaps it; it holds no address, so here it does not. -/
def apart (p : Params) (a b : Space) : Bool :=
  decide (spaceSize p a = 0 ∨ spaceSize p b = 0 ∨
    spaceBase p a + spaceSize p a ≤ spaceBase p b ∨ spaceBase p b + spaceSize p b ≤ spaceBase p a)

/-- R76: the platform's placement is legal when no two spaces overlap (`apart`, log entry 9). -/
def placementOk (p : Params) : Bool :=
  spaces.all fun a => spaces.all fun b => decide (a = b) || apart p a b

end Sys2Proof.Machine
end

