-- ==== Sys2Proof/Machine/State.lean ====
section
/-! DEFINITION. The machine's state (10_state.md), as plain data: the registers and STATUS fields of R24
and R26, the hidden CMDQ (R47), the six buffers (R40 to R45), the build-time constants that SYNC_PATTERN
and CAP_NMAX read (R37, R38), the reset pin (R210), and four fields of the model's own (the environment's
next events, the last bus answer, and the counters that number the draws). -/

namespace Sys2Proof.Machine

/-- Byte memory of one address space: (offset, byte) pairs, offsets strictly rising (`Memory.wf`). An
offset that is not listed has not been written since reset. -/
abbrev Memory := List Host.Cell

/-- The result codes a command can leave in `STATUS.ERR` (60_exceptions.md R192). The reserved codes 5
to 15 are never produced (I12), so they have no constructor. -/
inductive ErrCode where
  | ok | illegal | seq | lenRange | packRange
deriving DecidableEq, Repr

/-- The fields of STATUS (10_state.md R26). Reserved bits read 0 and are no state. -/
structure Status where
  busy : Bool
  done : Bool
  err : ErrCode
  bwerr : Bool
  diag : Bool
  vSamp : Bool
  vDbits : Bool
  vFrames : Bool
  vPm : Bool
  vPack : Bool
  pkr : Bool
deriving DecidableEq, Repr

/-- One FTAB entry: the four words of 10_state.md R43. `stop` is the spec's END. -/
structure FrameEntry where
  start : Word
  stop : Word
  poff : Word
  pbytes : Word
deriving DecidableEq, Repr

/-- One PMTAB entry: the four words of 10_state.md R44. -/
structure PmEntry where
  pos : Word
  obs : Word
  obsn : Word
  score : Word
deriving DecidableEq, Repr

/-- One single-beat host transaction `(space, off, n)` (20_memory.md R61), as MemRead and MemWrite of
00_scope.md R10. -/
inductive Access where
  | read (sp : Space) (off n : Nat)
  | write (sp : Space) (off n : Nat) (data : Word)
deriving DecidableEq, Repr

/-- The same transaction at a bus address, before the platform's address map (20_memory.md R76). -/
inductive BusAccess where
  | read (addr n : Nat)
  | write (addr n : Nat) (data : Word)
deriving DecidableEq, Repr

/-- What the environment does next: the schedule of host accesses, turns of the sequencer and levels of
the reset pin is an input of the machine (10_state.md R20, R21; 20_memory.md R70; R210). -/
inductive Event where
  /-- The host makes one access. -/
  | host (a : Access)
  /-- The host makes one access at a bus address. -/
  | bus (a : BusAccess)
  /-- The sequencer gets the turn: it takes its Complete step if BUSY = 1 (R21). -/
  | sequencer
  /-- The reset input `rst_n` takes a level (R210, R211). -/
  | rst (high : Bool)
deriving DecidableEq, Repr

/-- The block's answer to the last host access. -/
inductive BusResp where
  /-- No access since reset. -/
  | idle
  /-- A 1-byte read's data. -/
  | byte (b : Byte)
  /-- A 4-byte read's data. -/
  | word (w : Word)
  /-- A write that is not a bus error. -/
  | written
  /-- A read answered with a bus error; the data is a draw (60_exceptions.md R196, I14). -/
  | readError (d : Word)
  /-- A write answered with a bus error (R196). -/
  | writeError
  /-- The block answers nothing: `rst_n` is 0 (R211), or the bus address is in none of its spaces (R76). -/
  | noAnswer
deriving DecidableEq, Repr

/-- Everything the spec gives the machine, and the model's own fields (the first four). -/
structure State where
  /-- Model's own: what the environment does next, in order. -/
  env : List Event
  /-- Model's own: the answer to the last host access. -/
  resp : BusResp
  /-- Model's own: the number of host accesses so far, which numbers the draws. -/
  draws : Nat
  /-- Model's own: the number of reset edges so far, which numbers the power-on contents. -/
  epoch : Nat
  /-- The level of the reset input `rst_n` (R210). -/
  rstN : Bool
  /-- The build-time parameters; SYNC_PATTERN and CAP_NMAX read two of them (R37, R38). -/
  params : Params
  /-- CMDQ, hidden: the latched command word (R47). -/
  cmdq : Word
  /-- STATUS (R26). -/
  status : Status
  /-- N_LEN (R28). -/
  nLen : Word
  /-- PACK_START (R29). -/
  packStart : Word
  /-- PACK_LEN (R29). -/
  packLen : Word
  /-- SAMPLE_COUNT (R30). -/
  sampleCount : Word
  /-- MARKER_COUNT (R31). -/
  markerCount : Word
  /-- BIT_COUNT (R32). -/
  bitCount : Word
  /-- FRAME_COUNT (R33). -/
  frameCount : Word
  /-- FRAME_MIN_LEN (R33). -/
  frameMinLen : Word
  /-- FRAME_MAX_LEN (R33). -/
  frameMaxLen : Word
  /-- PM_COUNT (R34). -/
  pmCount : Word
  /-- PACK_BYTES (R35). -/
  packBytes : Word
  /-- DIAG_PREFIX_LEN (R36). -/
  diagPrefixLen : Word
  /-- DIAG_HEAD_LEN (R36). -/
  diagHeadLen : Word
  /-- IN (R40). -/
  inp : Memory
  /-- SAMP (R41). -/
  samp : Memory
  /-- DBITS (R42). -/
  dbits : Memory
  /-- FTAB (R43): the entries written so far, entry 0 first. -/
  ftab : List FrameEntry
  /-- PMTAB (R44): the entries written so far, entry 0 first. -/
  pmtab : List PmEntry
  /-- POUT (R45). -/
  pout : Memory
deriving DecidableEq, Repr

/-- The ways a step can stop with a fault: none. A bad command completes with a code in `STATUS.ERR` and
the block goes on (60_exceptions.md R190), and a bad host access is answered with a bus error and changes
nothing (R196). -/
inductive Fault where
deriving DecidableEq, Repr

/-- Why a command has no meaning. -/
inductive Refusal where
  /-- Raised by `exec` for a command the model gives no meaning; no arm raises it, since all nine commands
  are modelled. Safe: a refusal proves nothing of the hardware. -/
  | notModelled (mnemonic : String)
deriving DecidableEq, Repr

/-- STATUS after reset: 0x00000000 (R49). -/
def Status.reset : Status :=
  { busy := false, done := false, err := .ok, bwerr := false, diag := false, vSamp := false,
    vDbits := false, vFrames := false, vPm := false, vPack := false, pkr := false }

/-- The machine right after reset (10_state.md R49, 70_reset_and_hazards.md R211): STATUS and every
configuration and count register 0, no buffer entry written (so each holds its power-on draw), `rst_n`
back at 1. CMDQ, which the spec leaves unspecified and unobservable, is 0 (DESIGN CHOICE, log entry 1).
The environment has nothing to do (log entry 2). -/
def State.reset : State :=
  { env := [], resp := .idle, draws := 0, epoch := 0, rstN := true, params := Config.params,
    cmdq := 0, status := Status.reset, nLen := 0, packStart := 0, packLen := 0,
    sampleCount := 0, markerCount := 0, bitCount := 0, frameCount := 0, frameMinLen := 0,
    frameMaxLen := 0, pmCount := 0, packBytes := 0, diagPrefixLen := 0, diagHeadLen := 0,
    inp := [], samp := [], dbits := [], ftab := [], pmtab := [], pout := [] }

end Sys2Proof.Machine
end

