-- ==== Sys2Proof/Machine/Ops.lean ====
section
/-! DEFINITION. The named operations over memory, tables and registers; completing a command, with or
without an error code (10_state.md R21, 60_exceptions.md R191), which is what this hardware has in place
of taking an exception (R190, R198: there is no trap entry and no return); accepting a command (R21); and
entering reset (R211). -/

namespace Sys2Proof.Machine

/-! ## Byte memory -/

/-- The byte written at offset `x`, if one has been since reset. This is the one definition of what an
unlisted offset holds: no written byte (log entry 4). -/
def Memory.read (m : Memory) (x : Nat) : Option Byte :=
  match m with
  | [] => none
  | (a, b) :: rest => if a = x then some b else Memory.read rest x

/-- Write one byte, keeping the offsets strictly rising. -/
def Memory.write (m : Memory) (x : Nat) (v : Byte) : Memory :=
  match m with
  | [] => [(x, v)]
  | (a, b) :: rest =>
    if x < a then (x, v) :: (a, b) :: rest
    else if x = a then (x, v) :: rest
    else (a, b) :: Memory.write rest x v

/-- Write `bs` at offsets `k`, `k + 1`, and so on, as cells. -/
def Memory.cells (k : Nat) (bs : List Byte) : Memory :=
  match bs with
  | [] => []
  | b :: rest => (k, b) :: Memory.cells (k + 1) rest

/-- Write `bs` at offsets `0 .. bs.length - 1`, leaving every later offset as it was (20_memory.md R74:
a command writes only its output entries below the new count). -/
def Memory.overlay (bs : List Byte) (m : Memory) : Memory :=
  Memory.cells 0 bs ++ m.filter fun c => decide (bs.length ≤ c.1)

/-- The canonical form: offsets strictly rising. Every listed offset has been written, and an unlisted one
has not, so no entry equals what an unlisted offset reads as. -/
abbrev Memory.wf (m : Memory) : Prop := List.Pairwise (fun a b : Host.Cell => a.1 < b.1) m

/-- Write table entries `0 .. es.length - 1`, leaving every later entry as it was (R74). -/
def tableOverlay {α : Type} (es old : List α) : List α := es ++ old.drop es.length

/-- A count as a 32-bit register value (10_state.md R24). -/
def toWord (n : Nat) : Word := BitVec.ofNat 32 n

/-! ## The environment and the bus answer -/

/-- Take the next event off the schedule. -/
def State.setEnv (s : State) (rest : List Event) : State := { s with env := rest }

/-- Answer a host access: the answer is held, and the next access has a draw of its own. -/
def State.answer (s : State) (r : BusResp) : State := { s with resp := r, draws := s.draws + 1 }

/-! ## Commands -/

/-- Accept (R21): latch the command word, `BUSY <- 1`, `DONE <- 0`; nothing else changes. -/
def State.accept (s : State) (w : Word) : State :=
  { s with cmdq := w, status := { s.status with busy := true, done := false } }

/-- The end of every Complete step (R21): `ERR <- code`, `BUSY <- 0`, `DONE <- 1`. -/
def State.complete (s : State) (code : ErrCode) : State :=
  { s with status := { s.status with err := code, busy := false, done := true } }

/-- `raise CmdError(code)` (00_scope.md R10, 60_exceptions.md R191): the command ends with its code and
nothing else changes. There is no saved state, no vector and no return (R198). -/
def raiseCmdError (code : ErrCode) (s : State) : Host.Outcome State Fault Refusal :=
  .next (s.complete code)

/-- How a command's body ends the Complete step begun in state `s`: with its error and `s` otherwise
unchanged (R191), or with its effect and code 0 (R190). -/
def finish (s : State) (r : Except ErrCode State) : Host.Outcome State Fault Refusal :=
  match r with
  | .ok t => .next (t.complete .ok)
  | .error code => raiseCmdError code s

/-! ## Host-written registers -/

/-- Set or clear the sticky busy-write error bit (R26, R194). -/
def State.setBwerr (s : State) (b : Bool) : State := { s with status := { s.status with bwerr := b } }

/-- N_LEN <- w (R28). -/
def State.setNLen (s : State) (w : Word) : State := { s with nLen := w }

/-- PACK_START <- w (R29). -/
def State.setPackStart (s : State) (w : Word) : State := { s with packStart := w }

/-- PACK_LEN <- w (R29). -/
def State.setPackLen (s : State) (w : Word) : State := { s with packLen := w }

/-- IN[off] <- b (R40). -/
def State.putIn (s : State) (off : Nat) (b : Byte) : State := { s with inp := s.inp.write off b }

/-! ## Reset -/

/-- A reset edge (R211, R212): every piece of the block's state takes its reset value, whatever ran
before; the power-on contents are drawn anew (R49). The build-time parameters are constants, and the
environment goes on with what it does next. -/
def State.enterReset (s : State) (high : Bool) : State :=
  { State.reset with
    env := s.env, draws := s.draws, epoch := s.epoch + 1, rstN := high, params := s.params }

/-- The reset input takes a level. Going to 0 abandons a running command and resets (R211, R212); while it
is 0, and when it returns to 1, every piece of state holds its reset value. A 1 on a pin that is 1 is no
edge. -/
def setRst (s : State) (high : Bool) : State :=
  if high && s.rstN then s else s.enterReset high

end Sys2Proof.Machine
end

