-- ==== Sys2Proof/Machine/Flags.lean ====
section
/-! DEFINITION. STATUS as the host reads it (10_state.md R26, R50), the result codes' numbers
(60_exceptions.md R192), and the invalidation of later stages (10_state.md R48). -/

namespace Sys2Proof.Machine

/-- The number of each result code in `STATUS.ERR`, bits 7:4 (R192). -/
def errNumber (e : ErrCode) : Nat :=
  match e with
  | .ok => 0
  | .illegal => 1
  | .seq => 2
  | .lenRange => 3
  | .packRange => 4

/-- A one-bit field at bit `k` of a word. -/
def bitAt (k : Nat) (b : Bool) : Word := BitVec.ofNat 32 (b.toNat <<< k)

/-- STATUS as one word, its fields at the bits of R26 and every reserved bit 0. -/
def Status.toWord (f : Status) : Word :=
  bitAt 0 f.busy ||| bitAt 1 f.done ||| BitVec.ofNat 32 (errNumber f.err <<< 4) ||| bitAt 8 f.bwerr |||
  bitAt 9 f.diag ||| bitAt 16 f.vSamp ||| bitAt 17 f.vDbits ||| bitAt 18 f.vFrames ||| bitAt 19 f.vPm |||
  bitAt 20 f.vPack ||| bitAt 21 f.pkr

/-- The STATUS bits a read draws while BUSY = 1: ERR, DIAG, V_SAMP, V_DBITS, V_FRAMES, V_PM, V_PACK and
PKR (R50). -/
def statusDrawMask : Word := 0x003F02F0#32

/-- What a read of STATUS returns (R26, R50), with `d` the access's draw. While BUSY = 1 it has BUSY = 1,
DONE = 0, the true BWERR and a draw in each other field. -/
def readStatus (f : Status) (d : Word) : Word :=
  if f.busy then bitAt 0 true ||| bitAt 8 f.bwerr ||| (d &&& statusDrawMask) else f.toWord

/-- The W1C write of STATUS (R26): bit 8 of the data clears BWERR; nothing else changes. -/
def writeStatus (s : State) (w : Word) : State := if w.getLsbD 8 then s.setBwerr false else s

/-- `invalidate_after_dbits` (R48). -/
def State.invalidateAfterDbits (s : State) : State :=
  { s with
    status := { s.status with
      vFrames := false, vPm := false, vPack := false, pkr := false, diag := false }
    frameCount := 0, frameMinLen := 0, frameMaxLen := 0
    pmCount := 0, packBytes := 0, diagPrefixLen := 0, diagHeadLen := 0 }

/-- `invalidate_after_samp` (R48). -/
def State.invalidateAfterSamp (s : State) : State :=
  { s with status := { s.status with vDbits := false }, markerCount := 0, bitCount := 0 }.invalidateAfterDbits

/-- `invalidate_all` (R48), used by CLEAR. -/
def State.invalidateAll (s : State) : State :=
  { s with status := { s.status with vSamp := false }, sampleCount := 0 }.invalidateAfterSamp

end Sys2Proof.Machine
end

