-- ==== Sys2Proof/Machine/Operands.lean ====
section
/-! DEFINITION. What a command reads: the operand registers as exact unsigned numbers (30_encoding.md
R95), and its input stage's buffer below its valid count (20_memory.md R74). An entry that nothing has
written since reset holds its power-on draw (10_state.md R40, R49). -/

namespace Sys2Proof.Machine

/-- Bit 0 of a byte: `ch0` of a sample (R41), or the decoded bit of a DBITS entry (R42). -/
def bit0 (b : Byte) : Bool := b.getLsbD 0

/-- Bit 1 of a byte: `ch1` of a sample (R41). -/
def bit1 (b : Byte) : Bool := b.getLsbD 1

/-- `zext_8` of one bit: a DBITS entry (R42). -/
def bitByte (b : Bool) : Byte := BitVec.ofNat 8 b.toNat

/-- A byte of a buffer: what was written there since reset, else its power-on draw. -/
def bufByte (epoch : Nat) (sp : Space) (m : Memory) (off : Nat) : Byte :=
  (m.read off).getD (Config.powerOnByte epoch sp off)

/-- IN[i] (R40). -/
def State.inAt (s : State) (i : Nat) : Byte := bufByte s.epoch .inp s.inp i
/-- SAMP[i] (R41). -/
def State.sampAt (s : State) (i : Nat) : Byte := bufByte s.epoch .samp s.samp i
/-- DBITS[k] (R42). -/
def State.dbitAt (s : State) (k : Nat) : Byte := bufByte s.epoch .dbits s.dbits k
/-- POUT[q] (R45). -/
def State.poutAt (s : State) (q : Nat) : Byte := bufByte s.epoch .pout s.pout q

/-- FTAB[k] (R43). -/
def State.frameAt (s : State) (k : Nat) : FrameEntry :=
  (s.ftab[k]?).getD
    { start := Config.powerOnWord s.epoch .ftab (entryBytes * k)
      stop := Config.powerOnWord s.epoch .ftab (entryBytes * k + 4)
      poff := Config.powerOnWord s.epoch .ftab (entryBytes * k + 8)
      pbytes := Config.powerOnWord s.epoch .ftab (entryBytes * k + 12) }

/-- PMTAB[k] (R44). -/
def State.pmAt (s : State) (k : Nat) : PmEntry :=
  (s.pmtab[k]?).getD
    { pos := Config.powerOnWord s.epoch .pmtab (entryBytes * k)
      obs := Config.powerOnWord s.epoch .pmtab (entryBytes * k + 4)
      obsn := Config.powerOnWord s.epoch .pmtab (entryBytes * k + 8)
      score := Config.powerOnWord s.epoch .pmtab (entryBytes * k + 12) }

/-- IN[0..n) (R111). -/
def State.inBytes (s : State) (n : Nat) : List Byte := (List.range n).map s.inAt

/-- SAMP[0..SAMPLE_COUNT) (R125). -/
def State.samples (s : State) : List Byte := (List.range s.sampleCount.toNat).map s.sampAt

/-- DBITS[0..BIT_COUNT), whole entries (R42). -/
def State.dbitBytes (s : State) : List Byte := (List.range s.bitCount.toNat).map s.dbitAt

/-- The decoded-bit sequence `B`: bit 0 of each entry of DBITS[0..BIT_COUNT) (42_fsync.md). -/
def State.decodedBits (s : State) : Bits := s.dbitBytes.map bit0

/-- FTAB[0..FRAME_COUNT) (R163). -/
def State.frames (s : State) : List FrameEntry := (List.range s.frameCount.toNat).map s.frameAt

/-- PMTAB[0..PM_COUNT). -/
def State.partials (s : State) : List PmEntry := (List.range s.pmCount.toNat).map s.pmAt

/-- POUT[0..PACK_BYTES). -/
def State.packed (s : State) : List Byte := (List.range s.packBytes.toNat).map s.poutAt

end Sys2Proof.Machine
end

