-- ==== Sys2Proof/Machine/Bus.lean ====
section
/-! DEFINITION. Host accesses (20_memory.md): which accesses are bus errors (R61, R64 to R66, R196), what
a read returns, with a draw wherever the spec says the value is one (10_state.md R46, R50), and what a
write does, idle and while a command runs (R67, R68). -/

namespace Sys2Proof.Machine

/-! ## Bus errors -/

/-- R61: the widths each space allows, by direction. -/
def widthOk (sp : Space) (isWrite : Bool) (n : Nat) : Bool :=
  match sp with
  | .reg => n == 4
  | .inp => n == 1 || n == 4
  | .samp => !isWrite && (n == 1 || n == 4)
  | .dbits => !isWrite && (n == 1 || n == 4)
  | .ftab => !isWrite && n == 4
  | .pmtab => !isWrite && n == 4
  | .pout => !isWrite && (n == 1 || n == 4)

/-- An access that is not a bus error (R196): an allowed width and direction (R61, R66), a 4-byte access
aligned (R64), and all of it inside the space (R65). -/
def accessOk (p : Params) (sp : Space) (isWrite : Bool) (off n : Nat) : Bool :=
  widthOk sp isWrite n && (n != 4 || off % 4 == 0) && decide (off + n ≤ spaceSize p sp)

/-! ## Reads -/

/-- Byte lane `k` of a draw. -/
def lane (d : Word) (k : Nat) : Byte := d.extractLsb' (8 * k) 8

/-- Whether a stage's results are readable: no command is running (R50) and the stage's valid bit is 1
(R46). -/
def State.readable (s : State) (valid : Bool) : Bool := !s.status.busy && valid

/-- The byte a host read of a byte-organised space returns at one offset, or the draw `d`: IN always reads
true (R50); a result buffer reads true below its valid count when readable (R46, R71), and a draw
elsewhere. REG and the tables are read by words. -/
def State.hostByte (s : State) (sp : Space) (off : Nat) (d : Byte) : Byte :=
  match sp with
  | .inp => s.inAt off
  | .samp => if s.readable s.status.vSamp && decide (off < s.sampleCount.toNat) then s.sampAt off else d
  | .dbits => if s.readable s.status.vDbits && decide (off < s.bitCount.toNat) then s.dbitAt off else d
  | .pout => if s.readable s.status.vPack && decide (off < s.packBytes.toNat) then s.poutAt off else d
  | .reg => d
  | .ftab => d
  | .pmtab => d

/-- R62: the little-endian word of the four bytes from `off`, each with its own lane of the draw. -/
def State.hostBytes4 (s : State) (sp : Space) (off : Nat) (d : Word) : Word :=
  s.hostByte sp (off + 3) (lane d 3) ++ s.hostByte sp (off + 2) (lane d 2) ++
    s.hostByte sp (off + 1) (lane d 1) ++ s.hostByte sp off (lane d 0)

/-- Word `k` of an FTAB entry: START, END, POFF, PBYTES (R43). -/
def FrameEntry.wordAt (e : FrameEntry) (k : Nat) : Word :=
  match k with
  | 0 => e.start
  | 1 => e.stop
  | 2 => e.poff
  | _ => e.pbytes

/-- Word `k` of a PMTAB entry: POS, OBS, OBSN, SCORE (R44). -/
def PmEntry.wordAt (e : PmEntry) (k : Nat) : Word :=
  match k with
  | 0 => e.pos
  | 1 => e.obs
  | 2 => e.obsn
  | _ => e.score

/-- A word of FTAB as the host reads it (R43, R46, R50). -/
def State.hostFrameWord (s : State) (off : Nat) (d : Word) : Word :=
  if s.readable s.status.vFrames && decide (off / entryBytes < s.frameCount.toNat) then
    (s.frameAt (off / entryBytes)).wordAt (off % entryBytes / 4)
  else d

/-- A word of PMTAB as the host reads it (R44, R46, R50). -/
def State.hostPmWord (s : State) (off : Nat) (d : Word) : Word :=
  if s.readable s.status.vPm && decide (off / entryBytes < s.pmCount.toNat) then
    (s.pmAt (off / entryBytes)).wordAt (off % entryBytes / 4)
  else d

/-- A result register: its value when idle, a draw while a command runs (R50). -/
def State.countReg (s : State) (w d : Word) : Word := if s.status.busy then d else w

/-- What a read of a named register returns (R24, R25, R37, R38, R50). -/
def State.readReg (s : State) (r : RegName) (d : Word) : Word :=
  match r with
  | .cmd => 0
  | .status => readStatus s.status d
  | .nLen => s.nLen
  | .packStart => s.packStart
  | .packLen => s.packLen
  | .sampleCount => s.countReg s.sampleCount d
  | .markerCount => s.countReg s.markerCount d
  | .bitCount => s.countReg s.bitCount d
  | .frameCount => s.countReg s.frameCount d
  | .frameMinLen => s.countReg s.frameMinLen d
  | .frameMaxLen => s.countReg s.frameMaxLen d
  | .pmCount => s.countReg s.pmCount d
  | .packBytes => s.countReg s.packBytes d
  | .diagPrefixLen => s.countReg s.diagPrefixLen d
  | .diagHeadLen => s.countReg s.diagHeadLen d
  | .syncPattern => s.params.sync
  | .capNmax => toWord (nMax s.params)

/-- A word of REG; the reserved offsets read 0 (R39). -/
def State.hostRegWord (s : State) (off : Nat) (d : Word) : Word :=
  match regAt off with
  | some r => s.readReg r d
  | none => 0

/-- The word a 4-byte host read returns. -/
def State.hostWord (s : State) (sp : Space) (off : Nat) (d : Word) : Word :=
  match sp with
  | .reg => s.hostRegWord off d
  | .ftab => s.hostFrameWord off d
  | .pmtab => s.hostPmWord off d
  | .inp => s.hostBytes4 .inp off d
  | .samp => s.hostBytes4 .samp off d
  | .dbits => s.hostBytes4 .dbits off d
  | .pout => s.hostBytes4 .pout off d

/-- `MemRead(sp, off, n)` (00_scope.md R10) with the access's draw: a bus error's data is a draw (I14). -/
def State.hostRead (s : State) (sp : Space) (off n : Nat) (d : Word) : BusResp :=
  if accessOk s.params sp false off n then
    if n = 1 then .byte (s.hostByte sp off (lane d 0)) else .word (s.hostWord sp off d)
  else .readError d

/-! ## Writes -/

/-- A write of a named register while no command runs: CMD issues a command (R25), N_LEN, PACK_START and
PACK_LEN are stored (R28, R29), and read-only registers ignore it (R24). A STATUS write is `writeStatus`. -/
def State.writeReg (s : State) (r : RegName) (w : Word) : State :=
  match r with
  | .cmd => s.accept w
  | .status => writeStatus s w
  | .nLen => s.setNLen w
  | .packStart => s.setPackStart w
  | .packLen => s.setPackLen w
  | .sampleCount => s
  | .markerCount => s
  | .bitCount => s
  | .frameCount => s
  | .frameMinLen => s
  | .frameMaxLen => s
  | .pmCount => s
  | .packBytes => s
  | .diagPrefixLen => s
  | .diagHeadLen => s
  | .syncPattern => s
  | .capNmax => s

/-- A write of IN: one byte, or four in little-endian order (R61, R62). -/
def State.writeIn (s : State) (off n : Nat) (w : Word) : State :=
  if n = 1 then s.putIn off (lane w 0)
  else (((s.putIn off (lane w 0)).putIn (off + 1) (lane w 1)).putIn (off + 2) (lane w 2)).putIn (off + 3) (lane w 3)

/-- Whether a write goes to STATUS, the one location a write reaches while a command runs (R68). -/
def isStatusWrite (sp : Space) (off : Nat) : Bool := decide (sp = .reg) && (regAt off == some .status)

/-- The effect of a write that is no bus error and finds BUSY = 0. -/
def State.idleWrite (s : State) (sp : Space) (off n : Nat) (w : Word) : State :=
  match sp with
  | .reg =>
    match regAt off with
    | some r => s.writeReg r w
    | none => s
  | .inp => s.writeIn off n w
  | .samp => s
  | .dbits => s
  | .ftab => s
  | .pmtab => s
  | .pout => s

/-- The effect of a write that is no bus error (R67, R68): while BUSY = 1, a write to anything but STATUS
is ignored and sets BWERR. -/
def State.hostStore (s : State) (sp : Space) (off n : Nat) (w : Word) : State :=
  if isStatusWrite sp off then writeStatus s w
  else if s.status.busy then s.setBwerr true
  else s.idleWrite sp off n w

/-! ## Accesses -/

/-- One host access (R61, R67 to R70). A bus error changes nothing (R196), and while `rst_n` is 0 the
block answers nothing (R211). -/
def hostAccess (s : State) (a : Access) : State :=
  if s.rstN then
    match a with
    | .read sp off n => s.answer (s.hostRead sp off n (Config.draw s.draws))
    | .write sp off n w =>
      if accessOk s.params sp true off n then (s.hostStore sp off n w).answer .written
      else s.answer .writeError
  else s.answer .noAnswer

/-- A bus transaction at a bus address, as an access of the space it lies in (R76). -/
def BusAccess.decode (p : Params) (a : BusAccess) : Option Access :=
  match a with
  | .read addr n => (busDecode p addr).map fun x => .read x.1 x.2 n
  | .write addr n w => (busDecode p addr).map fun x => .write x.1 x.2 n w

/-- One transaction on the bus (R76). An address in no space of the block is not answered by it (DESIGN
CHOICE, log entry 9). -/
def busAccess (s : State) (a : BusAccess) : State :=
  match a.decode s.params with
  | some acc => hostAccess s acc
  | none => s.answer .noAnswer

end Sys2Proof.Machine
end

