-- ==== Sys2Proof/Machine/Demod.lean ====
section
/-! DEFINITION. The Self-Clocking Demodulator: DEMOD (41_demod.md). A sample sequence is a list of bytes
in SAMP form (10_state.md R41). -/

namespace Sys2Proof.Machine

/-- R120: both channels are 1. -/
def isMarker (b : Byte) : Bool := bit0 b && bit1 b

/-- R120: every marker index of `S`, ascending. -/
def markers (S : List Byte) : List Nat := (List.range S.length).filter fun i => isMarker (S.getD i 0)

/-- R121: the midpoint of an interval, computed exactly. -/
def midpoint (a b : Nat) : Nat := (a + b) / 2

/-- R122: the bit an interval's midpoint sample decodes to; `none` is the spec's NONE. -/
def decodeInterval (b : Byte) : Option Bool :=
  if bit1 b && !bit0 b then some true
  else if bit0 b && !bit1 b then some false
  else none

/-- R121: the intervals, each a pair of consecutive markers. -/
def intervals (m : List Nat) : List (Nat × Nat) := m.zip (m.drop 1)

/-- R123: the decoded bits and the marker count of a sample sequence. -/
def demod (S : List Byte) : Bits × Nat :=
  let m := markers S
  ((intervals m).filterMap fun k => decodeInterval (S.getD (midpoint k.1 k.2) 0), m.length)

/-- The working registers of the one-pass form (R126): the previous marker if there is one, the marker
count, and the bits emitted so far. -/
structure DemodPass where
  prev : Option Nat
  count : Nat
  bits : Bits
deriving DecidableEq, Repr

/-- One turn of the loop of R126, at sample `t`. -/
def demodTurn (S : List Byte) (r : DemodPass) (t : Nat) : DemodPass :=
  if isMarker (S.getD t 0) then
    { prev := some t
      count := r.count + 1
      bits := match r.prev with
        | none => r.bits
        | some p => r.bits ++ (decodeInterval (S.getD (midpoint p t) 0)).toList }
  else r

/-- R126: the one-pass form. -/
def demodOnePass (S : List Byte) : Bits × Nat :=
  let r := (List.range S.length).foldl (demodTurn S) { prev := none, count := 0, bits := [] }
  (r.bits, r.count)

/-- Write a stage's decoded bits: DBITS[0..L), BIT_COUNT, MARKER_COUNT and V_DBITS (R125). -/
def State.putDbits (s : State) (bits : Bits) (m : Nat) : State :=
  { s with
    dbits := s.dbits.overlay (bits.map bitByte), bitCount := toWord bits.length
    markerCount := toWord m, status := { s.status with vDbits := true } }

/-- The body of DEMOD (R125). -/
def demodBody (s : State) : Except ErrCode State :=
  if s.status.vSamp then
    .ok (s.putDbits (demod s.samples).1 (demod s.samples).2).invalidateAfterDbits
  else .error .seq

/-- DEMOD (R125). -/
def execDemod (s : State) : Host.Outcome State Fault Refusal := finish s (demodBody s)

end Sys2Proof.Machine
end

