-- ==== Sys2Proof/Machine/Extract.lean ====
section
/-! DEFINITION. The Channel Extractor: EXTRACT (40_extract.md). -/

namespace Sys2Proof.Machine

/-- R110: one input byte to one sample, `{ch0 & ch1, ch1, ch0}` zero-extended to a byte. -/
def extract (b : Byte) : Byte :=
  let ch0 := b &&& 1#8
  let ch1 := (b >>> 1) &&& 1#8
  ((ch0 &&& ch1) <<< 2) ||| (ch1 <<< 1) ||| ch0

/-- Write a stage's samples: SAMP[0..N), SAMPLE_COUNT and V_SAMP (R111). -/
def State.putSamples (s : State) (bytes : List Byte) : State :=
  { s with
    samp := s.samp.overlay bytes, sampleCount := toWord bytes.length
    status := { s.status with vSamp := true } }

/-- The body of EXTRACT (R111): the range check comes before any write. -/
def extractBody (s : State) : Except ErrCode State :=
  if s.nLen.toNat ≤ nMax s.params then
    .ok (s.putSamples ((s.inBytes s.nLen.toNat).map extract)).invalidateAfterSamp
  else .error .lenRange

/-- EXTRACT (R111). -/
def execExtract (s : State) : Host.Outcome State Fault Refusal := finish s (extractBody s)

end Sys2Proof.Machine
end

