-- ==== Sys2Proof/Machine/Fsync.lean ====
section
/-! DEFINITION. The Frame Synchronizer: FSYNC and PCORR (42_fsync.md). `B` is the decoded-bit sequence
and `sync` is SYNCW (10_state.md R37). -/

namespace Sys2Proof.Machine

/-! ## The exact-match scan -/

/-- R135, R136: the 32 bits from `i` equal the pattern; a shorter window never does. -/
def matchAt (sync : Word) (B : Bits) (i : Nat) : Bool :=
  decide (i + syncLen ≤ B.length) &&
    (List.range syncLen).all fun j => B.getD (i + j) false == syncBit sync j

/-- R137: the least exact match at or after `j`. -/
def nextMatch (sync : Word) (B : Bits) (j : Nat) : Option Nat :=
  (List.range' j (B.length - j)).find? (matchAt sync B)

/-- The loop of R137 from position `i`. Each turn moves `i` up, so `fuel = B.length` turns reach the end. -/
def fsyncFrom (sync : Word) (B : Bits) (fuel i : Nat) : List (Nat × Nat) :=
  match fuel with
  | 0 => []
  | fuel + 1 =>
    if i + syncLen ≤ B.length then
      if matchAt sync B i then
        let stop := (nextMatch sync B (i + syncLen)).getD B.length
        (i, stop) :: fsyncFrom sync B fuel stop
      else fsyncFrom sync B fuel (i + 1)
    else []

/-- R137: the frames of `B`, each the bit region `[start, end)`. -/
def fsync (sync : Word) (B : Bits) : List (Nat × Nat) := fsyncFrom sync B B.length 0

/-- The length of a frame in bits (R138). -/
def frameLen (f : Nat × Nat) : Nat := f.2 - f.1

/-- FRAME_MIN_LEN (R138): 0 for no frame. -/
def minFrameLen (fs : List (Nat × Nat)) : Nat :=
  match fs.map frameLen with
  | [] => 0
  | l :: ls => ls.foldl min l

/-- FRAME_MAX_LEN (R138): 0 for no frame. -/
def maxFrameLen (fs : List (Nat × Nat)) : Nat :=
  match fs.map frameLen with
  | [] => 0
  | l :: ls => ls.foldl max l

/-- R139: the FTAB entries of the frames, the first at packed offset `poff`. -/
def frameTableFrom (poff : Nat) (fs : List (Nat × Nat)) : List FrameEntry :=
  match fs with
  | [] => []
  | f :: rest =>
    { start := toWord f.1, stop := toWord f.2, poff := toWord poff, pbytes := toWord (bytesFor (frameLen f)) } ::
      frameTableFrom (poff + bytesFor (frameLen f)) rest

/-- R139: the frame table, with `POFF_0 = 0`. -/
def frameTable (fs : List (Nat × Nat)) : List FrameEntry := frameTableFrom 0 fs

/-- DIAG (R141): decoded bits, and no frame in them. -/
def diagOf (L : Nat) (fs : List (Nat × Nat)) : Bool := decide (0 < L) && fs.isEmpty

/-- Write a stage's frames: FTAB, the statistics, the diagnostic condition and V_FRAMES (R142), for a
decoded-bit sequence of length `L`. -/
def State.putFrames (s : State) (L : Nat) (fs : List (Nat × Nat)) : State :=
  { s with
    ftab := tableOverlay (frameTable fs) s.ftab
    frameCount := toWord fs.length
    frameMinLen := toWord (minFrameLen fs)
    frameMaxLen := toWord (maxFrameLen fs)
    diagPrefixLen := if diagOf L fs then toWord (min diagPrefix L) else 0
    diagHeadLen := if diagOf L fs then toWord (min diagHead L) else 0
    status := { s.status with diag := diagOf L fs, vFrames := true } }

/-- The body of FSYNC (R142). -/
def fsyncBody (s : State) : Except ErrCode State :=
  if s.status.vDbits then
    .ok (s.putFrames s.decodedBits.length (fsync s.params.sync s.decodedBits))
  else .error .seq

/-- FSYNC (R142). -/
def execFsync (s : State) : Host.Outcome State Fault Refusal := finish s (fsyncBody s)

/-! ## The partial-match scan -/

/-- R143: the agreeing positions of the 24-bit window at `p`. -/
def score (sync : Word) (B : Bits) (p : Nat) : Nat :=
  (List.range corrLen).countP fun j => B.getD (p + j) false == syncBit sync j

/-- OBSN (R144). -/
def obsCount (B : Bits) (p : Nat) : Nat := min obsLen (B.length - p)

/-- OBS (R144): the observed bits, the first in bit 31. -/
def obsWord (B : Bits) (p : Nat) : Word :=
  toWord (((List.range (obsCount B p)).map fun j => (B.getD (p + j) false).toNat <<< (31 - j)).sum)

/-- R144: the PMTAB entry of position `p`. -/
def pmEntry (sync : Word) (B : Bits) (p : Nat) : PmEntry :=
  { pos := toWord p, obs := obsWord B p, obsn := toWord (obsCount B p), score := toWord (score sync B p) }

/-- R145: the partial matches of `B`, in ascending position. -/
def pcorr (sync : Word) (B : Bits) : List PmEntry :=
  (List.range (B.length - 23)).filterMap fun p =>
    if corrThresh ≤ score sync B p then some (pmEntry sync B p) else none

/-- Write a stage's partial matches: PMTAB, PM_COUNT and V_PM (R146). -/
def State.putPartials (s : State) (es : List PmEntry) : State :=
  { s with
    pmtab := tableOverlay es s.pmtab, pmCount := toWord es.length
    status := { s.status with vPm := true } }

/-- The body of PCORR (R146). -/
def pcorrBody (s : State) : Except ErrCode State :=
  if s.status.vDbits then .ok (s.putPartials (pcorr s.params.sync s.decodedBits)) else .error .seq

/-- PCORR (R146). -/
def execPcorr (s : State) : Host.Outcome State Fault Refusal := finish s (pcorrBody s)

end Sys2Proof.Machine
end

