-- ==== Sys2Proof/Machine/Pack.lean ====
section
/-! DEFINITION. The Bit Packer: PACKF and PACKR (43_pack.md). -/

namespace Sys2Proof.Machine

/-- One turn of the loop of R160: region bit `i` of the region from `s` goes to byte `i / 8`, bit
position `7 - (i % 8)`. -/
def packTurn (B : Bits) (s : Nat) (out : List Byte) (i : Nat) : List Byte :=
  if B.getD (s + i) false then out.modify (i / 8) fun b => b ||| (1#8 <<< (7 - i % 8)) else out

/-- R160: pack the `n` bits from bit `s` of `B` into `ceil(n / 8)` bytes, MSB-first, with a zero tail. -/
def pack (B : Bits) (s n : Nat) : List Byte :=
  (List.range n).foldl (packTurn B s) (List.replicate (bytesFor n) 0#8)

/-- R161: byte `q` of the packed region, as a sum over its valid bits. -/
def packByte (B : Bits) (s n q : Nat) : Byte :=
  BitVec.ofNat 8 (((List.range (min 8 (n - 8 * q))).map fun j =>
    (B.getD (s + 8 * q + j) false).toNat <<< (7 - j)).sum)

/-- R163: the packed frame stream, frame after frame. -/
def packFrames (fs : List FrameEntry) (B : Bits) : List Byte :=
  fs.flatMap fun f => pack B f.start.toNat (f.stop.toNat - f.start.toNat)

/-- Write a packed result: POUT, PACK_BYTES, V_PACK, and PKR to say of which kind (R163, R164). -/
def State.putPacked (s : State) (region : Bool) (bytes : List Byte) : State :=
  { s with
    pout := s.pout.overlay bytes, packBytes := toWord bytes.length
    status := { s.status with vPack := true, pkr := region } }

/-- The body of PACKF (R163). -/
def packfBody (s : State) : Except ErrCode State :=
  if s.status.vFrames then .ok (s.putPacked false (packFrames s.frames s.decodedBits)) else .error .seq

/-- PACKF (R163). -/
def execPackf (s : State) : Host.Outcome State Fault Refusal := finish s (packfBody s)

/-- The body of PACKR (R164): the checks in this order, the sum exact. -/
def packrBody (s : State) : Except ErrCode State :=
  if s.status.vDbits then
    if s.packStart.toNat + s.packLen.toNat ≤ s.bitCount.toNat then
      .ok (s.putPacked true (pack s.decodedBits s.packStart.toNat s.packLen.toNat))
    else .error .packRange
  else .error .seq

/-- PACKR (R164). -/
def execPackr (s : State) : Host.Outcome State Fault Refusal := finish s (packrBody s)

end Sys2Proof.Machine
end

