-- ==== Sys2Proof/Machine/Control.lean ====
section
/-! DEFINITION. The control commands: NOP, RUN and CLEAR (44_control.md). -/

namespace Sys2Proof.Machine

/-- NOP (R175): no effect but the completion. -/
def execNop (s : State) : Host.Outcome State Fault Refusal := finish s (.ok s)

/-- The body of RUN (R176): the five members' bodies in order, with one completion. -/
def runBody (s : State) : Except ErrCode State := do
  let s1 ← extractBody s
  let s2 ← demodBody s1
  let s3 ← fsyncBody s2
  let s4 ← pcorrBody s3
  packfBody s4

/-- RUN (R176). -/
def execRun (s : State) : Host.Outcome State Fault Refusal := finish s (runBody s)

/-- CLEAR (R177): every result is discarded; the inputs, the operand registers and BWERR stay. -/
def execClear (s : State) : Host.Outcome State Fault Refusal := finish s (.ok s.invalidateAll)

end Sys2Proof.Machine
end

