-- ==== Sys2Proof/Machine/Dispatch.lean ====
section
/-! DEFINITION. One arm per command (30_encoding.md R91), each one call of its meaning. -/

namespace Sys2Proof.Machine

def exec (i : Instr) (s : State) : Host.Outcome State Fault Refusal :=
  match i with
  | .nop => Sys2Proof.Machine.execNop s
  | .extract => Sys2Proof.Machine.execExtract s
  | .demod => Sys2Proof.Machine.execDemod s
  | .fsync => Sys2Proof.Machine.execFsync s
  | .pcorr => Sys2Proof.Machine.execPcorr s
  | .packf => Sys2Proof.Machine.execPackf s
  | .packr => Sys2Proof.Machine.execPackr s
  | .run => Sys2Proof.Machine.execRun s
  | .clear => Sys2Proof.Machine.execClear s

end Sys2Proof.Machine
end

