-- ==== Sys2Proof/Machine/Sequencer.lean ====
section
/-! DEFINITION. The sequencer's Complete step (10_state.md R21) and the step of each event of the
environment (20_memory.md R70). -/

namespace Sys2Proof.Machine

/-- Complete (R21): decode CMDQ and perform the whole command; an illegal word completes with ILLEGAL
(30_encoding.md R93). -/
def completeStep (s : State) : Host.Outcome State Fault Refusal :=
  match decode s.cmdq with
  | .ok i => exec i s
  | .error _ => raiseCmdError .illegal s

/-- The sequencer's turn: it takes its Complete step when BUSY = 1 (R21) and the block is not held in
reset (R211); else it is idle and every register keeps its value (60_exceptions.md R201). -/
def sequencerTurn (s : State) : Host.Outcome State Fault Refusal :=
  if s.rstN && s.status.busy then completeStep s else .next s

/-- What one event of the environment does. -/
def eventStep (s : State) (e : Event) : Host.Outcome State Fault Refusal :=
  match e with
  | .host a => .next (hostAccess s a)
  | .bus a => .next (busAccess s a)
  | .sequencer => sequencerTurn s
  | .rst high => .next (setRst s high)

/-- One step: the next event of the environment, or the sequencer's turn when the environment has none
left (70_reset_and_hazards.md R219: Complete fires eventually). -/
def machineStep (s : State) : Host.Outcome State Fault Refusal :=
  match s.env with
  | [] => sequencerTurn s
  | e :: rest => eventStep (s.setEnv rest) e

/-- `s` with command word `w` accepted and the sequencer's turn next. -/
def State.withCommand (s : State) (w : Word) : State :=
  { s.accept w with env := [], rstN := true }

end Sys2Proof.Machine
end

