-- ==== Sys2Proof/Machine/Step.lean ====
section
/-! DEFINITION. The machine's step (10_state.md R21) and the host's way to place a command. -/

namespace Sys2Proof.Machine

/-- One step of the machine. -/
def step (s : State) : Host.Outcome State Fault Refusal := machineStep s

/-- `s` with the command word of the low `nbits` bits of `w` accepted (CMDQ latched, BUSY = 1, DONE = 0,
as a CMD write does, R21) and nothing ahead of it, so that the very next step runs it (log entry 2). -/
def State.withFetchWord (s : State) (nbits w : Nat) : State := s.withCommand (tableWord nbits w)

end Sys2Proof.Machine
end

