-- ==== Sys2Proof/Machine/HostProgram.lean ====
section
/-! DEFINITION. Host programs as lists of events: the accesses of 30_encoding.md R96 and the expansions of
the pseudo-instructions of R97. The loop of WAIT runs on the host (44_control.md R178): here it is a number
of polls that read BUSY = 1, the sequencer's turn, and the poll that reads BUSY = 0. -/

namespace Sys2Proof.Machine

/-- `WR <SPACE>[<off>], <value>` (R96): a 4-byte write. -/
def hostWR (sp : Space) (off : Nat) (w : Word) : Event := .host (.write sp off 4 w)

/-- `WRB <SPACE>[<off>], <value>` (R96): a 1-byte write. -/
def hostWRB (sp : Space) (off : Nat) (b : Byte) : Event := .host (.write sp off 1 (b.zeroExtend 32))

/-- `RD <SPACE>[<off>]` (R96): a 4-byte read. -/
def hostRD (sp : Space) (off : Nat) : Event := .host (.read sp off 4)

/-- `RDB <SPACE>[<off>]` (R96): a 1-byte read. -/
def hostRDB (sp : Space) (off : Nat) : Event := .host (.read sp off 1)

/-- `CMD <mnemonic>` (R97). -/
def hostCMD (i : Instr) : List Event := [hostWR .reg (regOffset .cmd) (encode i)]

/-- `WAIT` (R97), with `polls` reads of STATUS before the command completes. -/
def hostWAIT (polls : Nat) : List Event :=
  List.replicate polls (hostRD .reg (regOffset .status)) ++ [.sequencer, hostRD .reg (regOffset .status)]

/-- `EXEC <mnemonic>` (R97). -/
def hostEXEC (i : Instr) (polls : Nat) : List Event := hostCMD i ++ hostWAIT polls

/-- The byte writes of `LOAD` from offset `k`. -/
def hostLoadFrom (k : Nat) (bs : List Byte) : List Event :=
  match bs with
  | [] => []
  | b :: rest => hostWRB .inp k b :: hostLoadFrom (k + 1) rest

/-- `LOAD b0, ..., b(k-1)` (R97). -/
def hostLOAD (bs : List Byte) : List Event :=
  hostLoadFrom 0 bs ++ [hostWR .reg (regOffset .nLen) (toWord bs.length)]

/-- `CLRBW` (R97). -/
def hostCLRBW : List Event := [hostWR .reg (regOffset .status) 0x100#32]

end Sys2Proof.Machine
end

