-- ==== Sys2Proof/Safety.lean ====
section
/-! DEFINITION. What counts as a sound state, in the terms the statements use: the byte memories keep their
canonical form, the handshake and valid bits agree (10_state.md R21, R26, R48), each valid bit keeps its
promise (R27), and every count and buffer stays inside its capacity (00_scope.md R7). -/

namespace Sys2Proof.Machine

/-- The state an outcome goes on with, if it is a next state. -/
def nextState? (o : Host.Outcome State Fault Refusal) : Option State :=
  match o with
  | .next s => some s
  | .fault _ => none
  | .refused _ => none

/-- The four byte memories are in canonical form. -/
structure State.MemoriesWf (s : State) : Prop where
  inp : s.inp.wf
  samp : s.samp.wf
  dbits : s.dbits.wf
  pout : s.pout.wf

/-- The handshake and the valid bits: BUSY and DONE are never both 1 (R21), the block is idle while
held in reset (R211), a stage is valid only when its input stage is (R27), and the registers of a stage
that is not valid read 0 (R48, R49). -/
structure State.HandshakeInv (s : State) : Prop where
  busyDone : ¬ (s.status.busy = true ∧ s.status.done = true)
  heldIdle : s.rstN = false → s.status.busy = false
  dbitsNeedSamp : s.status.vDbits = true → s.status.vSamp = true
  framesNeedDbits : s.status.vFrames = true → s.status.vDbits = true
  pmNeedsDbits : s.status.vPm = true → s.status.vDbits = true
  packNeedsDbits : s.status.vPack = true → s.status.vDbits = true
  packfNeedsFrames : s.status.vPack = true → s.status.pkr = false → s.status.vFrames = true
  noSamp : s.status.vSamp = false → s.sampleCount = 0
  noDbits : s.status.vDbits = false → s.markerCount = 0 ∧ s.bitCount = 0
  noFrames : s.status.vFrames = false → s.frameCount = 0 ∧ s.frameMinLen = 0 ∧ s.frameMaxLen = 0 ∧
    s.status.diag = false ∧ s.diagPrefixLen = 0 ∧ s.diagHeadLen = 0
  noPm : s.status.vPm = false → s.pmCount = 0
  noPack : s.status.vPack = false → s.packBytes = 0 ∧ s.status.pkr = false

/-- The promises of the valid bits (R27). The bytes EXTRACT converted and the region PACKR packed are
ghost values: the block keeps neither. -/
structure State.StageInv (s : State) : Prop where
  samp : s.status.vSamp = true →
    ∃ bytes : List Byte, bytes.length = s.sampleCount.toNat ∧ s.samples = bytes.map extract
  dbits : s.status.vDbits = true →
    s.status.vSamp = true ∧ s.dbitBytes = (demod s.samples).1.map bitByte ∧
      s.markerCount.toNat = (demod s.samples).2
  frames : s.status.vFrames = true →
    s.status.vDbits = true ∧ s.frames = frameTable (fsync s.params.sync s.decodedBits) ∧
      s.frameMinLen.toNat = minFrameLen (fsync s.params.sync s.decodedBits) ∧
      s.frameMaxLen.toNat = maxFrameLen (fsync s.params.sync s.decodedBits) ∧
      s.status.diag = (decide (0 < s.bitCount.toNat) && decide (s.frameCount = 0)) ∧
      s.diagPrefixLen.toNat = (if s.status.diag then min 1000 s.bitCount.toNat else 0) ∧
      s.diagHeadLen.toNat = (if s.status.diag then min 32 s.bitCount.toNat else 0)
  pm : s.status.vPm = true →
    s.status.vDbits = true ∧ s.partials = pcorr s.params.sync s.decodedBits
  packf : s.status.vPack = true → s.status.pkr = false →
    s.status.vFrames = true ∧ s.packed = packFrames s.frames s.decodedBits
  packr : s.status.vPack = true → s.status.pkr = true →
    s.status.vDbits = true ∧ ∃ a n : Nat, a + n ≤ s.bitCount.toNat ∧ s.packed = pack s.decodedBits a n

/-- No command overflows a buffer (00_scope.md R7): every count is at most its capacity, and no entry
beyond a buffer's size has been written. -/
structure State.CapacityInv (s : State) : Prop where
  sampleCount : s.sampleCount.toNat ≤ nMax s.params
  bitCount : s.bitCount.toNat ≤ dbMax s.params
  frameCount : s.frameCount.toNat ≤ ftMax s.params
  pmCount : s.pmCount.toNat ≤ pmMax s.params
  packBytes : s.packBytes.toNat ≤ poMax s.params
  inp : ∀ c ∈ s.inp, c.1 < nMax s.params
  samp : ∀ c ∈ s.samp, c.1 < nMax s.params
  dbits : ∀ c ∈ s.dbits, c.1 < dbMax s.params
  ftab : s.ftab.length ≤ ftMax s.params
  pmtab : s.pmtab.length ≤ pmMax s.params
  pout : ∀ c ∈ s.pout, c.1 < poMax s.params

/-- Everything above at once: a state a run can reach. -/
structure State.Sound (s : State) : Prop where
  memories : s.MemoriesWf
  handshake : s.HandshakeInv
  stages : s.StageInv
  capacity : s.CapacityInv

/-- Two states whose architectural parts agree: they differ at most in the model's own bookkeeping of
the environment, the last answer and the draw counter. -/
def State.sameBlock (s t : State) : Prop :=
  t = { s with env := t.env, resp := t.resp, draws := t.draws }

end Sys2Proof.Machine
end

