-- ==== Sys2Proof/Certificates/Slice0/Obligations.lean ====
section
/-! DEFINITION. The statements for the provers. Each says in its docstring which rule of spec/ it
formalises. `Params.nMaxPred.toNat + 1` is `N_MAX` (00_scope.md R5). A completion statement gives the next
state as `s` with the fields the command writes replaced, so that every other field is unchanged. -/

open Sys2Proof Sys2Proof.Machine

/-! ## Decoding, placing and running a command -/

/-- 10_state.md R21, 30_encoding.md R92: the sequencer's turn, given by an empty schedule or by the next
event, runs the command CMDQ decodes to; and the command that `withFetchWord` places runs in the very next
step. -/
def Obligations.StepRunsDecodedCommand : Prop :=
  ∀ (s : State) (i : Instr),
    (s.rstN = true → s.status.busy = true → decode s.cmdq = .ok i →
      (s.env = [] → step s = exec i s) ∧
      (∀ rest, s.env = .sequencer :: rest → step s = exec i { s with env := rest })) ∧
    (∀ w : Nat, w < 2 ^ 32 → decodeTableWord 32 w = some i →
      step (s.withFetchWord 32 w) =
        exec i { s with env := [], rstN := true, cmdq := BitVec.ofNat 32 w,
                        status := { s.status with busy := true, done := false } })

/-- 30_encoding.md R92: the decoding function, on every 32-bit word, and that the Complete step decodes
CMDQ by it. -/
def Obligations.DecodeFollowsOpcodeMap : Prop :=
  (∀ w : Word,
    (w.toNat / 16 ≠ 0 → ∃ e, decode w = .error e) ∧
    (w.toNat / 16 = 0 →
      (w.toNat % 16 = 0 → decode w = .ok .nop) ∧ (w.toNat % 16 = 1 → decode w = .ok .extract) ∧
      (w.toNat % 16 = 2 → decode w = .ok .demod) ∧ (w.toNat % 16 = 3 → decode w = .ok .fsync) ∧
      (w.toNat % 16 = 4 → decode w = .ok .pcorr) ∧ (w.toNat % 16 = 5 → decode w = .ok .packf) ∧
      (w.toNat % 16 = 6 → decode w = .ok .packr) ∧ (w.toNat % 16 = 7 → decode w = .ok .run) ∧
      (w.toNat % 16 = 8 → decode w = .ok .clear) ∧
      (9 ≤ w.toNat % 16 → ∃ e, decode w = .error e))) ∧
  (∀ s : State,
    (∀ i, decode s.cmdq = .ok i → completeStep s = exec i s) ∧
    (∀ e, decode s.cmdq = .error e →
      completeStep s = .next { s with status := { s.status with err := .illegal, busy := false, done := true } }))

/-- 30_encoding.md R90, R91: every command decodes from its own word and from no other, and the words that
decode are exactly the well-formed ones. -/
def Obligations.DecodeAndEncodeAgree : Prop :=
  (∀ i : Instr, i.wellFormed = true → decode (encode i) = .ok i) ∧
  (∀ (i : Instr) (w : Word), decode w = .ok i ↔ w = encode i) ∧
  (∀ w : Word, CmdWord.wellFormed w = true ↔ ∃ i, decode w = .ok i)

/-- 30_encoding.md R91: the words of the opcode map, written out, and the reserved opcodes. -/
def Obligations.OpcodeWordsDecode : Prop :=
  decode 0x00000000#32 = .ok .nop ∧ decode 0x00000001#32 = .ok .extract ∧
  decode 0x00000002#32 = .ok .demod ∧ decode 0x00000003#32 = .ok .fsync ∧
  decode 0x00000004#32 = .ok .pcorr ∧ decode 0x00000005#32 = .ok .packf ∧
  decode 0x00000006#32 = .ok .packr ∧ decode 0x00000007#32 = .ok .run ∧
  decode 0x00000008#32 = .ok .clear ∧
  decode 0x00000009#32 = .error .reservedOpcode ∧ decode 0x0000000F#32 = .error .reservedOpcode ∧
  decode 0x00000010#32 = .error .reservedBits

/-- 30_encoding.md R93: an illegal word is accepted like any command, and its Complete step changes only
ERR, BUSY and DONE. -/
def Obligations.IllegalWordCompletesWithCode : Prop :=
  ∀ (s : State) (w : Word), s.rstN = true → s.status.busy = false →
    (16 ≤ w.toNat ∨ 9 ≤ w.toNat % 16) →
      hostAccess s (.write .reg 0 4 w) =
        { s with cmdq := w, status := { s.status with busy := true, done := false },
                 resp := .written, draws := s.draws + 1 } ∧
      sequencerTurn (hostAccess s (.write .reg 0 4 w)) =
        .next { s with cmdq := w, status := { s.status with err := .illegal, busy := false, done := true },
                       resp := .written, draws := s.draws + 1 }

/-- 10_state.md R25: a CMD write issues a command when idle and is ignored, setting BWERR, when busy; a CMD
read returns 0. -/
def Obligations.CmdWriteIssuesCommand : Prop :=
  ∀ (s : State) (w : Word), s.rstN = true →
    (s.status.busy = false →
      hostAccess s (.write .reg 0 4 w) =
        { s with cmdq := w, status := { s.status with busy := true, done := false },
                 resp := .written, draws := s.draws + 1 }) ∧
    (s.status.busy = true →
      hostAccess s (.write .reg 0 4 w) =
        { s with status := { s.status with bwerr := true }, resp := .written, draws := s.draws + 1 }) ∧
    hostAccess s (.read .reg 0 4) = { s with resp := .word 0, draws := s.draws + 1 }

/-- 10_state.md R21 with 30_encoding.md R97: from an idle block, the CMD write of a command and then the
sequencer's turn are two steps that run it. -/
def Obligations.CommandIssuedOnBusRuns : Prop :=
  ∀ (s : State) (i : Instr), s.rstN = true → s.status.busy = false → s.env = hostCMD i ++ [.sequencer] →
    Host.Core.run core 2 s =
      exec i { s with env := [], cmdq := encode i, status := { s.status with busy := true, done := false },
                      resp := .written, draws := s.draws + 1 }

/-! ## EXTRACT -/

/-- 40_extract.md R110: the sample of a byte, bit by bit; bits 7:2 of the byte do not matter. -/
def Obligations.ExtractGivesChannelBits : Prop :=
  ∀ b : Byte,
    (extract b).getLsbD 0 = b.getLsbD 0 ∧ (extract b).getLsbD 1 = b.getLsbD 1 ∧
    (extract b).getLsbD 2 = (b.getLsbD 0 && b.getLsbD 1) ∧ (∀ j, 3 ≤ j → (extract b).getLsbD j = false) ∧
    extract b = extract (b &&& 3#8)

/-- 40_extract.md R111: EXTRACT's samples, counts, STATUS and frame, and its LEN_RANGE error. -/
def Obligations.ExtractConvertsInput : Prop :=
  encode .extract = 0x00000001#32 ∧
  ∀ s : State,
    (s.nLen.toNat ≤ s.params.nMaxPred.toNat + 1 →
      ∃ m : Memory,
        exec .extract s = .next
          { s with
            samp := m, sampleCount := s.nLen
            markerCount := 0, bitCount := 0, frameCount := 0, frameMinLen := 0, frameMaxLen := 0
            pmCount := 0, packBytes := 0, diagPrefixLen := 0, diagHeadLen := 0
            status := { s.status with
              busy := false, done := true, err := .ok, diag := false, vSamp := true, vDbits := false,
              vFrames := false, vPm := false, vPack := false, pkr := false } } ∧
        (∀ i, i < s.nLen.toNat → bufByte s.epoch .samp m i = extract (s.inAt i)) ∧
        (∀ i, s.nLen.toNat ≤ i → m.read i = s.samp.read i)) ∧
    (s.params.nMaxPred.toNat + 1 < s.nLen.toNat →
      exec .extract s =
        .next { s with status := { s.status with busy := false, done := true, err := .lenRange } })

/-! ## DEMOD -/

/-- 41_demod.md R120: the marker list is every index whose sample has both channels 1, ascending; for a
sample EXTRACT made that is its bit 2. -/
def Obligations.MarkersAreExact : Prop :=
  (∀ S : List Byte,
    (∀ i, i ∈ markers S ↔
      ∃ h : i < S.length, S[i].getLsbD 0 = true ∧ S[i].getLsbD 1 = true) ∧
    (markers S).Pairwise (· < ·) ∧ (demod S).2 = (markers S).length) ∧
  (∀ b : Byte, isMarker (extract b) = (extract b).getLsbD 2)

/-- 41_demod.md R122: what an interval's midpoint sample decodes to. -/
def Obligations.IntervalDecodesByChannels : Prop :=
  ∀ b : Byte,
    (b.getLsbD 1 = true → b.getLsbD 0 = false → decodeInterval b = some true) ∧
    (b.getLsbD 0 = true → b.getLsbD 1 = false → decodeInterval b = some false) ∧
    (b.getLsbD 0 = b.getLsbD 1 → decodeInterval b = none)

/-- 41_demod.md R126: the one-pass loop gives exactly the result of R123. -/
def Obligations.DemodOnePassAgrees : Prop :=
  ∀ S : List Byte, demodOnePass S = demod S

/-- 41_demod.md R124 items 3, 5 and 6: the bounds on the decoded bits, and that bits 7:2 of the input
bytes never matter. -/
def Obligations.DemodBitsAreBounded : Prop :=
  (∀ S : List Byte,
    (demod S).1.length ≤ (S.length - 1) / 2 ∧ (demod S).1.length ≤ (demod S).2 - 1 ∧
    ((demod S).2 ≤ 1 → (demod S).1 = [])) ∧
  (∀ bs : List Byte, demod (bs.map extract) = demod (bs.map fun b => extract (b &&& 3#8)))

/-- 41_demod.md R121, R123 (with R127): the bits of demod are, over the intervals in marker order, what the
sample at the exact midpoint of each decodes to (R122, IntervalDecodesByChannels), an interval that decodes
to no bit leaving no entry; `m` is the marker list of R120, said here without the model's own. Interval
`k + 1` of the rule is `k` here. -/
def Obligations.DemodDecodesMidpoints : Prop :=
  ∀ (S : List Byte) (m : List Nat), m.Pairwise (· < ·) →
    (∀ i, i ∈ m ↔ ∃ h : i < S.length, S[i].getLsbD 0 = true ∧ S[i].getLsbD 1 = true) →
      demod S =
        ((List.range (m.length - 1)).filterMap fun k =>
          (S[(m.getD k 0 + m.getD (k + 1) 0) / 2]?).bind decodeInterval, m.length)

/-- 41_demod.md R125: DEMOD's bits, counts, STATUS and frame, and its SEQ error. -/
def Obligations.DemodDecodesSamples : Prop :=
  encode .demod = 0x00000002#32 ∧
  ∀ s : State,
    (s.status.vSamp = true →
      ∃ (m : Memory) (n c : Word),
        exec .demod s = .next
          { s with
            dbits := m, bitCount := n, markerCount := c
            frameCount := 0, frameMinLen := 0, frameMaxLen := 0
            pmCount := 0, packBytes := 0, diagPrefixLen := 0, diagHeadLen := 0
            status := { s.status with
              busy := false, done := true, err := .ok, diag := false, vDbits := true,
              vFrames := false, vPm := false, vPack := false, pkr := false } } ∧
        n.toNat = (demod s.samples).1.length ∧ c.toNat = (demod s.samples).2 ∧
        (∀ (k : Nat) (h : k < (demod s.samples).1.length),
          (bufByte s.epoch .dbits m k).toNat = ((demod s.samples).1[k]).toNat) ∧
        (∀ k, (demod s.samples).1.length ≤ k → m.read k = s.dbits.read k)) ∧
    (s.status.vSamp = false →
      exec .demod s = .next { s with status := { s.status with busy := false, done := true, err := .seq } })

/-! ## FSYNC -/

/-- 42_fsync.md R135, R136: an exact match, and that a short window never is one. -/
def Obligations.ExactMatchIsThirtyTwoEqualBits : Prop :=
  ∀ (sync : Word) (B : Bits) (i : Nat),
    (matchAt sync B i = true ↔
      i + 32 ≤ B.length ∧ ∀ j, j < 32 → B[i + j]? = some (sync.getLsbD (31 - j))) ∧
    (B.length < i + 32 → matchAt sync B i = false)

/-- 42_fsync.md R137 and R140 items 1, 2 and 6: the frames start at the least exact match, follow each
other without a gap, and end at the end of the bits; each starts with an exact match, is at least 32 bits
long, and holds no other exact match from its bit 32 on. -/
def Obligations.FramesTileFromFirstMatch : Prop :=
  ∀ (sync : Word) (B : Bits),
    (fsync sync B = [] ↔ ∀ i, matchAt sync B i = false) ∧
    (∀ f, (fsync sync B).head? = some f → ∀ i, i < f.1 → matchAt sync B i = false) ∧
    (∀ (k : Nat) (h : k + 1 < (fsync sync B).length),
      ((fsync sync B)[k]).2 = ((fsync sync B)[k + 1]).1) ∧
    (∀ f, (fsync sync B).getLast? = some f → f.2 = B.length) ∧
    (∀ f, f ∈ fsync sync B →
      f.1 + 32 ≤ f.2 ∧ matchAt sync B f.1 = true ∧
        ∀ j, f.1 + 32 ≤ j → j < f.2 → matchAt sync B j = false)

/-- 42_fsync.md R140 items 3, 4 and 5: the number of frames, the one frame of a single match, and none in
fewer than 32 bits. -/
def Obligations.FrameCountIsBounded : Prop :=
  ∀ (sync : Word) (B : Bits),
    (fsync sync B).length ≤ B.length / 32 ∧
    (B.length < 32 → fsync sync B = []) ∧
    (∀ p, (∀ i, matchAt sync B i = true ↔ i = p) → fsync sync B = [(p, B.length)]) ∧
    (B = (List.range 32).map (syncBit sync) → fsync sync B = [(0, 32)])

/-- 42_fsync.md R138: the frame statistics FSYNC writes. -/
def Obligations.FsyncWritesFrameStatistics : Prop :=
  ∀ s : State, s.status.vDbits = true →
    ∃ t, exec .fsync s = .next t ∧
      t.frameCount.toNat = (fsync s.params.sync s.decodedBits).length ∧
      (fsync s.params.sync s.decodedBits = [] → t.frameMinLen = 0 ∧ t.frameMaxLen = 0) ∧
      (fsync s.params.sync s.decodedBits ≠ [] →
        (∃ f ∈ fsync s.params.sync s.decodedBits, t.frameMinLen.toNat = f.2 - f.1) ∧
        (∃ f ∈ fsync s.params.sync s.decodedBits, t.frameMaxLen.toNat = f.2 - f.1) ∧
        ∀ f ∈ fsync s.params.sync s.decodedBits,
          t.frameMinLen.toNat ≤ f.2 - f.1 ∧ f.2 - f.1 ≤ t.frameMaxLen.toNat)

/-- 42_fsync.md R139: the frame table FSYNC writes. -/
def Obligations.FsyncWritesFrameTable : Prop :=
  ∀ s : State, s.status.vDbits = true →
    ∃ t, exec .fsync s = .next t ∧
      ∀ (k : Nat) (h : k < (fsync s.params.sync s.decodedBits).length),
        (t.frameAt k).start.toNat = ((fsync s.params.sync s.decodedBits)[k]).1 ∧
        (t.frameAt k).stop.toNat = ((fsync s.params.sync s.decodedBits)[k]).2 ∧
        (t.frameAt k).pbytes.toNat =
          (((fsync s.params.sync s.decodedBits)[k]).2 - ((fsync s.params.sync s.decodedBits)[k]).1 + 7) / 8 ∧
        (t.frameAt k).poff.toNat =
          (((fsync s.params.sync s.decodedBits).take k).map fun f => (f.2 - f.1 + 7) / 8).sum

/-- 42_fsync.md R141, R142: what FSYNC writes, the diagnostic condition, its frame, and its SEQ error. -/
def Obligations.FsyncFindsFrames : Prop :=
  encode .fsync = 0x00000003#32 ∧
  ∀ s : State,
    (s.status.vDbits = true →
      ∃ (tab : List FrameEntry) (n mn mx pl hl : Word) (dg : Bool),
        exec .fsync s = .next
          { s with
            ftab := tab, frameCount := n, frameMinLen := mn, frameMaxLen := mx
            diagPrefixLen := pl, diagHeadLen := hl
            status := { s.status with busy := false, done := true, err := .ok, diag := dg, vFrames := true } } ∧
        n.toNat = (fsync s.params.sync s.decodedBits).length ∧
        mn.toNat = minFrameLen (fsync s.params.sync s.decodedBits) ∧
        mx.toNat = maxFrameLen (fsync s.params.sync s.decodedBits) ∧
        (dg = true ↔ 0 < s.bitCount.toNat ∧ fsync s.params.sync s.decodedBits = []) ∧
        (dg = true → pl.toNat = min 1000 s.bitCount.toNat ∧ hl.toNat = min 32 s.bitCount.toNat) ∧
        (dg = false → pl = 0 ∧ hl = 0) ∧
        (∀ k, k < n.toNat → tab[k]? = (frameTable (fsync s.params.sync s.decodedBits))[k]?) ∧
        (∀ k, n.toNat ≤ k → tab[k]? = s.ftab[k]?)) ∧
    (s.status.vDbits = false →
      exec .fsync s = .next { s with status := { s.status with busy := false, done := true, err := .seq } })

/-! ## PCORR -/

/-- 42_fsync.md R143: the score counts the agreeing positions of 24; `SYNC[24..31]` take no part. -/
def Obligations.ScoreCountsAgreeingBits : Prop :=
  ∀ (sync : Word) (B : Bits) (p : Nat), p + 24 ≤ B.length →
    score sync B p =
      ((Finset.range 24).filter fun j => B[p + j]? = some (sync.getLsbD (31 - j))).card ∧
    score sync B p ≤ 24 ∧
    (∀ sync' : Word, (∀ j, j < 24 → sync'.getLsbD (31 - j) = sync.getLsbD (31 - j)) →
      score sync' B p = score sync B p)

/-- 42_fsync.md R144: the fields of a partial match's entry. -/
def Obligations.PartialMatchEntryFields : Prop :=
  ∀ (sync : Word) (B : Bits) (p : Nat), p + 24 ≤ B.length → B.length < 2 ^ 32 →
    (pmEntry sync B p).pos.toNat = p ∧
    (pmEntry sync B p).obsn.toNat = min 32 (B.length - p) ∧
    24 ≤ (pmEntry sync B p).obsn.toNat ∧ (pmEntry sync B p).obsn.toNat ≤ 32 ∧
    (pmEntry sync B p).score.toNat = score sync B p ∧
    (∀ j, j < min 32 (B.length - p) → B[p + j]? = some ((pmEntry sync B p).obs.getLsbD (31 - j))) ∧
    (∀ j, min 32 (B.length - p) ≤ j → j < 32 → (pmEntry sync B p).obs.getLsbD (31 - j) = false)

/-- 42_fsync.md R145: every window of score 20 or more, in ascending position, and no other. -/
def Obligations.PcorrListsEveryPartialMatch : Prop :=
  ∀ (sync : Word) (B : Bits), B.length < 2 ^ 32 →
    (∀ e, e ∈ pcorr sync B ↔ ∃ p, p + 24 ≤ B.length ∧ 20 ≤ score sync B p ∧ e = pmEntry sync B p) ∧
    (pcorr sync B).Pairwise (fun a b => a.pos.toNat < b.pos.toNat) ∧
    (pcorr sync B).length ≤ B.length - 23

/-- 42_fsync.md R146: what PCORR writes (V_PM, PMTAB, PM_COUNT and ERR, nothing else), and its SEQ error. -/
def Obligations.PcorrWritesPartialMatches : Prop :=
  encode .pcorr = 0x00000004#32 ∧
  ∀ s : State,
    (s.status.vDbits = true →
      ∃ (tab : List PmEntry) (n : Word),
        exec .pcorr s = .next
          { s with
            pmtab := tab, pmCount := n
            status := { s.status with busy := false, done := true, err := .ok, vPm := true } } ∧
        n.toNat = (pcorr s.params.sync s.decodedBits).length ∧
        (∀ k, k < n.toNat → tab[k]? = (pcorr s.params.sync s.decodedBits)[k]?) ∧
        (∀ k, n.toNat ≤ k → tab[k]? = s.pmtab[k]?)) ∧
    (s.status.vDbits = false →
      exec .pcorr s = .next { s with status := { s.status with busy := false, done := true, err := .seq } })

/-- 42_fsync.md R147: PCORR reads only DBITS and SYNC, and its order with FSYNC does not matter. -/
def Obligations.ScansAreIndependent : Prop :=
  (∀ s u : State,
    s.status.vDbits = true → u.status.vDbits = true → u.params.sync = s.params.sync →
    u.decodedBits = s.decodedBits →
      ∃ s' u', exec .pcorr s = .next s' ∧ exec .pcorr u = .next u' ∧
        u'.pmCount = s'.pmCount ∧ u'.partials = s'.partials) ∧
  (∀ s : State, ∃ s1 s2 u1 u2,
    exec .fsync s = .next s1 ∧ exec .pcorr s1 = .next s2 ∧
    exec .pcorr s = .next u1 ∧ exec .fsync u1 = .next u2 ∧
    s2 = u2 ∧ s2.pmtab = u1.pmtab ∧ s2.pmCount = u1.pmCount)

/-! ## PACKF and PACKR -/

/-- 43_pack.md R160: region bit `i` is bit `7 - i % 8` of byte `i / 8`, and the tail bits are 0. -/
def Obligations.PackPlacesBitsMsbFirst : Prop :=
  ∀ (B : Bits) (s n : Nat), s + n ≤ B.length →
    (pack B s n).length = (n + 7) / 8 ∧
    (∀ i, i < n → ∃ b, (pack B s n)[i / 8]? = some b ∧ B[s + i]? = some (b.getLsbD (7 - i % 8))) ∧
    (∀ i, n ≤ i → ∀ b, (pack B s n)[i / 8]? = some b → b.getLsbD (7 - i % 8) = false)

/-- 43_pack.md R161: the byte form of R160. -/
def Obligations.PackAgreesWithByteForm : Prop :=
  ∀ (B : Bits) (s n : Nat), s + n ≤ B.length →
    pack B s n = (List.range ((n + 7) / 8)).map (packByte B s n) ∧
    (∀ (q : Nat), 8 * q < n → n - 8 * q < 8 → (packByte B s n q).toNat % 2 ^ (8 - (n - 8 * q)) = 0)

/-- 43_pack.md R162: the packed length, the source's two examples, and the packed sync pattern. -/
def Obligations.PackLengthAndExamples : Prop :=
  (∀ (B : Bits) (s n : Nat), s + n ≤ B.length →
    (pack B s n).length = (n + 7) / 8 ∧ (n = 0 → pack B s n = []) ∧
    (1 ≤ n → n ≤ 8 → (pack B s n).length = 1)) ∧
  pack [false, true, true, false, true, false, false, true] 0 8 = [0x69#8] ∧
  pack [true, false, true] 0 3 = [0xA0#8] ∧
  (∀ sync : Word, pack ((List.range 32).map (syncBit sync)) 0 32 =
    [sync.extractLsb' 24 8, sync.extractLsb' 16 8, sync.extractLsb' 8 8, sync.extractLsb' 0 8])

/-- 43_pack.md R163: what PACKF writes, its frame, and its SEQ error. -/
def Obligations.PackfPacksFrames : Prop :=
  encode .packf = 0x00000005#32 ∧
  ∀ s : State,
    (s.status.vFrames = true →
      ∃ m : Memory,
        exec .packf s = .next
          { s with
            pout := m, packBytes := BitVec.ofNat 32 (packFrames s.frames s.decodedBits).length
            status := { s.status with
              busy := false, done := true, err := .ok, vPack := true, pkr := false } } ∧
        (∀ (q : Nat) (h : q < (packFrames s.frames s.decodedBits).length),
          bufByte s.epoch .pout m q = (packFrames s.frames s.decodedBits)[q]) ∧
        (∀ q, (packFrames s.frames s.decodedBits).length ≤ q → m.read q = s.pout.read q)) ∧
    (s.status.vFrames = false →
      exec .packf s = .next { s with status := { s.status with busy := false, done := true, err := .seq } })

/-- 43_pack.md R163, R165 with 42_fsync.md R139: in a state the block can reach, frame `k`'s bytes stand in
POUT at `POFF_k`, and PACK_BYTES is the sum of the frames' PBYTES. -/
def Obligations.PackfPlacesFramesAtTheirOffsets : Prop :=
  ∀ s : State, s.StageInv → s.status.vFrames = true →
    ∃ t, exec .packf s = .next t ∧
      t.packBytes.toNat = (s.frames.map fun f => f.pbytes.toNat).sum ∧
      ∀ k, k < s.frameCount.toNat → ∀ q, q < (s.frameAt k).pbytes.toNat →
        t.poutAt ((s.frameAt k).poff.toNat + q) =
          packByte s.decodedBits (s.frameAt k).start.toNat
            ((s.frameAt k).stop.toNat - (s.frameAt k).start.toNat) q

/-- 43_pack.md R164: what PACKR writes, its frame, and its two errors in their order. -/
def Obligations.PackrPacksRegion : Prop :=
  encode .packr = 0x00000006#32 ∧
  ∀ s : State,
    (s.status.vDbits = true → s.packStart.toNat + s.packLen.toNat ≤ s.bitCount.toNat →
      ∃ (m : Memory) (n : Word),
        exec .packr s = .next
          { s with
            pout := m, packBytes := n
            status := { s.status with
              busy := false, done := true, err := .ok, vPack := true, pkr := true } } ∧
        n.toNat = (s.packLen.toNat + 7) / 8 ∧
        (∀ q, q < n.toNat →
          bufByte s.epoch .pout m q = packByte s.decodedBits s.packStart.toNat s.packLen.toNat q) ∧
        (∀ q, n.toNat ≤ q → m.read q = s.pout.read q)) ∧
    (s.status.vDbits = true → s.bitCount.toNat < s.packStart.toNat + s.packLen.toNat →
      exec .packr s =
        .next { s with status := { s.status with busy := false, done := true, err := .packRange } }) ∧
    (s.status.vDbits = false →
      exec .packr s = .next { s with status := { s.status with busy := false, done := true, err := .seq } })

/-! ## NOP, RUN, CLEAR -/

/-- 44_control.md R175: NOP changes nothing but ERR, BUSY and DONE. -/
def Obligations.NopOnlyCompletes : Prop :=
  encode .nop = 0x00000000#32 ∧
  ∀ s : State,
    exec .nop s = .next { s with status := { s.status with busy := false, done := true, err := .ok } }

/-- 44_control.md R176: RUN ends in the very state its five members end in, run one after the other. -/
def Obligations.RunEqualsItsMembers : Prop :=
  ∀ s : State, s.nLen.toNat ≤ s.params.nMaxPred.toNat + 1 →
    ∃ s1 s2 s3 s4 t,
      exec .extract s = .next s1 ∧ exec .demod s1 = .next s2 ∧ exec .fsync s2 = .next s3 ∧
      exec .pcorr s3 = .next s4 ∧ exec .packf s4 = .next t ∧ exec .run s = .next t

/-- 44_control.md R176, 00_scope.md R2: RUN's whole result as the stage functions of the input bytes, its
STATUS and frame, and its one error. -/
def Obligations.RunComputesWholePipeline : Prop :=
  encode .run = 0x00000007#32 ∧
  ∀ s : State,
    (s.nLen.toNat ≤ s.params.nMaxPred.toNat + 1 →
      ∃ t, exec .run s = .next t ∧
        t = { s with
              samp := t.samp, dbits := t.dbits, ftab := t.ftab, pmtab := t.pmtab, pout := t.pout
              sampleCount := s.nLen, markerCount := t.markerCount, bitCount := t.bitCount
              frameCount := t.frameCount, frameMinLen := t.frameMinLen, frameMaxLen := t.frameMaxLen
              pmCount := t.pmCount, packBytes := t.packBytes
              diagPrefixLen := t.diagPrefixLen, diagHeadLen := t.diagHeadLen
              status := { s.status with
                busy := false, done := true, err := .ok, diag := t.status.diag, vSamp := true,
                vDbits := true, vFrames := true, vPm := true, vPack := true, pkr := false } } ∧
        t.samples = (s.inBytes s.nLen.toNat).map extract ∧
        t.dbitBytes = (demod t.samples).1.map bitByte ∧ t.decodedBits = (demod t.samples).1 ∧
        t.markerCount.toNat = (demod t.samples).2 ∧
        t.frames = frameTable (fsync s.params.sync t.decodedBits) ∧
        t.frameMinLen.toNat = minFrameLen (fsync s.params.sync t.decodedBits) ∧
        t.frameMaxLen.toNat = maxFrameLen (fsync s.params.sync t.decodedBits) ∧
        (t.status.diag = true ↔ 0 < t.bitCount.toNat ∧ t.frameCount = 0) ∧
        t.diagPrefixLen.toNat = (if t.status.diag then min 1000 t.bitCount.toNat else 0) ∧
        t.diagHeadLen.toNat = (if t.status.diag then min 32 t.bitCount.toNat else 0) ∧
        t.partials = pcorr s.params.sync t.decodedBits ∧
        t.packed = packFrames t.frames t.decodedBits) ∧
    (s.params.nMaxPred.toNat + 1 < s.nLen.toNat →
      exec .run s =
        .next { s with status := { s.status with busy := false, done := true, err := .lenRange } })

/-- 44_control.md R177: CLEAR zeroes every valid bit, PKR, DIAG and count, and keeps the rest; after it the
five stage commands that need an input stage raise SEQ. -/
def Obligations.ClearDiscardsResults : Prop :=
  encode .clear = 0x00000008#32 ∧
  ∀ s : State, ∃ t,
    exec .clear s = .next t ∧
    t = { s with
          sampleCount := 0, markerCount := 0, bitCount := 0, frameCount := 0, frameMinLen := 0
          frameMaxLen := 0, pmCount := 0, packBytes := 0, diagPrefixLen := 0, diagHeadLen := 0
          status := { s.status with
            busy := false, done := true, err := .ok, diag := false, vSamp := false, vDbits := false,
            vFrames := false, vPm := false, vPack := false, pkr := false } } ∧
    ∀ i : Instr, i = .demod ∨ i = .fsync ∨ i = .pcorr ∨ i = .packf ∨ i = .packr →
      exec i t = .next { t with status := { t.status with err := .seq } }

/-! ## Errors -/

/-- 60_exceptions.md R191: a Complete step that leaves a nonzero code changes nothing but ERR, BUSY and
DONE. -/
def Obligations.CommandErrorsArePrecise : Prop :=
  ∀ s t : State, completeStep s = .next t → t.status.err ≠ .ok →
    t = { s with status := { s.status with err := t.status.err, busy := false, done := true } }

/-- 60_exceptions.md R192: the code of every Complete step, by cause, the codes' numbers, and that the
operand registers still hold their values. -/
def Obligations.ResultCodesFollowTheirCauses : Prop :=
  (errNumber .ok = 0 ∧ errNumber .illegal = 1 ∧ errNumber .seq = 2 ∧ errNumber .lenRange = 3 ∧
    errNumber .packRange = 4) ∧
  (∀ s : State, ∃ t, completeStep s = .next t ∧
    t.nLen = s.nLen ∧ t.packStart = s.packStart ∧ t.packLen = s.packLen ∧
    t.status.err =
      match decode s.cmdq with
      | .error _ => .illegal
      | .ok .nop => .ok
      | .ok .clear => .ok
      | .ok .extract => if s.params.nMaxPred.toNat + 1 < s.nLen.toNat then .lenRange else .ok
      | .ok .run => if s.params.nMaxPred.toNat + 1 < s.nLen.toNat then .lenRange else .ok
      | .ok .demod => if s.status.vSamp then .ok else .seq
      | .ok .fsync => if s.status.vDbits then .ok else .seq
      | .ok .pcorr => if s.status.vDbits then .ok else .seq
      | .ok .packf => if s.status.vFrames then .ok else .seq
      | .ok .packr =>
        if s.status.vDbits then
          if s.bitCount.toNat < s.packStart.toNat + s.packLen.toNat then .packRange else .ok
        else .seq)

/-- 60_exceptions.md R190: no command, host access or reset stops the block: every step goes on. -/
def Obligations.EveryStepGoesOn : Prop :=
  ∀ s : State, ∃ t, step s = .next t

/-! ## Host accesses -/

/-- 60_exceptions.md R196: exactly the accesses it lists are bus errors, and a bus error changes no state
of the block; the data of a read that errors is a draw. -/
def Obligations.BusErrorsChangeNothing : Prop :=
  ∀ (s : State) (sp : Space) (off n : Nat) (w : Word), s.rstN = true →
    (((n ≠ 1 ∧ n ≠ 4) ∨ (n = 1 ∧ (sp = .reg ∨ sp = .ftab ∨ sp = .pmtab)) ∨ (n = 4 ∧ off % 4 ≠ 0) ∨
        spaceSize s.params sp < off + n) →
      hostAccess s (.read sp off n) =
        { s with resp := .readError (Config.draw s.draws), draws := s.draws + 1 }) ∧
    (¬ ((n ≠ 1 ∧ n ≠ 4) ∨ (n = 1 ∧ (sp = .reg ∨ sp = .ftab ∨ sp = .pmtab)) ∨ (n = 4 ∧ off % 4 ≠ 0) ∨
        spaceSize s.params sp < off + n) →
      (∃ b, n = 1 ∧ (hostAccess s (.read sp off n)).resp = .byte b) ∨
        (∃ v, n = 4 ∧ (hostAccess s (.read sp off n)).resp = .word v)) ∧
    (((n ≠ 1 ∧ n ≠ 4) ∨ (n = 1 ∧ sp = .reg) ∨ (sp ≠ .reg ∧ sp ≠ .inp) ∨ (n = 4 ∧ off % 4 ≠ 0) ∨
        spaceSize s.params sp < off + n) →
      hostAccess s (.write sp off n w) = { s with resp := .writeError, draws := s.draws + 1 }) ∧
    (¬ ((n ≠ 1 ∧ n ≠ 4) ∨ (n = 1 ∧ sp = .reg) ∨ (sp ≠ .reg ∧ sp ≠ .inp) ∨ (n = 4 ∧ off % 4 ≠ 0) ∨
        spaceSize s.params sp < off + n) →
      (hostAccess s (.write sp off n w)).resp = .written)

/-- 20_memory.md R68: while BUSY = 1 a write that is no bus error, to anything but STATUS, only sets BWERR;
a write that is a bus error does not set it. -/
def Obligations.BusyWritesAreIgnored : Prop :=
  ∀ (s : State) (sp : Space) (off n : Nat) (w : Word), s.rstN = true → s.status.busy = true →
    ¬ (sp = .reg ∧ off = 4) →
    (accessOk s.params sp true off n = true →
      hostAccess s (.write sp off n w) =
        { s with status := { s.status with bwerr := true }, resp := .written, draws := s.draws + 1 }) ∧
    (accessOk s.params sp true off n = false →
      hostAccess s (.write sp off n w) = { s with resp := .writeError, draws := s.draws + 1 })

/-- From 20_memory.md R62: 4-byte accesses of the byte-organised spaces are little-endian; an idle write of
IN stores its four bytes, or its one, and no other. That an invalid byte of a read is its own lane of the
access's draw (log entry 3), and that a 1-byte write carries its byte in the data's low byte (log entry
10), are the model's choice. -/
def Obligations.WordsAreLittleEndian : Prop :=
  (∀ (s : State) (sp : Space) (off : Nat), s.rstN = true →
    (sp = .inp ∨ sp = .samp ∨ sp = .dbits ∨ sp = .pout) → accessOk s.params sp false off 4 = true →
      ∃ v : Word, hostAccess s (.read sp off 4) = { s with resp := .word v, draws := s.draws + 1 } ∧
        ∀ k, k < 4 → v.extractLsb' (8 * k) 8 =
          s.hostByte sp (off + k) ((Config.draw s.draws).extractLsb' (8 * k) 8)) ∧
  (∀ (s : State) (off n : Nat) (w : Word), s.rstN = true → s.status.busy = false → s.inp.wf →
    accessOk s.params .inp true off n = true →
      ∃ m : Memory,
        hostAccess s (.write .inp off n w) =
          { s with inp := m, resp := .written, draws := s.draws + 1 } ∧
        (∀ k, k < n → m.read (off + k) = some (w.extractLsb' (8 * k) 8)) ∧
        (∀ a, a < off ∨ off + n ≤ a → m.read a = s.inp.read a))

/-- 20_memory.md R67: a read changes nothing of the block: only the host's answer and the draw count. -/
def Obligations.ReadsHaveNoSideEffect : Prop :=
  ∀ (s : State) (sp : Space) (off n : Nat),
    s.sameBlock (hostAccess s (.read sp off n)) ∧
    (hostAccess s (.read sp off n)).env = s.env ∧
    (hostAccess s (.read sp off n)).draws = s.draws + 1

/-- 10_state.md R26: STATUS as an idle read returns it, and the W1C write, which changes only BWERR. -/
def Obligations.StatusReadsItsFields : Prop :=
  ∀ s : State, s.rstN = true →
    (s.status.busy = false →
      ∃ v : Word, hostAccess s (.read .reg 4 4) = { s with resp := .word v, draws := s.draws + 1 } ∧
        v.getLsbD 0 = false ∧ v.getLsbD 1 = s.status.done ∧
        (v.extractLsb' 4 4).toNat = errNumber s.status.err ∧
        v.getLsbD 8 = s.status.bwerr ∧ v.getLsbD 9 = s.status.diag ∧ v.getLsbD 16 = s.status.vSamp ∧
        v.getLsbD 17 = s.status.vDbits ∧ v.getLsbD 18 = s.status.vFrames ∧ v.getLsbD 19 = s.status.vPm ∧
        v.getLsbD 20 = s.status.vPack ∧ v.getLsbD 21 = s.status.pkr ∧
        (v.extractLsb' 2 2 = 0 ∧ v.extractLsb' 10 6 = 0 ∧ v.extractLsb' 22 10 = 0)) ∧
    (∀ w : Word,
      hostAccess s (.write .reg 4 4 w) =
        { s with status := { s.status with bwerr := s.status.bwerr && !w.getLsbD 8 },
                 resp := .written, draws := s.draws + 1 })

/-- From 10_state.md R50 and R26: what host reads return while BUSY = 1. R50 does not name STATUS's reserved
bits; that they still read 0 then is deduced from R26 (log entry 12). Which bits of the access's draw a read
takes, the low lane for a byte, is the model's choice (log entries 3 and 12). -/
def Obligations.BusyReadsAreTrueOrDrawn : Prop :=
  ∀ s : State, s.rstN = true → s.status.busy = true →
    (∃ v : Word, hostAccess s (.read .reg 4 4) = { s with resp := .word v, draws := s.draws + 1 } ∧
      v.getLsbD 0 = true ∧ v.getLsbD 1 = false ∧ v.getLsbD 8 = s.status.bwerr ∧
      v.extractLsb' 4 4 = (Config.draw s.draws).extractLsb' 4 4 ∧
      v.getLsbD 9 = (Config.draw s.draws).getLsbD 9 ∧
      v.extractLsb' 16 6 = (Config.draw s.draws).extractLsb' 16 6 ∧
      v.extractLsb' 2 2 = 0 ∧ v.extractLsb' 10 6 = 0 ∧ v.extractLsb' 22 10 = 0) ∧
    (∀ off, 0x14 ≤ off → off ≤ 0x38 → off % 4 = 0 →
      (hostAccess s (.read .reg off 4)).resp = .word (Config.draw s.draws)) ∧
    (hostAccess s (.read .reg 0x08 4)).resp = .word s.nLen ∧
    (hostAccess s (.read .reg 0x0C 4)).resp = .word s.packStart ∧
    (hostAccess s (.read .reg 0x10 4)).resp = .word s.packLen ∧
    (∀ off, off < s.params.nMaxPred.toNat + 1 →
      (hostAccess s (.read .inp off 1)).resp = .byte (s.inAt off)) ∧
    (∀ sp off, sp = .samp ∨ sp = .dbits ∨ sp = .pout → off < spaceSize s.params sp →
      (hostAccess s (.read sp off 1)).resp = .byte ((Config.draw s.draws).extractLsb' 0 8)) ∧
    (∀ sp off, sp = .ftab ∨ sp = .pmtab → off % 4 = 0 → off + 4 ≤ spaceSize s.params sp →
      (hostAccess s (.read sp off 4)).resp = .word (Config.draw s.draws))

/-- 20_memory.md R71 with 10_state.md R46: once BUSY = 0, a read of a count register, and of a buffer below
its valid count, returns what is held, and no draw. -/
def Obligations.IdleReadsReturnResults : Prop :=
  ∀ s : State, s.rstN = true → s.status.busy = false →
    ((hostAccess s (.read .reg 0x14 4)).resp = .word s.sampleCount ∧
     (hostAccess s (.read .reg 0x18 4)).resp = .word s.markerCount ∧
     (hostAccess s (.read .reg 0x1C 4)).resp = .word s.bitCount ∧
     (hostAccess s (.read .reg 0x20 4)).resp = .word s.frameCount ∧
     (hostAccess s (.read .reg 0x24 4)).resp = .word s.frameMinLen ∧
     (hostAccess s (.read .reg 0x28 4)).resp = .word s.frameMaxLen ∧
     (hostAccess s (.read .reg 0x2C 4)).resp = .word s.pmCount ∧
     (hostAccess s (.read .reg 0x30 4)).resp = .word s.packBytes ∧
     (hostAccess s (.read .reg 0x34 4)).resp = .word s.diagPrefixLen ∧
     (hostAccess s (.read .reg 0x38 4)).resp = .word s.diagHeadLen) ∧
    (∀ off, s.status.vSamp = true → off < s.sampleCount.toNat → off < spaceSize s.params .samp →
      (hostAccess s (.read .samp off 1)).resp = .byte (s.sampAt off)) ∧
    (∀ off, s.status.vDbits = true → off < s.bitCount.toNat → off < spaceSize s.params .dbits →
      (hostAccess s (.read .dbits off 1)).resp = .byte (s.dbitAt off)) ∧
    (∀ off, s.status.vPack = true → off < s.packBytes.toNat → off < spaceSize s.params .pout →
      (hostAccess s (.read .pout off 1)).resp = .byte (s.poutAt off)) ∧
    (∀ k, s.status.vFrames = true → k < s.frameCount.toNat → 16 * k + 16 ≤ spaceSize s.params .ftab →
      (hostAccess s (.read .ftab (16 * k) 4)).resp = .word (s.frameAt k).start ∧
      (hostAccess s (.read .ftab (16 * k + 4) 4)).resp = .word (s.frameAt k).stop ∧
      (hostAccess s (.read .ftab (16 * k + 8) 4)).resp = .word (s.frameAt k).poff ∧
      (hostAccess s (.read .ftab (16 * k + 12) 4)).resp = .word (s.frameAt k).pbytes) ∧
    (∀ k, s.status.vPm = true → k < s.pmCount.toNat → 16 * k + 16 ≤ spaceSize s.params .pmtab →
      (hostAccess s (.read .pmtab (16 * k) 4)).resp = .word (s.pmAt k).pos ∧
      (hostAccess s (.read .pmtab (16 * k + 4) 4)).resp = .word (s.pmAt k).obs ∧
      (hostAccess s (.read .pmtab (16 * k + 8) 4)).resp = .word (s.pmAt k).obsn ∧
      (hostAccess s (.read .pmtab (16 * k + 12) 4)).resp = .word (s.pmAt k).score)

/-- 10_state.md R37, R38, R39: the two constant registers and the reserved offsets; and that an idle write
of a read-only register is no bus error and is ignored (10_state.md R24, 20_memory.md R66). -/
def Obligations.ConstantAndReservedRegisters : Prop :=
  ∀ s : State, s.rstN = true →
    (∃ v : Word, hostAccess s (.read .reg 0x3C 4) = { s with resp := .word v, draws := s.draws + 1 } ∧
      ∀ j, j < 32 → v.getLsbD (31 - j) = syncBit s.params.sync j) ∧
    (∃ v : Word, hostAccess s (.read .reg 0x40 4) = { s with resp := .word v, draws := s.draws + 1 } ∧
      v.toNat = s.params.nMaxPred.toNat + 1) ∧
    (∀ off, 0x14 ≤ off → off ≤ 0x40 → off % 4 = 0 → s.status.busy = false → ∀ w : Word,
      hostAccess s (.write .reg off 4 w) = { s with resp := .written, draws := s.draws + 1 }) ∧
    (∀ off, 0x44 ≤ off → off ≤ 0xFC → off % 4 = 0 →
      hostAccess s (.read .reg off 4) = { s with resp := .word 0, draws := s.draws + 1 } ∧
      ∀ w : Word,
        (s.status.busy = false →
          hostAccess s (.write .reg off 4 w) = { s with resp := .written, draws := s.draws + 1 }) ∧
        (s.status.busy = true →
          hostAccess s (.write .reg off 4 w) =
            { s with status := { s.status with bwerr := true }, resp := .written, draws := s.draws + 1 }))

/-- 10_state.md R28, R29: the operand registers take every 32-bit value and read it back. -/
def Obligations.OperandRegistersReadBack : Prop :=
  ∀ (s : State) (w : Word), s.rstN = true → s.status.busy = false →
    (hostAccess s (.write .reg 0x08 4 w) = { s with nLen := w, resp := .written, draws := s.draws + 1 } ∧
      (hostAccess (hostAccess s (.write .reg 0x08 4 w)) (.read .reg 0x08 4)).resp = .word w) ∧
    (hostAccess s (.write .reg 0x0C 4 w) = { s with packStart := w, resp := .written, draws := s.draws + 1 } ∧
      (hostAccess (hostAccess s (.write .reg 0x0C 4 w)) (.read .reg 0x0C 4)).resp = .word w) ∧
    (hostAccess s (.write .reg 0x10 4 w) = { s with packLen := w, resp := .written, draws := s.draws + 1 } ∧
      (hostAccess (hostAccess s (.write .reg 0x10 4 w)) (.read .reg 0x10 4)).resp = .word w)

/-- 70_reset_and_hazards.md R217: a host write of IN or of N_LEN leaves SAMP, V_SAMP and every result as
they were. -/
def Obligations.InputWritesLeaveResults : Prop :=
  ∀ (s t : State) (off n : Nat) (w : Word),
    (t = hostAccess s (.write .inp off n w) ∨ t = hostAccess s (.write .reg 0x08 4 w)) →
      t = { s with inp := t.inp, nLen := t.nLen, status := { s.status with bwerr := t.status.bwerr },
                   resp := t.resp, draws := t.draws } ∧
      t.samples = s.samples ∧ t.decodedBits = s.decodedBits ∧ t.frames = s.frames ∧
      t.partials = s.partials ∧ t.packed = s.packed

/-- 20_memory.md R76: under a placement without overlap, bus address `BASE_X + off` is offset `off` of
space X, and a read or a write at an address in no space is not the block's (the answer to one, and that a
space of size 0 overlaps none, are the model's choice, log entry 9). -/
def Obligations.BusAddressesSelectSpaces : Prop :=
  ∀ s : State, placementOk s.params = true →
    (∀ (sp : Space) (off n : Nat) (w : Word), off < spaceSize s.params sp →
      busAccess s (.read (spaceBase s.params sp + off) n) = hostAccess s (.read sp off n) ∧
      busAccess s (.write (spaceBase s.params sp + off) n w) = hostAccess s (.write sp off n w)) ∧
    (∀ (addr n : Nat) (w : Word), (∀ sp, ¬ (spaceBase s.params sp ≤ addr ∧
        addr < spaceBase s.params sp + spaceSize s.params sp)) →
      busAccess s (.read addr n) = { s with resp := .noAnswer, draws := s.draws + 1 } ∧
      busAccess s (.write addr n w) = { s with resp := .noAnswer, draws := s.draws + 1 })

/-! ## Reset and idling -/

/-- 10_state.md R49, 70_reset_and_hazards.md R211: the values the spec gives for reset. The value of CMDQ,
which it leaves unspecified, is not part of the statement (log entry 1). -/
def Obligations.ResetValues : Prop :=
  State.reset.status.toWord = 0 ∧ State.reset.nLen = 0 ∧ State.reset.packStart = 0 ∧
  State.reset.packLen = 0 ∧ State.reset.sampleCount = 0 ∧ State.reset.markerCount = 0 ∧
  State.reset.bitCount = 0 ∧ State.reset.frameCount = 0 ∧ State.reset.frameMinLen = 0 ∧
  State.reset.frameMaxLen = 0 ∧ State.reset.pmCount = 0 ∧ State.reset.packBytes = 0 ∧
  State.reset.diagPrefixLen = 0 ∧ State.reset.diagHeadLen = 0 ∧ State.reset.rstN = true ∧
  State.reset.params.sync = Config.sync ∧ State.reset.params.nMaxPred = Config.nMaxPred ∧
  (∀ a, State.reset.inAt a = Config.powerOnByte 0 .inp a)

/-- 70_reset_and_hazards.md R211, R212: `rst_n` going to 0 abandons whatever ran and leaves the reset
state; while it is 0 no access is answered and the sequencer does nothing; at 1 the state is that of
reset. The 0 in CMDQ and the counts of draws and of reset edges are the model's choice (log entries 1, 3
and 8). -/
def Obligations.ResetAbandonsCommand : Prop :=
  ∀ (s : State) (rest : List Event), s.env = .rst false :: rest →
    ∃ t, step s = .next t ∧
      t = { State.reset with
            env := rest, draws := s.draws, epoch := s.epoch + 1, rstN := false, params := s.params } ∧
      (∀ a, hostAccess t a = { t with resp := .noAnswer, draws := t.draws + 1 }) ∧
      sequencerTurn t = .next t ∧
      (∀ rest', rest = .rst true :: rest' →
        step t = .next { State.reset with
          env := rest', draws := s.draws, epoch := s.epoch + 2, rstN := true, params := s.params })

/-- 60_exceptions.md R201 and 70_reset_and_hazards.md R219: with no event left, an idle block keeps every
register, and a busy block completes in the next step, with BUSY = 0 and DONE = 1. That the schedule's end
gives the sequencer its turn at once is the model's choice (log entry 7). -/
def Obligations.IdleKeepsStateAndBusyCompletes : Prop :=
  ∀ s : State, s.env = [] →
    (s.status.busy = false → step s = .next s) ∧
    (s.rstN = true → s.status.busy = true →
      ∃ t, step s = .next t ∧ t.status.busy = false ∧ t.status.done = true ∧ t.cmdq = s.cmdq ∧
        t.status.bwerr = s.status.bwerr ∧ t.inp = s.inp)

/-! ## Invariants -/

/-- 10_state.md R37, R38 (00_scope.md R5): SYNC_PATTERN and CAP_NMAX are constants: no step changes a
build-time parameter. -/
def Obligations.StepKeepsConstants : Prop :=
  ∀ s t : State, step s = .next t → t.params = s.params

/-- The byte memories keep their canonical form, the model's own (log entry 4). -/
def Obligations.StepKeepsMemoriesCanonical : Prop :=
  ∀ s t : State, s.MemoriesWf → step s = .next t → t.MemoriesWf

/-- 10_state.md R21, R27, R48: the handshake bits and the valid bits stay consistent. -/
def Obligations.StepKeepsHandshake : Prop :=
  ∀ s t : State, s.HandshakeInv → step s = .next t → t.HandshakeInv

/-- 10_state.md R27: every valid bit keeps its promise. -/
def Obligations.StepKeepsStagePromises : Prop :=
  ∀ s t : State, s.StageInv → step s = .next t → t.StageInv

/-- 00_scope.md R7, 10_state.md R32: no command overflows a buffer. -/
def Obligations.StepKeepsCapacities : Prop :=
  ∀ s t : State, s.StageInv → s.CapacityInv → step s = .next t → t.CapacityInv

/-- The four invariants hold right after reset (10_state.md R49). -/
def Obligations.ResetStateIsSound : Prop := State.reset.Sound
end

