-- ==== Sys2Proof/Laws/Memory.lean ====
section
/-! SUPPORT. Byte memory: a read after a write, the canonical form, and what an overlay leaves. -/

namespace Sys2Proof.Machine

theorem Memory.read_nil (x : Nat) : Memory.read [] x = none := rfl

theorem Memory.read_cons (a : Nat) (b : Byte) (m : Memory) (x : Nat) :
    Memory.read ((a, b) :: m) x = if a = x then some b else m.read x := rfl

/-- A write gives the value written where it wrote, and leaves every other offset alone. -/
theorem Memory.read_write (m : Memory) (h : m.wf) (x y : Nat) (v : Byte) :
    (m.write x v).read y = if x = y then some v else m.read y := by
  induction m with
  | nil => simp [Memory.write, Memory.read]
  | cons c rest ih =>
    obtain ⟨a, b⟩ := c
    have hr : Memory.wf rest := (List.pairwise_cons.mp h).2
    simp only [Memory.write]
    split
    · simp [Memory.read]
    · split
      · rename_i _ hxa
        subst hxa
        simp only [Memory.read]
        split <;> rfl
      · rename_i _ hne
        simp only [Memory.read, ih hr]
        by_cases hay : a = y
        · subst hay; simp [hne]
        · simp [hay]

theorem Memory.mem_write {m : Memory} {x : Nat} {v : Byte} {c : Host.Cell} (h : c ∈ m.write x v) :
    c = (x, v) ∨ c ∈ m := by
  induction m with
  | nil => simpa [Memory.write] using h
  | cons d rest ih =>
    obtain ⟨a, b⟩ := d
    simp only [Memory.write] at h
    split at h
    · simpa using h
    · split at h
      · rcases List.mem_cons.mp h with h | h
        · exact .inl h
        · exact .inr (List.mem_cons_of_mem _ h)
      · rcases List.mem_cons.mp h with h | h
        · exact .inr (by simp [h])
        · exact (ih h).imp id (List.mem_cons_of_mem _)

/-- A write keeps the canonical form. -/
theorem Memory.write_wf {m : Memory} (h : m.wf) (x : Nat) (v : Byte) : (m.write x v).wf := by
  induction m with
  | nil => simp [Memory.write, Memory.wf]
  | cons d rest ih =>
    obtain ⟨a, b⟩ := d
    obtain ⟨h1, h2⟩ := List.pairwise_cons.mp h
    simp only [Memory.write]
    split
    · rename_i hxa
      refine List.pairwise_cons.mpr ⟨fun c hc => ?_, h⟩
      rcases List.mem_cons.mp hc with rfl | hc
      · exact hxa
      · exact Nat.lt_trans hxa (h1 c hc)
    · split
      · rename_i _ hxa
        subst hxa
        exact List.pairwise_cons.mpr ⟨h1, h2⟩
      · refine List.pairwise_cons.mpr ⟨fun c hc => ?_, ih h2⟩
        rcases Memory.mem_write hc with rfl | hc
        · simp only; omega
        · exact h1 c hc

theorem Memory.mem_cells {k : Nat} {bs : List Byte} {c : Host.Cell} (h : c ∈ Memory.cells k bs) :
    k ≤ c.1 ∧ c.1 < k + bs.length := by
  induction bs generalizing k with
  | nil => simp [Memory.cells] at h
  | cons b rest ih =>
    simp only [Memory.cells, List.mem_cons] at h
    rcases h with rfl | h
    · simp
    · have := ih h
      simp only [List.length_cons]
      omega

theorem Memory.cells_wf (k : Nat) (bs : List Byte) : (Memory.cells k bs).wf := by
  induction bs generalizing k with
  | nil => simp [Memory.cells, Memory.wf]
  | cons b rest ih =>
    refine List.pairwise_cons.mpr ⟨fun c hc => ?_, ih (k + 1)⟩
    have := Memory.mem_cells hc
    simp only
    omega

/-- An overlay keeps the canonical form. -/
theorem Memory.overlay_wf {m : Memory} (h : m.wf) (bs : List Byte) : (m.overlay bs).wf := by
  refine List.pairwise_append.mpr ⟨Memory.cells_wf 0 bs, h.filter _, fun c hc d hd => ?_⟩
  have h1 := Memory.mem_cells hc
  have h2 := (List.mem_filter.mp hd).2
  simp only [decide_eq_true_eq] at h2
  omega

theorem Memory.mem_overlay {m : Memory} {bs : List Byte} {c : Host.Cell} (h : c ∈ m.overlay bs) :
    c.1 < bs.length ∨ c ∈ m := by
  rcases List.mem_append.mp h with h | h
  · exact .inl (by have := Memory.mem_cells h; omega)
  · exact .inr (List.mem_filter.mp h).1

theorem Memory.read_append_of_none {m₁ m₂ : Memory} {x : Nat} (h : Memory.read m₁ x = none) :
    Memory.read (m₁ ++ m₂) x = m₂.read x := by
  induction m₁ with
  | nil => rfl
  | cons c rest ih =>
    obtain ⟨a, b⟩ := c
    simp only [Memory.read, List.cons_append] at h ⊢
    split at h
    · cases h
    · rename_i hne
      simp [hne, ih h]

theorem Memory.read_append_of_some {m₁ m₂ : Memory} {x : Nat} {v : Byte} (h : Memory.read m₁ x = some v) :
    Memory.read (m₁ ++ m₂) x = some v := by
  induction m₁ with
  | nil => cases h
  | cons c rest ih =>
    obtain ⟨a, b⟩ := c
    simp only [Memory.read, List.cons_append] at h ⊢
    split at h
    · rename_i ha
      simpa [ha] using h
    · rename_i hne
      simpa [hne] using ih h

theorem Memory.read_cells (k : Nat) (bs : List Byte) (x : Nat) :
    (Memory.cells k bs).read x = if k ≤ x then bs[x - k]? else none := by
  induction bs generalizing k with
  | nil => simp [Memory.cells, Memory.read]
  | cons b rest ih =>
    simp only [Memory.cells, Memory.read, ih]
    by_cases hk : k = x
    · subst hk; simp
    · by_cases hx : k ≤ x
      · have h1 : k + 1 ≤ x := by omega
        have h2 : x - k = (x - (k + 1)) + 1 := by omega
        rw [h2, List.getElem?_cons_succ]
        simp [hk, hx, h1]
      · have h1 : ¬ k + 1 ≤ x := by omega
        simp [hk, hx, h1]

theorem Memory.read_filter (m : Memory) (n x : Nat) (h : n ≤ x) :
    Memory.read (m.filter fun c => decide (n ≤ c.1)) x = m.read x := by
  induction m with
  | nil => rfl
  | cons c rest ih =>
    obtain ⟨a, b⟩ := c
    by_cases ha : n ≤ a
    · simp [ha, Memory.read, ih]
    · have hne : ¬ a = x := by omega
      simp [ha, Memory.read, hne, ih]

/-- Inside the overlaid range an overlay reads what it wrote. -/
theorem Memory.read_overlay_lt (m : Memory) (bs : List Byte) (x : Nat) (h : x < bs.length) :
    (m.overlay bs).read x = some bs[x] :=
  Memory.read_append_of_some (by simp [Memory.read_cells, h])

/-- Beyond the overlaid range an overlay leaves every offset as it was (20_memory.md R74). -/
theorem Memory.read_overlay_ge (m : Memory) (bs : List Byte) (x : Nat) (h : bs.length ≤ x) :
    (m.overlay bs).read x = m.read x := by
  rw [Memory.overlay, Memory.read_append_of_none (by simp [Memory.read_cells, h]), Memory.read_filter m _ _ h]

theorem bufByte_overlay_lt (ep : Nat) (sp : Space) (m : Memory) (bs : List Byte) (x : Nat) (h : x < bs.length) :
    bufByte ep sp (m.overlay bs) x = bs[x] := by
  simp [bufByte, Memory.read_overlay_lt m bs x h]

theorem bufByte_overlay_ge (ep : Nat) (sp : Space) (m : Memory) (bs : List Byte) (x : Nat) (h : bs.length ≤ x) :
    bufByte ep sp (m.overlay bs) x = bufByte ep sp m x := by
  simp [bufByte, Memory.read_overlay_ge m bs x h]

/-- Reading back the range an overlay wrote gives the bytes written. -/
theorem map_bufByte_overlay (ep : Nat) (sp : Space) (m : Memory) (bs : List Byte) :
    (List.range bs.length).map (bufByte ep sp (m.overlay bs)) = bs := by
  refine List.ext_getElem (by simp) fun i h1 h2 => ?_
  simp [bufByte_overlay_lt ep sp m bs i (by simpa using h2)]

theorem tableOverlay_getElem?_lt {α : Type} (es old : List α) (k : Nat) (h : k < es.length) :
    (tableOverlay es old)[k]? = some es[k] := by
  rw [tableOverlay, List.getElem?_append_left h, List.getElem?_eq_getElem h]

theorem tableOverlay_getElem?_ge {α : Type} (es old : List α) (k : Nat) (h : es.length ≤ k) :
    (tableOverlay es old)[k]? = old[k]? := by
  rw [tableOverlay, List.getElem?_append_right h, List.getElem?_drop]
  congr 1
  omega

theorem tableOverlay_length {α : Type} (es old : List α) :
    (tableOverlay es old).length = max es.length old.length := by
  simp only [tableOverlay, List.length_append, List.length_drop]
  omega

theorem toWord_toNat (n : Nat) (h : n < 2 ^ 32) : (toWord n).toNat = n := by
  simpa [toWord] using h

@[simp] theorem toWord_toNat_self (w : Word) : toWord w.toNat = w := by
  simp [toWord]

end Sys2Proof.Machine
end

