-- ==== Sys2Proof/Laws/State.lean ====
section
/-! SUPPORT. For every named update of State, one lemma per field, true by rfl, so that no proof unfolds a
record update. -/

namespace Sys2Proof.Machine

/-! ## `State.setEnv` -/

@[simp] theorem State.setEnv_env (s : State) (e : List Event) :
    (s.setEnv e).env = e := rfl
@[simp] theorem State.setEnv_resp (s : State) (e : List Event) :
    (s.setEnv e).resp = s.resp := rfl
@[simp] theorem State.setEnv_draws (s : State) (e : List Event) :
    (s.setEnv e).draws = s.draws := rfl
@[simp] theorem State.setEnv_epoch (s : State) (e : List Event) :
    (s.setEnv e).epoch = s.epoch := rfl
@[simp] theorem State.setEnv_rstN (s : State) (e : List Event) :
    (s.setEnv e).rstN = s.rstN := rfl
@[simp] theorem State.setEnv_params (s : State) (e : List Event) :
    (s.setEnv e).params = s.params := rfl
@[simp] theorem State.setEnv_cmdq (s : State) (e : List Event) :
    (s.setEnv e).cmdq = s.cmdq := rfl
@[simp] theorem State.setEnv_status (s : State) (e : List Event) :
    (s.setEnv e).status = s.status := rfl
@[simp] theorem State.setEnv_nLen (s : State) (e : List Event) :
    (s.setEnv e).nLen = s.nLen := rfl
@[simp] theorem State.setEnv_packStart (s : State) (e : List Event) :
    (s.setEnv e).packStart = s.packStart := rfl
@[simp] theorem State.setEnv_packLen (s : State) (e : List Event) :
    (s.setEnv e).packLen = s.packLen := rfl
@[simp] theorem State.setEnv_sampleCount (s : State) (e : List Event) :
    (s.setEnv e).sampleCount = s.sampleCount := rfl
@[simp] theorem State.setEnv_markerCount (s : State) (e : List Event) :
    (s.setEnv e).markerCount = s.markerCount := rfl
@[simp] theorem State.setEnv_bitCount (s : State) (e : List Event) :
    (s.setEnv e).bitCount = s.bitCount := rfl
@[simp] theorem State.setEnv_frameCount (s : State) (e : List Event) :
    (s.setEnv e).frameCount = s.frameCount := rfl
@[simp] theorem State.setEnv_frameMinLen (s : State) (e : List Event) :
    (s.setEnv e).frameMinLen = s.frameMinLen := rfl
@[simp] theorem State.setEnv_frameMaxLen (s : State) (e : List Event) :
    (s.setEnv e).frameMaxLen = s.frameMaxLen := rfl
@[simp] theorem State.setEnv_pmCount (s : State) (e : List Event) :
    (s.setEnv e).pmCount = s.pmCount := rfl
@[simp] theorem State.setEnv_packBytes (s : State) (e : List Event) :
    (s.setEnv e).packBytes = s.packBytes := rfl
@[simp] theorem State.setEnv_diagPrefixLen (s : State) (e : List Event) :
    (s.setEnv e).diagPrefixLen = s.diagPrefixLen := rfl
@[simp] theorem State.setEnv_diagHeadLen (s : State) (e : List Event) :
    (s.setEnv e).diagHeadLen = s.diagHeadLen := rfl
@[simp] theorem State.setEnv_inp (s : State) (e : List Event) :
    (s.setEnv e).inp = s.inp := rfl
@[simp] theorem State.setEnv_samp (s : State) (e : List Event) :
    (s.setEnv e).samp = s.samp := rfl
@[simp] theorem State.setEnv_dbits (s : State) (e : List Event) :
    (s.setEnv e).dbits = s.dbits := rfl
@[simp] theorem State.setEnv_ftab (s : State) (e : List Event) :
    (s.setEnv e).ftab = s.ftab := rfl
@[simp] theorem State.setEnv_pmtab (s : State) (e : List Event) :
    (s.setEnv e).pmtab = s.pmtab := rfl
@[simp] theorem State.setEnv_pout (s : State) (e : List Event) :
    (s.setEnv e).pout = s.pout := rfl

/-! ## `State.answer` -/

@[simp] theorem State.answer_env (s : State) (r : BusResp) :
    (s.answer r).env = s.env := rfl
@[simp] theorem State.answer_resp (s : State) (r : BusResp) :
    (s.answer r).resp = r := rfl
@[simp] theorem State.answer_draws (s : State) (r : BusResp) :
    (s.answer r).draws = s.draws + 1 := rfl
@[simp] theorem State.answer_epoch (s : State) (r : BusResp) :
    (s.answer r).epoch = s.epoch := rfl
@[simp] theorem State.answer_rstN (s : State) (r : BusResp) :
    (s.answer r).rstN = s.rstN := rfl
@[simp] theorem State.answer_params (s : State) (r : BusResp) :
    (s.answer r).params = s.params := rfl
@[simp] theorem State.answer_cmdq (s : State) (r : BusResp) :
    (s.answer r).cmdq = s.cmdq := rfl
@[simp] theorem State.answer_status (s : State) (r : BusResp) :
    (s.answer r).status = s.status := rfl
@[simp] theorem State.answer_nLen (s : State) (r : BusResp) :
    (s.answer r).nLen = s.nLen := rfl
@[simp] theorem State.answer_packStart (s : State) (r : BusResp) :
    (s.answer r).packStart = s.packStart := rfl
@[simp] theorem State.answer_packLen (s : State) (r : BusResp) :
    (s.answer r).packLen = s.packLen := rfl
@[simp] theorem State.answer_sampleCount (s : State) (r : BusResp) :
    (s.answer r).sampleCount = s.sampleCount := rfl
@[simp] theorem State.answer_markerCount (s : State) (r : BusResp) :
    (s.answer r).markerCount = s.markerCount := rfl
@[simp] theorem State.answer_bitCount (s : State) (r : BusResp) :
    (s.answer r).bitCount = s.bitCount := rfl
@[simp] theorem State.answer_frameCount (s : State) (r : BusResp) :
    (s.answer r).frameCount = s.frameCount := rfl
@[simp] theorem State.answer_frameMinLen (s : State) (r : BusResp) :
    (s.answer r).frameMinLen = s.frameMinLen := rfl
@[simp] theorem State.answer_frameMaxLen (s : State) (r : BusResp) :
    (s.answer r).frameMaxLen = s.frameMaxLen := rfl
@[simp] theorem State.answer_pmCount (s : State) (r : BusResp) :
    (s.answer r).pmCount = s.pmCount := rfl
@[simp] theorem State.answer_packBytes (s : State) (r : BusResp) :
    (s.answer r).packBytes = s.packBytes := rfl
@[simp] theorem State.answer_diagPrefixLen (s : State) (r : BusResp) :
    (s.answer r).diagPrefixLen = s.diagPrefixLen := rfl
@[simp] theorem State.answer_diagHeadLen (s : State) (r : BusResp) :
    (s.answer r).diagHeadLen = s.diagHeadLen := rfl
@[simp] theorem State.answer_inp (s : State) (r : BusResp) :
    (s.answer r).inp = s.inp := rfl
@[simp] theorem State.answer_samp (s : State) (r : BusResp) :
    (s.answer r).samp = s.samp := rfl
@[simp] theorem State.answer_dbits (s : State) (r : BusResp) :
    (s.answer r).dbits = s.dbits := rfl
@[simp] theorem State.answer_ftab (s : State) (r : BusResp) :
    (s.answer r).ftab = s.ftab := rfl
@[simp] theorem State.answer_pmtab (s : State) (r : BusResp) :
    (s.answer r).pmtab = s.pmtab := rfl
@[simp] theorem State.answer_pout (s : State) (r : BusResp) :
    (s.answer r).pout = s.pout := rfl

/-! ## `State.accept` -/

@[simp] theorem State.accept_env (s : State) (w : Word) :
    (s.accept w).env = s.env := rfl
@[simp] theorem State.accept_resp (s : State) (w : Word) :
    (s.accept w).resp = s.resp := rfl
@[simp] theorem State.accept_draws (s : State) (w : Word) :
    (s.accept w).draws = s.draws := rfl
@[simp] theorem State.accept_epoch (s : State) (w : Word) :
    (s.accept w).epoch = s.epoch := rfl
@[simp] theorem State.accept_rstN (s : State) (w : Word) :
    (s.accept w).rstN = s.rstN := rfl
@[simp] theorem State.accept_params (s : State) (w : Word) :
    (s.accept w).params = s.params := rfl
@[simp] theorem State.accept_cmdq (s : State) (w : Word) :
    (s.accept w).cmdq = w := rfl
@[simp] theorem State.accept_status (s : State) (w : Word) :
    (s.accept w).status = ({ s.status with busy := true, done := false } : Status) := rfl
@[simp] theorem State.accept_nLen (s : State) (w : Word) :
    (s.accept w).nLen = s.nLen := rfl
@[simp] theorem State.accept_packStart (s : State) (w : Word) :
    (s.accept w).packStart = s.packStart := rfl
@[simp] theorem State.accept_packLen (s : State) (w : Word) :
    (s.accept w).packLen = s.packLen := rfl
@[simp] theorem State.accept_sampleCount (s : State) (w : Word) :
    (s.accept w).sampleCount = s.sampleCount := rfl
@[simp] theorem State.accept_markerCount (s : State) (w : Word) :
    (s.accept w).markerCount = s.markerCount := rfl
@[simp] theorem State.accept_bitCount (s : State) (w : Word) :
    (s.accept w).bitCount = s.bitCount := rfl
@[simp] theorem State.accept_frameCount (s : State) (w : Word) :
    (s.accept w).frameCount = s.frameCount := rfl
@[simp] theorem State.accept_frameMinLen (s : State) (w : Word) :
    (s.accept w).frameMinLen = s.frameMinLen := rfl
@[simp] theorem State.accept_frameMaxLen (s : State) (w : Word) :
    (s.accept w).frameMaxLen = s.frameMaxLen := rfl
@[simp] theorem State.accept_pmCount (s : State) (w : Word) :
    (s.accept w).pmCount = s.pmCount := rfl
@[simp] theorem State.accept_packBytes (s : State) (w : Word) :
    (s.accept w).packBytes = s.packBytes := rfl
@[simp] theorem State.accept_diagPrefixLen (s : State) (w : Word) :
    (s.accept w).diagPrefixLen = s.diagPrefixLen := rfl
@[simp] theorem State.accept_diagHeadLen (s : State) (w : Word) :
    (s.accept w).diagHeadLen = s.diagHeadLen := rfl
@[simp] theorem State.accept_inp (s : State) (w : Word) :
    (s.accept w).inp = s.inp := rfl
@[simp] theorem State.accept_samp (s : State) (w : Word) :
    (s.accept w).samp = s.samp := rfl
@[simp] theorem State.accept_dbits (s : State) (w : Word) :
    (s.accept w).dbits = s.dbits := rfl
@[simp] theorem State.accept_ftab (s : State) (w : Word) :
    (s.accept w).ftab = s.ftab := rfl
@[simp] theorem State.accept_pmtab (s : State) (w : Word) :
    (s.accept w).pmtab = s.pmtab := rfl
@[simp] theorem State.accept_pout (s : State) (w : Word) :
    (s.accept w).pout = s.pout := rfl

/-! ## `State.complete` -/

@[simp] theorem State.complete_env (s : State) (c : ErrCode) :
    (s.complete c).env = s.env := rfl
@[simp] theorem State.complete_resp (s : State) (c : ErrCode) :
    (s.complete c).resp = s.resp := rfl
@[simp] theorem State.complete_draws (s : State) (c : ErrCode) :
    (s.complete c).draws = s.draws := rfl
@[simp] theorem State.complete_epoch (s : State) (c : ErrCode) :
    (s.complete c).epoch = s.epoch := rfl
@[simp] theorem State.complete_rstN (s : State) (c : ErrCode) :
    (s.complete c).rstN = s.rstN := rfl
@[simp] theorem State.complete_params (s : State) (c : ErrCode) :
    (s.complete c).params = s.params := rfl
@[simp] theorem State.complete_cmdq (s : State) (c : ErrCode) :
    (s.complete c).cmdq = s.cmdq := rfl
@[simp] theorem State.complete_status (s : State) (c : ErrCode) :
    (s.complete c).status = ({ s.status with err := c, busy := false, done := true } : Status) := rfl
@[simp] theorem State.complete_nLen (s : State) (c : ErrCode) :
    (s.complete c).nLen = s.nLen := rfl
@[simp] theorem State.complete_packStart (s : State) (c : ErrCode) :
    (s.complete c).packStart = s.packStart := rfl
@[simp] theorem State.complete_packLen (s : State) (c : ErrCode) :
    (s.complete c).packLen = s.packLen := rfl
@[simp] theorem State.complete_sampleCount (s : State) (c : ErrCode) :
    (s.complete c).sampleCount = s.sampleCount := rfl
@[simp] theorem State.complete_markerCount (s : State) (c : ErrCode) :
    (s.complete c).markerCount = s.markerCount := rfl
@[simp] theorem State.complete_bitCount (s : State) (c : ErrCode) :
    (s.complete c).bitCount = s.bitCount := rfl
@[simp] theorem State.complete_frameCount (s : State) (c : ErrCode) :
    (s.complete c).frameCount = s.frameCount := rfl
@[simp] theorem State.complete_frameMinLen (s : State) (c : ErrCode) :
    (s.complete c).frameMinLen = s.frameMinLen := rfl
@[simp] theorem State.complete_frameMaxLen (s : State) (c : ErrCode) :
    (s.complete c).frameMaxLen = s.frameMaxLen := rfl
@[simp] theorem State.complete_pmCount (s : State) (c : ErrCode) :
    (s.complete c).pmCount = s.pmCount := rfl
@[simp] theorem State.complete_packBytes (s : State) (c : ErrCode) :
    (s.complete c).packBytes = s.packBytes := rfl
@[simp] theorem State.complete_diagPrefixLen (s : State) (c : ErrCode) :
    (s.complete c).diagPrefixLen = s.diagPrefixLen := rfl
@[simp] theorem State.complete_diagHeadLen (s : State) (c : ErrCode) :
    (s.complete c).diagHeadLen = s.diagHeadLen := rfl
@[simp] theorem State.complete_inp (s : State) (c : ErrCode) :
    (s.complete c).inp = s.inp := rfl
@[simp] theorem State.complete_samp (s : State) (c : ErrCode) :
    (s.complete c).samp = s.samp := rfl
@[simp] theorem State.complete_dbits (s : State) (c : ErrCode) :
    (s.complete c).dbits = s.dbits := rfl
@[simp] theorem State.complete_ftab (s : State) (c : ErrCode) :
    (s.complete c).ftab = s.ftab := rfl
@[simp] theorem State.complete_pmtab (s : State) (c : ErrCode) :
    (s.complete c).pmtab = s.pmtab := rfl
@[simp] theorem State.complete_pout (s : State) (c : ErrCode) :
    (s.complete c).pout = s.pout := rfl

/-! ## `State.setBwerr` -/

@[simp] theorem State.setBwerr_env (s : State) (b : Bool) :
    (s.setBwerr b).env = s.env := rfl
@[simp] theorem State.setBwerr_resp (s : State) (b : Bool) :
    (s.setBwerr b).resp = s.resp := rfl
@[simp] theorem State.setBwerr_draws (s : State) (b : Bool) :
    (s.setBwerr b).draws = s.draws := rfl
@[simp] theorem State.setBwerr_epoch (s : State) (b : Bool) :
    (s.setBwerr b).epoch = s.epoch := rfl
@[simp] theorem State.setBwerr_rstN (s : State) (b : Bool) :
    (s.setBwerr b).rstN = s.rstN := rfl
@[simp] theorem State.setBwerr_params (s : State) (b : Bool) :
    (s.setBwerr b).params = s.params := rfl
@[simp] theorem State.setBwerr_cmdq (s : State) (b : Bool) :
    (s.setBwerr b).cmdq = s.cmdq := rfl
@[simp] theorem State.setBwerr_status (s : State) (b : Bool) :
    (s.setBwerr b).status = ({ s.status with bwerr := b } : Status) := rfl
@[simp] theorem State.setBwerr_nLen (s : State) (b : Bool) :
    (s.setBwerr b).nLen = s.nLen := rfl
@[simp] theorem State.setBwerr_packStart (s : State) (b : Bool) :
    (s.setBwerr b).packStart = s.packStart := rfl
@[simp] theorem State.setBwerr_packLen (s : State) (b : Bool) :
    (s.setBwerr b).packLen = s.packLen := rfl
@[simp] theorem State.setBwerr_sampleCount (s : State) (b : Bool) :
    (s.setBwerr b).sampleCount = s.sampleCount := rfl
@[simp] theorem State.setBwerr_markerCount (s : State) (b : Bool) :
    (s.setBwerr b).markerCount = s.markerCount := rfl
@[simp] theorem State.setBwerr_bitCount (s : State) (b : Bool) :
    (s.setBwerr b).bitCount = s.bitCount := rfl
@[simp] theorem State.setBwerr_frameCount (s : State) (b : Bool) :
    (s.setBwerr b).frameCount = s.frameCount := rfl
@[simp] theorem State.setBwerr_frameMinLen (s : State) (b : Bool) :
    (s.setBwerr b).frameMinLen = s.frameMinLen := rfl
@[simp] theorem State.setBwerr_frameMaxLen (s : State) (b : Bool) :
    (s.setBwerr b).frameMaxLen = s.frameMaxLen := rfl
@[simp] theorem State.setBwerr_pmCount (s : State) (b : Bool) :
    (s.setBwerr b).pmCount = s.pmCount := rfl
@[simp] theorem State.setBwerr_packBytes (s : State) (b : Bool) :
    (s.setBwerr b).packBytes = s.packBytes := rfl
@[simp] theorem State.setBwerr_diagPrefixLen (s : State) (b : Bool) :
    (s.setBwerr b).diagPrefixLen = s.diagPrefixLen := rfl
@[simp] theorem State.setBwerr_diagHeadLen (s : State) (b : Bool) :
    (s.setBwerr b).diagHeadLen = s.diagHeadLen := rfl
@[simp] theorem State.setBwerr_inp (s : State) (b : Bool) :
    (s.setBwerr b).inp = s.inp := rfl
@[simp] theorem State.setBwerr_samp (s : State) (b : Bool) :
    (s.setBwerr b).samp = s.samp := rfl
@[simp] theorem State.setBwerr_dbits (s : State) (b : Bool) :
    (s.setBwerr b).dbits = s.dbits := rfl
@[simp] theorem State.setBwerr_ftab (s : State) (b : Bool) :
    (s.setBwerr b).ftab = s.ftab := rfl
@[simp] theorem State.setBwerr_pmtab (s : State) (b : Bool) :
    (s.setBwerr b).pmtab = s.pmtab := rfl
@[simp] theorem State.setBwerr_pout (s : State) (b : Bool) :
    (s.setBwerr b).pout = s.pout := rfl

/-! ## `State.setNLen` -/

@[simp] theorem State.setNLen_env (s : State) (w : Word) :
    (s.setNLen w).env = s.env := rfl
@[simp] theorem State.setNLen_resp (s : State) (w : Word) :
    (s.setNLen w).resp = s.resp := rfl
@[simp] theorem State.setNLen_draws (s : State) (w : Word) :
    (s.setNLen w).draws = s.draws := rfl
@[simp] theorem State.setNLen_epoch (s : State) (w : Word) :
    (s.setNLen w).epoch = s.epoch := rfl
@[simp] theorem State.setNLen_rstN (s : State) (w : Word) :
    (s.setNLen w).rstN = s.rstN := rfl
@[simp] theorem State.setNLen_params (s : State) (w : Word) :
    (s.setNLen w).params = s.params := rfl
@[simp] theorem State.setNLen_cmdq (s : State) (w : Word) :
    (s.setNLen w).cmdq = s.cmdq := rfl
@[simp] theorem State.setNLen_status (s : State) (w : Word) :
    (s.setNLen w).status = s.status := rfl
@[simp] theorem State.setNLen_nLen (s : State) (w : Word) :
    (s.setNLen w).nLen = w := rfl
@[simp] theorem State.setNLen_packStart (s : State) (w : Word) :
    (s.setNLen w).packStart = s.packStart := rfl
@[simp] theorem State.setNLen_packLen (s : State) (w : Word) :
    (s.setNLen w).packLen = s.packLen := rfl
@[simp] theorem State.setNLen_sampleCount (s : State) (w : Word) :
    (s.setNLen w).sampleCount = s.sampleCount := rfl
@[simp] theorem State.setNLen_markerCount (s : State) (w : Word) :
    (s.setNLen w).markerCount = s.markerCount := rfl
@[simp] theorem State.setNLen_bitCount (s : State) (w : Word) :
    (s.setNLen w).bitCount = s.bitCount := rfl
@[simp] theorem State.setNLen_frameCount (s : State) (w : Word) :
    (s.setNLen w).frameCount = s.frameCount := rfl
@[simp] theorem State.setNLen_frameMinLen (s : State) (w : Word) :
    (s.setNLen w).frameMinLen = s.frameMinLen := rfl
@[simp] theorem State.setNLen_frameMaxLen (s : State) (w : Word) :
    (s.setNLen w).frameMaxLen = s.frameMaxLen := rfl
@[simp] theorem State.setNLen_pmCount (s : State) (w : Word) :
    (s.setNLen w).pmCount = s.pmCount := rfl
@[simp] theorem State.setNLen_packBytes (s : State) (w : Word) :
    (s.setNLen w).packBytes = s.packBytes := rfl
@[simp] theorem State.setNLen_diagPrefixLen (s : State) (w : Word) :
    (s.setNLen w).diagPrefixLen = s.diagPrefixLen := rfl
@[simp] theorem State.setNLen_diagHeadLen (s : State) (w : Word) :
    (s.setNLen w).diagHeadLen = s.diagHeadLen := rfl
@[simp] theorem State.setNLen_inp (s : State) (w : Word) :
    (s.setNLen w).inp = s.inp := rfl
@[simp] theorem State.setNLen_samp (s : State) (w : Word) :
    (s.setNLen w).samp = s.samp := rfl
@[simp] theorem State.setNLen_dbits (s : State) (w : Word) :
    (s.setNLen w).dbits = s.dbits := rfl
@[simp] theorem State.setNLen_ftab (s : State) (w : Word) :
    (s.setNLen w).ftab = s.ftab := rfl
@[simp] theorem State.setNLen_pmtab (s : State) (w : Word) :
    (s.setNLen w).pmtab = s.pmtab := rfl
@[simp] theorem State.setNLen_pout (s : State) (w : Word) :
    (s.setNLen w).pout = s.pout := rfl

/-! ## `State.setPackStart` -/

@[simp] theorem State.setPackStart_env (s : State) (w : Word) :
    (s.setPackStart w).env = s.env := rfl
@[simp] theorem State.setPackStart_resp (s : State) (w : Word) :
    (s.setPackStart w).resp = s.resp := rfl
@[simp] theorem State.setPackStart_draws (s : State) (w : Word) :
    (s.setPackStart w).draws = s.draws := rfl
@[simp] theorem State.setPackStart_epoch (s : State) (w : Word) :
    (s.setPackStart w).epoch = s.epoch := rfl
@[simp] theorem State.setPackStart_rstN (s : State) (w : Word) :
    (s.setPackStart w).rstN = s.rstN := rfl
@[simp] theorem State.setPackStart_params (s : State) (w : Word) :
    (s.setPackStart w).params = s.params := rfl
@[simp] theorem State.setPackStart_cmdq (s : State) (w : Word) :
    (s.setPackStart w).cmdq = s.cmdq := rfl
@[simp] theorem State.setPackStart_status (s : State) (w : Word) :
    (s.setPackStart w).status = s.status := rfl
@[simp] theorem State.setPackStart_nLen (s : State) (w : Word) :
    (s.setPackStart w).nLen = s.nLen := rfl
@[simp] theorem State.setPackStart_packStart (s : State) (w : Word) :
    (s.setPackStart w).packStart = w := rfl
@[simp] theorem State.setPackStart_packLen (s : State) (w : Word) :
    (s.setPackStart w).packLen = s.packLen := rfl
@[simp] theorem State.setPackStart_sampleCount (s : State) (w : Word) :
    (s.setPackStart w).sampleCount = s.sampleCount := rfl
@[simp] theorem State.setPackStart_markerCount (s : State) (w : Word) :
    (s.setPackStart w).markerCount = s.markerCount := rfl
@[simp] theorem State.setPackStart_bitCount (s : State) (w : Word) :
    (s.setPackStart w).bitCount = s.bitCount := rfl
@[simp] theorem State.setPackStart_frameCount (s : State) (w : Word) :
    (s.setPackStart w).frameCount = s.frameCount := rfl
@[simp] theorem State.setPackStart_frameMinLen (s : State) (w : Word) :
    (s.setPackStart w).frameMinLen = s.frameMinLen := rfl
@[simp] theorem State.setPackStart_frameMaxLen (s : State) (w : Word) :
    (s.setPackStart w).frameMaxLen = s.frameMaxLen := rfl
@[simp] theorem State.setPackStart_pmCount (s : State) (w : Word) :
    (s.setPackStart w).pmCount = s.pmCount := rfl
@[simp] theorem State.setPackStart_packBytes (s : State) (w : Word) :
    (s.setPackStart w).packBytes = s.packBytes := rfl
@[simp] theorem State.setPackStart_diagPrefixLen (s : State) (w : Word) :
    (s.setPackStart w).diagPrefixLen = s.diagPrefixLen := rfl
@[simp] theorem State.setPackStart_diagHeadLen (s : State) (w : Word) :
    (s.setPackStart w).diagHeadLen = s.diagHeadLen := rfl
@[simp] theorem State.setPackStart_inp (s : State) (w : Word) :
    (s.setPackStart w).inp = s.inp := rfl
@[simp] theorem State.setPackStart_samp (s : State) (w : Word) :
    (s.setPackStart w).samp = s.samp := rfl
@[simp] theorem State.setPackStart_dbits (s : State) (w : Word) :
    (s.setPackStart w).dbits = s.dbits := rfl
@[simp] theorem State.setPackStart_ftab (s : State) (w : Word) :
    (s.setPackStart w).ftab = s.ftab := rfl
@[simp] theorem State.setPackStart_pmtab (s : State) (w : Word) :
    (s.setPackStart w).pmtab = s.pmtab := rfl
@[simp] theorem State.setPackStart_pout (s : State) (w : Word) :
    (s.setPackStart w).pout = s.pout := rfl

/-! ## `State.setPackLen` -/

@[simp] theorem State.setPackLen_env (s : State) (w : Word) :
    (s.setPackLen w).env = s.env := rfl
@[simp] theorem State.setPackLen_resp (s : State) (w : Word) :
    (s.setPackLen w).resp = s.resp := rfl
@[simp] theorem State.setPackLen_draws (s : State) (w : Word) :
    (s.setPackLen w).draws = s.draws := rfl
@[simp] theorem State.setPackLen_epoch (s : State) (w : Word) :
    (s.setPackLen w).epoch = s.epoch := rfl
@[simp] theorem State.setPackLen_rstN (s : State) (w : Word) :
    (s.setPackLen w).rstN = s.rstN := rfl
@[simp] theorem State.setPackLen_params (s : State) (w : Word) :
    (s.setPackLen w).params = s.params := rfl
@[simp] theorem State.setPackLen_cmdq (s : State) (w : Word) :
    (s.setPackLen w).cmdq = s.cmdq := rfl
@[simp] theorem State.setPackLen_status (s : State) (w : Word) :
    (s.setPackLen w).status = s.status := rfl
@[simp] theorem State.setPackLen_nLen (s : State) (w : Word) :
    (s.setPackLen w).nLen = s.nLen := rfl
@[simp] theorem State.setPackLen_packStart (s : State) (w : Word) :
    (s.setPackLen w).packStart = s.packStart := rfl
@[simp] theorem State.setPackLen_packLen (s : State) (w : Word) :
    (s.setPackLen w).packLen = w := rfl
@[simp] theorem State.setPackLen_sampleCount (s : State) (w : Word) :
    (s.setPackLen w).sampleCount = s.sampleCount := rfl
@[simp] theorem State.setPackLen_markerCount (s : State) (w : Word) :
    (s.setPackLen w).markerCount = s.markerCount := rfl
@[simp] theorem State.setPackLen_bitCount (s : State) (w : Word) :
    (s.setPackLen w).bitCount = s.bitCount := rfl
@[simp] theorem State.setPackLen_frameCount (s : State) (w : Word) :
    (s.setPackLen w).frameCount = s.frameCount := rfl
@[simp] theorem State.setPackLen_frameMinLen (s : State) (w : Word) :
    (s.setPackLen w).frameMinLen = s.frameMinLen := rfl
@[simp] theorem State.setPackLen_frameMaxLen (s : State) (w : Word) :
    (s.setPackLen w).frameMaxLen = s.frameMaxLen := rfl
@[simp] theorem State.setPackLen_pmCount (s : State) (w : Word) :
    (s.setPackLen w).pmCount = s.pmCount := rfl
@[simp] theorem State.setPackLen_packBytes (s : State) (w : Word) :
    (s.setPackLen w).packBytes = s.packBytes := rfl
@[simp] theorem State.setPackLen_diagPrefixLen (s : State) (w : Word) :
    (s.setPackLen w).diagPrefixLen = s.diagPrefixLen := rfl
@[simp] theorem State.setPackLen_diagHeadLen (s : State) (w : Word) :
    (s.setPackLen w).diagHeadLen = s.diagHeadLen := rfl
@[simp] theorem State.setPackLen_inp (s : State) (w : Word) :
    (s.setPackLen w).inp = s.inp := rfl
@[simp] theorem State.setPackLen_samp (s : State) (w : Word) :
    (s.setPackLen w).samp = s.samp := rfl
@[simp] theorem State.setPackLen_dbits (s : State) (w : Word) :
    (s.setPackLen w).dbits = s.dbits := rfl
@[simp] theorem State.setPackLen_ftab (s : State) (w : Word) :
    (s.setPackLen w).ftab = s.ftab := rfl
@[simp] theorem State.setPackLen_pmtab (s : State) (w : Word) :
    (s.setPackLen w).pmtab = s.pmtab := rfl
@[simp] theorem State.setPackLen_pout (s : State) (w : Word) :
    (s.setPackLen w).pout = s.pout := rfl

/-! ## `State.putIn` -/

@[simp] theorem State.putIn_env (s : State) (o : Nat) (b : Byte) :
    (s.putIn o b).env = s.env := rfl
@[simp] theorem State.putIn_resp (s : State) (o : Nat) (b : Byte) :
    (s.putIn o b).resp = s.resp := rfl
@[simp] theorem State.putIn_draws (s : State) (o : Nat) (b : Byte) :
    (s.putIn o b).draws = s.draws := rfl
@[simp] theorem State.putIn_epoch (s : State) (o : Nat) (b : Byte) :
    (s.putIn o b).epoch = s.epoch := rfl
@[simp] theorem State.putIn_rstN (s : State) (o : Nat) (b : Byte) :
    (s.putIn o b).rstN = s.rstN := rfl
@[simp] theorem State.putIn_params (s : State) (o : Nat) (b : Byte) :
    (s.putIn o b).params = s.params := rfl
@[simp] theorem State.putIn_cmdq (s : State) (o : Nat) (b : Byte) :
    (s.putIn o b).cmdq = s.cmdq := rfl
@[simp] theorem State.putIn_status (s : State) (o : Nat) (b : Byte) :
    (s.putIn o b).status = s.status := rfl
@[simp] theorem State.putIn_nLen (s : State) (o : Nat) (b : Byte) :
    (s.putIn o b).nLen = s.nLen := rfl
@[simp] theorem State.putIn_packStart (s : State) (o : Nat) (b : Byte) :
    (s.putIn o b).packStart = s.packStart := rfl
@[simp] theorem State.putIn_packLen (s : State) (o : Nat) (b : Byte) :
    (s.putIn o b).packLen = s.packLen := rfl
@[simp] theorem State.putIn_sampleCount (s : State) (o : Nat) (b : Byte) :
    (s.putIn o b).sampleCount = s.sampleCount := rfl
@[simp] theorem State.putIn_markerCount (s : State) (o : Nat) (b : Byte) :
    (s.putIn o b).markerCount = s.markerCount := rfl
@[simp] theorem State.putIn_bitCount (s : State) (o : Nat) (b : Byte) :
    (s.putIn o b).bitCount = s.bitCount := rfl
@[simp] theorem State.putIn_frameCount (s : State) (o : Nat) (b : Byte) :
    (s.putIn o b).frameCount = s.frameCount := rfl
@[simp] theorem State.putIn_frameMinLen (s : State) (o : Nat) (b : Byte) :
    (s.putIn o b).frameMinLen = s.frameMinLen := rfl
@[simp] theorem State.putIn_frameMaxLen (s : State) (o : Nat) (b : Byte) :
    (s.putIn o b).frameMaxLen = s.frameMaxLen := rfl
@[simp] theorem State.putIn_pmCount (s : State) (o : Nat) (b : Byte) :
    (s.putIn o b).pmCount = s.pmCount := rfl
@[simp] theorem State.putIn_packBytes (s : State) (o : Nat) (b : Byte) :
    (s.putIn o b).packBytes = s.packBytes := rfl
@[simp] theorem State.putIn_diagPrefixLen (s : State) (o : Nat) (b : Byte) :
    (s.putIn o b).diagPrefixLen = s.diagPrefixLen := rfl
@[simp] theorem State.putIn_diagHeadLen (s : State) (o : Nat) (b : Byte) :
    (s.putIn o b).diagHeadLen = s.diagHeadLen := rfl
@[simp] theorem State.putIn_inp (s : State) (o : Nat) (b : Byte) :
    (s.putIn o b).inp = s.inp.write o b := rfl
@[simp] theorem State.putIn_samp (s : State) (o : Nat) (b : Byte) :
    (s.putIn o b).samp = s.samp := rfl
@[simp] theorem State.putIn_dbits (s : State) (o : Nat) (b : Byte) :
    (s.putIn o b).dbits = s.dbits := rfl
@[simp] theorem State.putIn_ftab (s : State) (o : Nat) (b : Byte) :
    (s.putIn o b).ftab = s.ftab := rfl
@[simp] theorem State.putIn_pmtab (s : State) (o : Nat) (b : Byte) :
    (s.putIn o b).pmtab = s.pmtab := rfl
@[simp] theorem State.putIn_pout (s : State) (o : Nat) (b : Byte) :
    (s.putIn o b).pout = s.pout := rfl

/-! ## `State.withCommand` -/

@[simp] theorem State.withCommand_env (s : State) (w : Word) :
    (s.withCommand w).env = [] := rfl
@[simp] theorem State.withCommand_resp (s : State) (w : Word) :
    (s.withCommand w).resp = s.resp := rfl
@[simp] theorem State.withCommand_draws (s : State) (w : Word) :
    (s.withCommand w).draws = s.draws := rfl
@[simp] theorem State.withCommand_epoch (s : State) (w : Word) :
    (s.withCommand w).epoch = s.epoch := rfl
@[simp] theorem State.withCommand_rstN (s : State) (w : Word) :
    (s.withCommand w).rstN = true := rfl
@[simp] theorem State.withCommand_params (s : State) (w : Word) :
    (s.withCommand w).params = s.params := rfl
@[simp] theorem State.withCommand_cmdq (s : State) (w : Word) :
    (s.withCommand w).cmdq = w := rfl
@[simp] theorem State.withCommand_status (s : State) (w : Word) :
    (s.withCommand w).status = ({ s.status with busy := true, done := false } : Status) := rfl
@[simp] theorem State.withCommand_nLen (s : State) (w : Word) :
    (s.withCommand w).nLen = s.nLen := rfl
@[simp] theorem State.withCommand_packStart (s : State) (w : Word) :
    (s.withCommand w).packStart = s.packStart := rfl
@[simp] theorem State.withCommand_packLen (s : State) (w : Word) :
    (s.withCommand w).packLen = s.packLen := rfl
@[simp] theorem State.withCommand_sampleCount (s : State) (w : Word) :
    (s.withCommand w).sampleCount = s.sampleCount := rfl
@[simp] theorem State.withCommand_markerCount (s : State) (w : Word) :
    (s.withCommand w).markerCount = s.markerCount := rfl
@[simp] theorem State.withCommand_bitCount (s : State) (w : Word) :
    (s.withCommand w).bitCount = s.bitCount := rfl
@[simp] theorem State.withCommand_frameCount (s : State) (w : Word) :
    (s.withCommand w).frameCount = s.frameCount := rfl
@[simp] theorem State.withCommand_frameMinLen (s : State) (w : Word) :
    (s.withCommand w).frameMinLen = s.frameMinLen := rfl
@[simp] theorem State.withCommand_frameMaxLen (s : State) (w : Word) :
    (s.withCommand w).frameMaxLen = s.frameMaxLen := rfl
@[simp] theorem State.withCommand_pmCount (s : State) (w : Word) :
    (s.withCommand w).pmCount = s.pmCount := rfl
@[simp] theorem State.withCommand_packBytes (s : State) (w : Word) :
    (s.withCommand w).packBytes = s.packBytes := rfl
@[simp] theorem State.withCommand_diagPrefixLen (s : State) (w : Word) :
    (s.withCommand w).diagPrefixLen = s.diagPrefixLen := rfl
@[simp] theorem State.withCommand_diagHeadLen (s : State) (w : Word) :
    (s.withCommand w).diagHeadLen = s.diagHeadLen := rfl
@[simp] theorem State.withCommand_inp (s : State) (w : Word) :
    (s.withCommand w).inp = s.inp := rfl
@[simp] theorem State.withCommand_samp (s : State) (w : Word) :
    (s.withCommand w).samp = s.samp := rfl
@[simp] theorem State.withCommand_dbits (s : State) (w : Word) :
    (s.withCommand w).dbits = s.dbits := rfl
@[simp] theorem State.withCommand_ftab (s : State) (w : Word) :
    (s.withCommand w).ftab = s.ftab := rfl
@[simp] theorem State.withCommand_pmtab (s : State) (w : Word) :
    (s.withCommand w).pmtab = s.pmtab := rfl
@[simp] theorem State.withCommand_pout (s : State) (w : Word) :
    (s.withCommand w).pout = s.pout := rfl

/-! ## `State.putSamples` -/

@[simp] theorem State.putSamples_env (s : State) (bs : List Byte) :
    (s.putSamples bs).env = s.env := rfl
@[simp] theorem State.putSamples_resp (s : State) (bs : List Byte) :
    (s.putSamples bs).resp = s.resp := rfl
@[simp] theorem State.putSamples_draws (s : State) (bs : List Byte) :
    (s.putSamples bs).draws = s.draws := rfl
@[simp] theorem State.putSamples_epoch (s : State) (bs : List Byte) :
    (s.putSamples bs).epoch = s.epoch := rfl
@[simp] theorem State.putSamples_rstN (s : State) (bs : List Byte) :
    (s.putSamples bs).rstN = s.rstN := rfl
@[simp] theorem State.putSamples_params (s : State) (bs : List Byte) :
    (s.putSamples bs).params = s.params := rfl
@[simp] theorem State.putSamples_cmdq (s : State) (bs : List Byte) :
    (s.putSamples bs).cmdq = s.cmdq := rfl
@[simp] theorem State.putSamples_status (s : State) (bs : List Byte) :
    (s.putSamples bs).status = ({ s.status with vSamp := true } : Status) := rfl
@[simp] theorem State.putSamples_nLen (s : State) (bs : List Byte) :
    (s.putSamples bs).nLen = s.nLen := rfl
@[simp] theorem State.putSamples_packStart (s : State) (bs : List Byte) :
    (s.putSamples bs).packStart = s.packStart := rfl
@[simp] theorem State.putSamples_packLen (s : State) (bs : List Byte) :
    (s.putSamples bs).packLen = s.packLen := rfl
@[simp] theorem State.putSamples_sampleCount (s : State) (bs : List Byte) :
    (s.putSamples bs).sampleCount = toWord bs.length := rfl
@[simp] theorem State.putSamples_markerCount (s : State) (bs : List Byte) :
    (s.putSamples bs).markerCount = s.markerCount := rfl
@[simp] theorem State.putSamples_bitCount (s : State) (bs : List Byte) :
    (s.putSamples bs).bitCount = s.bitCount := rfl
@[simp] theorem State.putSamples_frameCount (s : State) (bs : List Byte) :
    (s.putSamples bs).frameCount = s.frameCount := rfl
@[simp] theorem State.putSamples_frameMinLen (s : State) (bs : List Byte) :
    (s.putSamples bs).frameMinLen = s.frameMinLen := rfl
@[simp] theorem State.putSamples_frameMaxLen (s : State) (bs : List Byte) :
    (s.putSamples bs).frameMaxLen = s.frameMaxLen := rfl
@[simp] theorem State.putSamples_pmCount (s : State) (bs : List Byte) :
    (s.putSamples bs).pmCount = s.pmCount := rfl
@[simp] theorem State.putSamples_packBytes (s : State) (bs : List Byte) :
    (s.putSamples bs).packBytes = s.packBytes := rfl
@[simp] theorem State.putSamples_diagPrefixLen (s : State) (bs : List Byte) :
    (s.putSamples bs).diagPrefixLen = s.diagPrefixLen := rfl
@[simp] theorem State.putSamples_diagHeadLen (s : State) (bs : List Byte) :
    (s.putSamples bs).diagHeadLen = s.diagHeadLen := rfl
@[simp] theorem State.putSamples_inp (s : State) (bs : List Byte) :
    (s.putSamples bs).inp = s.inp := rfl
@[simp] theorem State.putSamples_samp (s : State) (bs : List Byte) :
    (s.putSamples bs).samp = s.samp.overlay bs := rfl
@[simp] theorem State.putSamples_dbits (s : State) (bs : List Byte) :
    (s.putSamples bs).dbits = s.dbits := rfl
@[simp] theorem State.putSamples_ftab (s : State) (bs : List Byte) :
    (s.putSamples bs).ftab = s.ftab := rfl
@[simp] theorem State.putSamples_pmtab (s : State) (bs : List Byte) :
    (s.putSamples bs).pmtab = s.pmtab := rfl
@[simp] theorem State.putSamples_pout (s : State) (bs : List Byte) :
    (s.putSamples bs).pout = s.pout := rfl

/-! ## `State.putDbits` -/

@[simp] theorem State.putDbits_env (s : State) (bits : Bits) (m : Nat) :
    (s.putDbits bits m).env = s.env := rfl
@[simp] theorem State.putDbits_resp (s : State) (bits : Bits) (m : Nat) :
    (s.putDbits bits m).resp = s.resp := rfl
@[simp] theorem State.putDbits_draws (s : State) (bits : Bits) (m : Nat) :
    (s.putDbits bits m).draws = s.draws := rfl
@[simp] theorem State.putDbits_epoch (s : State) (bits : Bits) (m : Nat) :
    (s.putDbits bits m).epoch = s.epoch := rfl
@[simp] theorem State.putDbits_rstN (s : State) (bits : Bits) (m : Nat) :
    (s.putDbits bits m).rstN = s.rstN := rfl
@[simp] theorem State.putDbits_params (s : State) (bits : Bits) (m : Nat) :
    (s.putDbits bits m).params = s.params := rfl
@[simp] theorem State.putDbits_cmdq (s : State) (bits : Bits) (m : Nat) :
    (s.putDbits bits m).cmdq = s.cmdq := rfl
@[simp] theorem State.putDbits_status (s : State) (bits : Bits) (m : Nat) :
    (s.putDbits bits m).status = ({ s.status with vDbits := true } : Status) := rfl
@[simp] theorem State.putDbits_nLen (s : State) (bits : Bits) (m : Nat) :
    (s.putDbits bits m).nLen = s.nLen := rfl
@[simp] theorem State.putDbits_packStart (s : State) (bits : Bits) (m : Nat) :
    (s.putDbits bits m).packStart = s.packStart := rfl
@[simp] theorem State.putDbits_packLen (s : State) (bits : Bits) (m : Nat) :
    (s.putDbits bits m).packLen = s.packLen := rfl
@[simp] theorem State.putDbits_sampleCount (s : State) (bits : Bits) (m : Nat) :
    (s.putDbits bits m).sampleCount = s.sampleCount := rfl
@[simp] theorem State.putDbits_markerCount (s : State) (bits : Bits) (m : Nat) :
    (s.putDbits bits m).markerCount = toWord m := rfl
@[simp] theorem State.putDbits_bitCount (s : State) (bits : Bits) (m : Nat) :
    (s.putDbits bits m).bitCount = toWord bits.length := rfl
@[simp] theorem State.putDbits_frameCount (s : State) (bits : Bits) (m : Nat) :
    (s.putDbits bits m).frameCount = s.frameCount := rfl
@[simp] theorem State.putDbits_frameMinLen (s : State) (bits : Bits) (m : Nat) :
    (s.putDbits bits m).frameMinLen = s.frameMinLen := rfl
@[simp] theorem State.putDbits_frameMaxLen (s : State) (bits : Bits) (m : Nat) :
    (s.putDbits bits m).frameMaxLen = s.frameMaxLen := rfl
@[simp] theorem State.putDbits_pmCount (s : State) (bits : Bits) (m : Nat) :
    (s.putDbits bits m).pmCount = s.pmCount := rfl
@[simp] theorem State.putDbits_packBytes (s : State) (bits : Bits) (m : Nat) :
    (s.putDbits bits m).packBytes = s.packBytes := rfl
@[simp] theorem State.putDbits_diagPrefixLen (s : State) (bits : Bits) (m : Nat) :
    (s.putDbits bits m).diagPrefixLen = s.diagPrefixLen := rfl
@[simp] theorem State.putDbits_diagHeadLen (s : State) (bits : Bits) (m : Nat) :
    (s.putDbits bits m).diagHeadLen = s.diagHeadLen := rfl
@[simp] theorem State.putDbits_inp (s : State) (bits : Bits) (m : Nat) :
    (s.putDbits bits m).inp = s.inp := rfl
@[simp] theorem State.putDbits_samp (s : State) (bits : Bits) (m : Nat) :
    (s.putDbits bits m).samp = s.samp := rfl
@[simp] theorem State.putDbits_dbits (s : State) (bits : Bits) (m : Nat) :
    (s.putDbits bits m).dbits = s.dbits.overlay (bits.map bitByte) := rfl
@[simp] theorem State.putDbits_ftab (s : State) (bits : Bits) (m : Nat) :
    (s.putDbits bits m).ftab = s.ftab := rfl
@[simp] theorem State.putDbits_pmtab (s : State) (bits : Bits) (m : Nat) :
    (s.putDbits bits m).pmtab = s.pmtab := rfl
@[simp] theorem State.putDbits_pout (s : State) (bits : Bits) (m : Nat) :
    (s.putDbits bits m).pout = s.pout := rfl

/-! ## `State.putFrames` -/

@[simp] theorem State.putFrames_env (s : State) (n : Nat) (fs : List (Nat × Nat)) :
    (s.putFrames n fs).env = s.env := rfl
@[simp] theorem State.putFrames_resp (s : State) (n : Nat) (fs : List (Nat × Nat)) :
    (s.putFrames n fs).resp = s.resp := rfl
@[simp] theorem State.putFrames_draws (s : State) (n : Nat) (fs : List (Nat × Nat)) :
    (s.putFrames n fs).draws = s.draws := rfl
@[simp] theorem State.putFrames_epoch (s : State) (n : Nat) (fs : List (Nat × Nat)) :
    (s.putFrames n fs).epoch = s.epoch := rfl
@[simp] theorem State.putFrames_rstN (s : State) (n : Nat) (fs : List (Nat × Nat)) :
    (s.putFrames n fs).rstN = s.rstN := rfl
@[simp] theorem State.putFrames_params (s : State) (n : Nat) (fs : List (Nat × Nat)) :
    (s.putFrames n fs).params = s.params := rfl
@[simp] theorem State.putFrames_cmdq (s : State) (n : Nat) (fs : List (Nat × Nat)) :
    (s.putFrames n fs).cmdq = s.cmdq := rfl
@[simp] theorem State.putFrames_status (s : State) (n : Nat) (fs : List (Nat × Nat)) :
    (s.putFrames n fs).status = ({ s.status with diag := diagOf n fs, vFrames := true } : Status) := rfl
@[simp] theorem State.putFrames_nLen (s : State) (n : Nat) (fs : List (Nat × Nat)) :
    (s.putFrames n fs).nLen = s.nLen := rfl
@[simp] theorem State.putFrames_packStart (s : State) (n : Nat) (fs : List (Nat × Nat)) :
    (s.putFrames n fs).packStart = s.packStart := rfl
@[simp] theorem State.putFrames_packLen (s : State) (n : Nat) (fs : List (Nat × Nat)) :
    (s.putFrames n fs).packLen = s.packLen := rfl
@[simp] theorem State.putFrames_sampleCount (s : State) (n : Nat) (fs : List (Nat × Nat)) :
    (s.putFrames n fs).sampleCount = s.sampleCount := rfl
@[simp] theorem State.putFrames_markerCount (s : State) (n : Nat) (fs : List (Nat × Nat)) :
    (s.putFrames n fs).markerCount = s.markerCount := rfl
@[simp] theorem State.putFrames_bitCount (s : State) (n : Nat) (fs : List (Nat × Nat)) :
    (s.putFrames n fs).bitCount = s.bitCount := rfl
@[simp] theorem State.putFrames_frameCount (s : State) (n : Nat) (fs : List (Nat × Nat)) :
    (s.putFrames n fs).frameCount = toWord fs.length := rfl
@[simp] theorem State.putFrames_frameMinLen (s : State) (n : Nat) (fs : List (Nat × Nat)) :
    (s.putFrames n fs).frameMinLen = toWord (minFrameLen fs) := rfl
@[simp] theorem State.putFrames_frameMaxLen (s : State) (n : Nat) (fs : List (Nat × Nat)) :
    (s.putFrames n fs).frameMaxLen = toWord (maxFrameLen fs) := rfl
@[simp] theorem State.putFrames_pmCount (s : State) (n : Nat) (fs : List (Nat × Nat)) :
    (s.putFrames n fs).pmCount = s.pmCount := rfl
@[simp] theorem State.putFrames_packBytes (s : State) (n : Nat) (fs : List (Nat × Nat)) :
    (s.putFrames n fs).packBytes = s.packBytes := rfl
@[simp] theorem State.putFrames_diagPrefixLen (s : State) (n : Nat) (fs : List (Nat × Nat)) :
    (s.putFrames n fs).diagPrefixLen = if diagOf n fs then toWord (min diagPrefix n) else 0 := rfl
@[simp] theorem State.putFrames_diagHeadLen (s : State) (n : Nat) (fs : List (Nat × Nat)) :
    (s.putFrames n fs).diagHeadLen = if diagOf n fs then toWord (min diagHead n) else 0 := rfl
@[simp] theorem State.putFrames_inp (s : State) (n : Nat) (fs : List (Nat × Nat)) :
    (s.putFrames n fs).inp = s.inp := rfl
@[simp] theorem State.putFrames_samp (s : State) (n : Nat) (fs : List (Nat × Nat)) :
    (s.putFrames n fs).samp = s.samp := rfl
@[simp] theorem State.putFrames_dbits (s : State) (n : Nat) (fs : List (Nat × Nat)) :
    (s.putFrames n fs).dbits = s.dbits := rfl
@[simp] theorem State.putFrames_ftab (s : State) (n : Nat) (fs : List (Nat × Nat)) :
    (s.putFrames n fs).ftab = tableOverlay (frameTable fs) s.ftab := rfl
@[simp] theorem State.putFrames_pmtab (s : State) (n : Nat) (fs : List (Nat × Nat)) :
    (s.putFrames n fs).pmtab = s.pmtab := rfl
@[simp] theorem State.putFrames_pout (s : State) (n : Nat) (fs : List (Nat × Nat)) :
    (s.putFrames n fs).pout = s.pout := rfl

/-! ## `State.putPartials` -/

@[simp] theorem State.putPartials_env (s : State) (es : List PmEntry) :
    (s.putPartials es).env = s.env := rfl
@[simp] theorem State.putPartials_resp (s : State) (es : List PmEntry) :
    (s.putPartials es).resp = s.resp := rfl
@[simp] theorem State.putPartials_draws (s : State) (es : List PmEntry) :
    (s.putPartials es).draws = s.draws := rfl
@[simp] theorem State.putPartials_epoch (s : State) (es : List PmEntry) :
    (s.putPartials es).epoch = s.epoch := rfl
@[simp] theorem State.putPartials_rstN (s : State) (es : List PmEntry) :
    (s.putPartials es).rstN = s.rstN := rfl
@[simp] theorem State.putPartials_params (s : State) (es : List PmEntry) :
    (s.putPartials es).params = s.params := rfl
@[simp] theorem State.putPartials_cmdq (s : State) (es : List PmEntry) :
    (s.putPartials es).cmdq = s.cmdq := rfl
@[simp] theorem State.putPartials_status (s : State) (es : List PmEntry) :
    (s.putPartials es).status = ({ s.status with vPm := true } : Status) := rfl
@[simp] theorem State.putPartials_nLen (s : State) (es : List PmEntry) :
    (s.putPartials es).nLen = s.nLen := rfl
@[simp] theorem State.putPartials_packStart (s : State) (es : List PmEntry) :
    (s.putPartials es).packStart = s.packStart := rfl
@[simp] theorem State.putPartials_packLen (s : State) (es : List PmEntry) :
    (s.putPartials es).packLen = s.packLen := rfl
@[simp] theorem State.putPartials_sampleCount (s : State) (es : List PmEntry) :
    (s.putPartials es).sampleCount = s.sampleCount := rfl
@[simp] theorem State.putPartials_markerCount (s : State) (es : List PmEntry) :
    (s.putPartials es).markerCount = s.markerCount := rfl
@[simp] theorem State.putPartials_bitCount (s : State) (es : List PmEntry) :
    (s.putPartials es).bitCount = s.bitCount := rfl
@[simp] theorem State.putPartials_frameCount (s : State) (es : List PmEntry) :
    (s.putPartials es).frameCount = s.frameCount := rfl
@[simp] theorem State.putPartials_frameMinLen (s : State) (es : List PmEntry) :
    (s.putPartials es).frameMinLen = s.frameMinLen := rfl
@[simp] theorem State.putPartials_frameMaxLen (s : State) (es : List PmEntry) :
    (s.putPartials es).frameMaxLen = s.frameMaxLen := rfl
@[simp] theorem State.putPartials_pmCount (s : State) (es : List PmEntry) :
    (s.putPartials es).pmCount = toWord es.length := rfl
@[simp] theorem State.putPartials_packBytes (s : State) (es : List PmEntry) :
    (s.putPartials es).packBytes = s.packBytes := rfl
@[simp] theorem State.putPartials_diagPrefixLen (s : State) (es : List PmEntry) :
    (s.putPartials es).diagPrefixLen = s.diagPrefixLen := rfl
@[simp] theorem State.putPartials_diagHeadLen (s : State) (es : List PmEntry) :
    (s.putPartials es).diagHeadLen = s.diagHeadLen := rfl
@[simp] theorem State.putPartials_inp (s : State) (es : List PmEntry) :
    (s.putPartials es).inp = s.inp := rfl
@[simp] theorem State.putPartials_samp (s : State) (es : List PmEntry) :
    (s.putPartials es).samp = s.samp := rfl
@[simp] theorem State.putPartials_dbits (s : State) (es : List PmEntry) :
    (s.putPartials es).dbits = s.dbits := rfl
@[simp] theorem State.putPartials_ftab (s : State) (es : List PmEntry) :
    (s.putPartials es).ftab = s.ftab := rfl
@[simp] theorem State.putPartials_pmtab (s : State) (es : List PmEntry) :
    (s.putPartials es).pmtab = tableOverlay es s.pmtab := rfl
@[simp] theorem State.putPartials_pout (s : State) (es : List PmEntry) :
    (s.putPartials es).pout = s.pout := rfl

/-! ## `State.putPacked` -/

@[simp] theorem State.putPacked_env (s : State) (r : Bool) (bs : List Byte) :
    (s.putPacked r bs).env = s.env := rfl
@[simp] theorem State.putPacked_resp (s : State) (r : Bool) (bs : List Byte) :
    (s.putPacked r bs).resp = s.resp := rfl
@[simp] theorem State.putPacked_draws (s : State) (r : Bool) (bs : List Byte) :
    (s.putPacked r bs).draws = s.draws := rfl
@[simp] theorem State.putPacked_epoch (s : State) (r : Bool) (bs : List Byte) :
    (s.putPacked r bs).epoch = s.epoch := rfl
@[simp] theorem State.putPacked_rstN (s : State) (r : Bool) (bs : List Byte) :
    (s.putPacked r bs).rstN = s.rstN := rfl
@[simp] theorem State.putPacked_params (s : State) (r : Bool) (bs : List Byte) :
    (s.putPacked r bs).params = s.params := rfl
@[simp] theorem State.putPacked_cmdq (s : State) (r : Bool) (bs : List Byte) :
    (s.putPacked r bs).cmdq = s.cmdq := rfl
@[simp] theorem State.putPacked_status (s : State) (r : Bool) (bs : List Byte) :
    (s.putPacked r bs).status = ({ s.status with vPack := true, pkr := r } : Status) := rfl
@[simp] theorem State.putPacked_nLen (s : State) (r : Bool) (bs : List Byte) :
    (s.putPacked r bs).nLen = s.nLen := rfl
@[simp] theorem State.putPacked_packStart (s : State) (r : Bool) (bs : List Byte) :
    (s.putPacked r bs).packStart = s.packStart := rfl
@[simp] theorem State.putPacked_packLen (s : State) (r : Bool) (bs : List Byte) :
    (s.putPacked r bs).packLen = s.packLen := rfl
@[simp] theorem State.putPacked_sampleCount (s : State) (r : Bool) (bs : List Byte) :
    (s.putPacked r bs).sampleCount = s.sampleCount := rfl
@[simp] theorem State.putPacked_markerCount (s : State) (r : Bool) (bs : List Byte) :
    (s.putPacked r bs).markerCount = s.markerCount := rfl
@[simp] theorem State.putPacked_bitCount (s : State) (r : Bool) (bs : List Byte) :
    (s.putPacked r bs).bitCount = s.bitCount := rfl
@[simp] theorem State.putPacked_frameCount (s : State) (r : Bool) (bs : List Byte) :
    (s.putPacked r bs).frameCount = s.frameCount := rfl
@[simp] theorem State.putPacked_frameMinLen (s : State) (r : Bool) (bs : List Byte) :
    (s.putPacked r bs).frameMinLen = s.frameMinLen := rfl
@[simp] theorem State.putPacked_frameMaxLen (s : State) (r : Bool) (bs : List Byte) :
    (s.putPacked r bs).frameMaxLen = s.frameMaxLen := rfl
@[simp] theorem State.putPacked_pmCount (s : State) (r : Bool) (bs : List Byte) :
    (s.putPacked r bs).pmCount = s.pmCount := rfl
@[simp] theorem State.putPacked_packBytes (s : State) (r : Bool) (bs : List Byte) :
    (s.putPacked r bs).packBytes = toWord bs.length := rfl
@[simp] theorem State.putPacked_diagPrefixLen (s : State) (r : Bool) (bs : List Byte) :
    (s.putPacked r bs).diagPrefixLen = s.diagPrefixLen := rfl
@[simp] theorem State.putPacked_diagHeadLen (s : State) (r : Bool) (bs : List Byte) :
    (s.putPacked r bs).diagHeadLen = s.diagHeadLen := rfl
@[simp] theorem State.putPacked_inp (s : State) (r : Bool) (bs : List Byte) :
    (s.putPacked r bs).inp = s.inp := rfl
@[simp] theorem State.putPacked_samp (s : State) (r : Bool) (bs : List Byte) :
    (s.putPacked r bs).samp = s.samp := rfl
@[simp] theorem State.putPacked_dbits (s : State) (r : Bool) (bs : List Byte) :
    (s.putPacked r bs).dbits = s.dbits := rfl
@[simp] theorem State.putPacked_ftab (s : State) (r : Bool) (bs : List Byte) :
    (s.putPacked r bs).ftab = s.ftab := rfl
@[simp] theorem State.putPacked_pmtab (s : State) (r : Bool) (bs : List Byte) :
    (s.putPacked r bs).pmtab = s.pmtab := rfl
@[simp] theorem State.putPacked_pout (s : State) (r : Bool) (bs : List Byte) :
    (s.putPacked r bs).pout = s.pout.overlay bs := rfl

/-! ## `State.invalidateAfterDbits` -/

@[simp] theorem State.invalidateAfterDbits_env (s : State) :
    (s.invalidateAfterDbits).env = s.env := rfl
@[simp] theorem State.invalidateAfterDbits_resp (s : State) :
    (s.invalidateAfterDbits).resp = s.resp := rfl
@[simp] theorem State.invalidateAfterDbits_draws (s : State) :
    (s.invalidateAfterDbits).draws = s.draws := rfl
@[simp] theorem State.invalidateAfterDbits_epoch (s : State) :
    (s.invalidateAfterDbits).epoch = s.epoch := rfl
@[simp] theorem State.invalidateAfterDbits_rstN (s : State) :
    (s.invalidateAfterDbits).rstN = s.rstN := rfl
@[simp] theorem State.invalidateAfterDbits_params (s : State) :
    (s.invalidateAfterDbits).params = s.params := rfl
@[simp] theorem State.invalidateAfterDbits_cmdq (s : State) :
    (s.invalidateAfterDbits).cmdq = s.cmdq := rfl
@[simp] theorem State.invalidateAfterDbits_status (s : State) :
    (s.invalidateAfterDbits).status = ({ s.status with vFrames := false, vPm := false, vPack := false, pkr := false, diag := false } : Status) := rfl
@[simp] theorem State.invalidateAfterDbits_nLen (s : State) :
    (s.invalidateAfterDbits).nLen = s.nLen := rfl
@[simp] theorem State.invalidateAfterDbits_packStart (s : State) :
    (s.invalidateAfterDbits).packStart = s.packStart := rfl
@[simp] theorem State.invalidateAfterDbits_packLen (s : State) :
    (s.invalidateAfterDbits).packLen = s.packLen := rfl
@[simp] theorem State.invalidateAfterDbits_sampleCount (s : State) :
    (s.invalidateAfterDbits).sampleCount = s.sampleCount := rfl
@[simp] theorem State.invalidateAfterDbits_markerCount (s : State) :
    (s.invalidateAfterDbits).markerCount = s.markerCount := rfl
@[simp] theorem State.invalidateAfterDbits_bitCount (s : State) :
    (s.invalidateAfterDbits).bitCount = s.bitCount := rfl
@[simp] theorem State.invalidateAfterDbits_frameCount (s : State) :
    (s.invalidateAfterDbits).frameCount = 0 := rfl
@[simp] theorem State.invalidateAfterDbits_frameMinLen (s : State) :
    (s.invalidateAfterDbits).frameMinLen = 0 := rfl
@[simp] theorem State.invalidateAfterDbits_frameMaxLen (s : State) :
    (s.invalidateAfterDbits).frameMaxLen = 0 := rfl
@[simp] theorem State.invalidateAfterDbits_pmCount (s : State) :
    (s.invalidateAfterDbits).pmCount = 0 := rfl
@[simp] theorem State.invalidateAfterDbits_packBytes (s : State) :
    (s.invalidateAfterDbits).packBytes = 0 := rfl
@[simp] theorem State.invalidateAfterDbits_diagPrefixLen (s : State) :
    (s.invalidateAfterDbits).diagPrefixLen = 0 := rfl
@[simp] theorem State.invalidateAfterDbits_diagHeadLen (s : State) :
    (s.invalidateAfterDbits).diagHeadLen = 0 := rfl
@[simp] theorem State.invalidateAfterDbits_inp (s : State) :
    (s.invalidateAfterDbits).inp = s.inp := rfl
@[simp] theorem State.invalidateAfterDbits_samp (s : State) :
    (s.invalidateAfterDbits).samp = s.samp := rfl
@[simp] theorem State.invalidateAfterDbits_dbits (s : State) :
    (s.invalidateAfterDbits).dbits = s.dbits := rfl
@[simp] theorem State.invalidateAfterDbits_ftab (s : State) :
    (s.invalidateAfterDbits).ftab = s.ftab := rfl
@[simp] theorem State.invalidateAfterDbits_pmtab (s : State) :
    (s.invalidateAfterDbits).pmtab = s.pmtab := rfl
@[simp] theorem State.invalidateAfterDbits_pout (s : State) :
    (s.invalidateAfterDbits).pout = s.pout := rfl

/-! ## `State.invalidateAfterSamp` -/

@[simp] theorem State.invalidateAfterSamp_env (s : State) :
    (s.invalidateAfterSamp).env = s.env := rfl
@[simp] theorem State.invalidateAfterSamp_resp (s : State) :
    (s.invalidateAfterSamp).resp = s.resp := rfl
@[simp] theorem State.invalidateAfterSamp_draws (s : State) :
    (s.invalidateAfterSamp).draws = s.draws := rfl
@[simp] theorem State.invalidateAfterSamp_epoch (s : State) :
    (s.invalidateAfterSamp).epoch = s.epoch := rfl
@[simp] theorem State.invalidateAfterSamp_rstN (s : State) :
    (s.invalidateAfterSamp).rstN = s.rstN := rfl
@[simp] theorem State.invalidateAfterSamp_params (s : State) :
    (s.invalidateAfterSamp).params = s.params := rfl
@[simp] theorem State.invalidateAfterSamp_cmdq (s : State) :
    (s.invalidateAfterSamp).cmdq = s.cmdq := rfl
@[simp] theorem State.invalidateAfterSamp_status (s : State) :
    (s.invalidateAfterSamp).status = ({ s.status with vDbits := false, vFrames := false, vPm := false, vPack := false, pkr := false, diag := false } : Status) := rfl
@[simp] theorem State.invalidateAfterSamp_nLen (s : State) :
    (s.invalidateAfterSamp).nLen = s.nLen := rfl
@[simp] theorem State.invalidateAfterSamp_packStart (s : State) :
    (s.invalidateAfterSamp).packStart = s.packStart := rfl
@[simp] theorem State.invalidateAfterSamp_packLen (s : State) :
    (s.invalidateAfterSamp).packLen = s.packLen := rfl
@[simp] theorem State.invalidateAfterSamp_sampleCount (s : State) :
    (s.invalidateAfterSamp).sampleCount = s.sampleCount := rfl
@[simp] theorem State.invalidateAfterSamp_markerCount (s : State) :
    (s.invalidateAfterSamp).markerCount = 0 := rfl
@[simp] theorem State.invalidateAfterSamp_bitCount (s : State) :
    (s.invalidateAfterSamp).bitCount = 0 := rfl
@[simp] theorem State.invalidateAfterSamp_frameCount (s : State) :
    (s.invalidateAfterSamp).frameCount = 0 := rfl
@[simp] theorem State.invalidateAfterSamp_frameMinLen (s : State) :
    (s.invalidateAfterSamp).frameMinLen = 0 := rfl
@[simp] theorem State.invalidateAfterSamp_frameMaxLen (s : State) :
    (s.invalidateAfterSamp).frameMaxLen = 0 := rfl
@[simp] theorem State.invalidateAfterSamp_pmCount (s : State) :
    (s.invalidateAfterSamp).pmCount = 0 := rfl
@[simp] theorem State.invalidateAfterSamp_packBytes (s : State) :
    (s.invalidateAfterSamp).packBytes = 0 := rfl
@[simp] theorem State.invalidateAfterSamp_diagPrefixLen (s : State) :
    (s.invalidateAfterSamp).diagPrefixLen = 0 := rfl
@[simp] theorem State.invalidateAfterSamp_diagHeadLen (s : State) :
    (s.invalidateAfterSamp).diagHeadLen = 0 := rfl
@[simp] theorem State.invalidateAfterSamp_inp (s : State) :
    (s.invalidateAfterSamp).inp = s.inp := rfl
@[simp] theorem State.invalidateAfterSamp_samp (s : State) :
    (s.invalidateAfterSamp).samp = s.samp := rfl
@[simp] theorem State.invalidateAfterSamp_dbits (s : State) :
    (s.invalidateAfterSamp).dbits = s.dbits := rfl
@[simp] theorem State.invalidateAfterSamp_ftab (s : State) :
    (s.invalidateAfterSamp).ftab = s.ftab := rfl
@[simp] theorem State.invalidateAfterSamp_pmtab (s : State) :
    (s.invalidateAfterSamp).pmtab = s.pmtab := rfl
@[simp] theorem State.invalidateAfterSamp_pout (s : State) :
    (s.invalidateAfterSamp).pout = s.pout := rfl

/-! ## `State.invalidateAll` -/

@[simp] theorem State.invalidateAll_env (s : State) :
    (s.invalidateAll).env = s.env := rfl
@[simp] theorem State.invalidateAll_resp (s : State) :
    (s.invalidateAll).resp = s.resp := rfl
@[simp] theorem State.invalidateAll_draws (s : State) :
    (s.invalidateAll).draws = s.draws := rfl
@[simp] theorem State.invalidateAll_epoch (s : State) :
    (s.invalidateAll).epoch = s.epoch := rfl
@[simp] theorem State.invalidateAll_rstN (s : State) :
    (s.invalidateAll).rstN = s.rstN := rfl
@[simp] theorem State.invalidateAll_params (s : State) :
    (s.invalidateAll).params = s.params := rfl
@[simp] theorem State.invalidateAll_cmdq (s : State) :
    (s.invalidateAll).cmdq = s.cmdq := rfl
@[simp] theorem State.invalidateAll_status (s : State) :
    (s.invalidateAll).status = ({ s.status with vSamp := false, vDbits := false, vFrames := false, vPm := false, vPack := false, pkr := false, diag := false } : Status) := rfl
@[simp] theorem State.invalidateAll_nLen (s : State) :
    (s.invalidateAll).nLen = s.nLen := rfl
@[simp] theorem State.invalidateAll_packStart (s : State) :
    (s.invalidateAll).packStart = s.packStart := rfl
@[simp] theorem State.invalidateAll_packLen (s : State) :
    (s.invalidateAll).packLen = s.packLen := rfl
@[simp] theorem State.invalidateAll_sampleCount (s : State) :
    (s.invalidateAll).sampleCount = 0 := rfl
@[simp] theorem State.invalidateAll_markerCount (s : State) :
    (s.invalidateAll).markerCount = 0 := rfl
@[simp] theorem State.invalidateAll_bitCount (s : State) :
    (s.invalidateAll).bitCount = 0 := rfl
@[simp] theorem State.invalidateAll_frameCount (s : State) :
    (s.invalidateAll).frameCount = 0 := rfl
@[simp] theorem State.invalidateAll_frameMinLen (s : State) :
    (s.invalidateAll).frameMinLen = 0 := rfl
@[simp] theorem State.invalidateAll_frameMaxLen (s : State) :
    (s.invalidateAll).frameMaxLen = 0 := rfl
@[simp] theorem State.invalidateAll_pmCount (s : State) :
    (s.invalidateAll).pmCount = 0 := rfl
@[simp] theorem State.invalidateAll_packBytes (s : State) :
    (s.invalidateAll).packBytes = 0 := rfl
@[simp] theorem State.invalidateAll_diagPrefixLen (s : State) :
    (s.invalidateAll).diagPrefixLen = 0 := rfl
@[simp] theorem State.invalidateAll_diagHeadLen (s : State) :
    (s.invalidateAll).diagHeadLen = 0 := rfl
@[simp] theorem State.invalidateAll_inp (s : State) :
    (s.invalidateAll).inp = s.inp := rfl
@[simp] theorem State.invalidateAll_samp (s : State) :
    (s.invalidateAll).samp = s.samp := rfl
@[simp] theorem State.invalidateAll_dbits (s : State) :
    (s.invalidateAll).dbits = s.dbits := rfl
@[simp] theorem State.invalidateAll_ftab (s : State) :
    (s.invalidateAll).ftab = s.ftab := rfl
@[simp] theorem State.invalidateAll_pmtab (s : State) :
    (s.invalidateAll).pmtab = s.pmtab := rfl
@[simp] theorem State.invalidateAll_pout (s : State) :
    (s.invalidateAll).pout = s.pout := rfl

/-! ## `State.enterReset` -/

@[simp] theorem State.enterReset_env (s : State) (h : Bool) :
    (s.enterReset h).env = s.env := rfl
@[simp] theorem State.enterReset_resp (s : State) (h : Bool) :
    (s.enterReset h).resp = .idle := rfl
@[simp] theorem State.enterReset_draws (s : State) (h : Bool) :
    (s.enterReset h).draws = s.draws := rfl
@[simp] theorem State.enterReset_epoch (s : State) (h : Bool) :
    (s.enterReset h).epoch = s.epoch + 1 := rfl
@[simp] theorem State.enterReset_rstN (s : State) (h : Bool) :
    (s.enterReset h).rstN = h := rfl
@[simp] theorem State.enterReset_params (s : State) (h : Bool) :
    (s.enterReset h).params = s.params := rfl
@[simp] theorem State.enterReset_cmdq (s : State) (h : Bool) :
    (s.enterReset h).cmdq = 0 := rfl
@[simp] theorem State.enterReset_status (s : State) (h : Bool) :
    (s.enterReset h).status = Status.reset := rfl
@[simp] theorem State.enterReset_nLen (s : State) (h : Bool) :
    (s.enterReset h).nLen = 0 := rfl
@[simp] theorem State.enterReset_packStart (s : State) (h : Bool) :
    (s.enterReset h).packStart = 0 := rfl
@[simp] theorem State.enterReset_packLen (s : State) (h : Bool) :
    (s.enterReset h).packLen = 0 := rfl
@[simp] theorem State.enterReset_sampleCount (s : State) (h : Bool) :
    (s.enterReset h).sampleCount = 0 := rfl
@[simp] theorem State.enterReset_markerCount (s : State) (h : Bool) :
    (s.enterReset h).markerCount = 0 := rfl
@[simp] theorem State.enterReset_bitCount (s : State) (h : Bool) :
    (s.enterReset h).bitCount = 0 := rfl
@[simp] theorem State.enterReset_frameCount (s : State) (h : Bool) :
    (s.enterReset h).frameCount = 0 := rfl
@[simp] theorem State.enterReset_frameMinLen (s : State) (h : Bool) :
    (s.enterReset h).frameMinLen = 0 := rfl
@[simp] theorem State.enterReset_frameMaxLen (s : State) (h : Bool) :
    (s.enterReset h).frameMaxLen = 0 := rfl
@[simp] theorem State.enterReset_pmCount (s : State) (h : Bool) :
    (s.enterReset h).pmCount = 0 := rfl
@[simp] theorem State.enterReset_packBytes (s : State) (h : Bool) :
    (s.enterReset h).packBytes = 0 := rfl
@[simp] theorem State.enterReset_diagPrefixLen (s : State) (h : Bool) :
    (s.enterReset h).diagPrefixLen = 0 := rfl
@[simp] theorem State.enterReset_diagHeadLen (s : State) (h : Bool) :
    (s.enterReset h).diagHeadLen = 0 := rfl
@[simp] theorem State.enterReset_inp (s : State) (h : Bool) :
    (s.enterReset h).inp = [] := rfl
@[simp] theorem State.enterReset_samp (s : State) (h : Bool) :
    (s.enterReset h).samp = [] := rfl
@[simp] theorem State.enterReset_dbits (s : State) (h : Bool) :
    (s.enterReset h).dbits = [] := rfl
@[simp] theorem State.enterReset_ftab (s : State) (h : Bool) :
    (s.enterReset h).ftab = [] := rfl
@[simp] theorem State.enterReset_pmtab (s : State) (h : Bool) :
    (s.enterReset h).pmtab = [] := rfl
@[simp] theorem State.enterReset_pout (s : State) (h : Bool) :
    (s.enterReset h).pout = [] := rfl

end Sys2Proof.Machine
end

