-- ==== Sys2Proof/Laws/Steps.lean ====
section
/-! SUPPORT. Once for each shared operation, everything it can do: how a command finishes, what each body
answers, what exec, a host access and a step can answer. Later proofs cite these and do not unfold the
operations again. -/

namespace Sys2Proof.Machine

/-- A command that goes on either ended with its body's effect and code 0, or left everything but ERR, BUSY
and DONE as it was (60_exceptions.md R190, R191). -/
theorem finish_next {s t : State} {r : Except ErrCode State} (h : finish s r = .next t) :
    (∃ u, r = .ok u ∧ t = u.complete .ok) ∨ (∃ c, r = .error c ∧ t = s.complete c) := by
  cases r with
  | ok u => exact .inl ⟨u, rfl, by simpa [finish] using h.symm⟩
  | error c => exact .inr ⟨c, rfl, by simpa [finish, raiseCmdError] using h.symm⟩

@[simp] theorem finish_ok (s u : State) : finish s (.ok u) = .next (u.complete .ok) := rfl

@[simp] theorem finish_error (s : State) (c : ErrCode) : finish s (.error c) = .next (s.complete c) := rfl

/-! ## When each body succeeds, and with which code it fails -/

theorem extractBody_of_le {s : State} (h : s.nLen.toNat ≤ nMax s.params) :
    extractBody s = .ok (s.putSamples ((s.inBytes s.nLen.toNat).map extract)).invalidateAfterSamp :=
  if_pos h

theorem extractBody_of_gt {s : State} (h : nMax s.params < s.nLen.toNat) : extractBody s = .error .lenRange :=
  if_neg (Nat.not_le.mpr h)

theorem demodBody_of_valid {s : State} (h : s.status.vSamp = true) :
    demodBody s = .ok (s.putDbits (demod s.samples).1 (demod s.samples).2).invalidateAfterDbits :=
  if_pos h

theorem demodBody_of_invalid {s : State} (h : s.status.vSamp = false) : demodBody s = .error .seq :=
  if_neg (by simp [h])

theorem fsyncBody_of_valid {s : State} (h : s.status.vDbits = true) :
    fsyncBody s = .ok (s.putFrames s.decodedBits.length (fsync s.params.sync s.decodedBits)) :=
  if_pos h

theorem fsyncBody_of_invalid {s : State} (h : s.status.vDbits = false) : fsyncBody s = .error .seq :=
  if_neg (by simp [h])

theorem pcorrBody_of_valid {s : State} (h : s.status.vDbits = true) :
    pcorrBody s = .ok (s.putPartials (pcorr s.params.sync s.decodedBits)) :=
  if_pos h

theorem pcorrBody_of_invalid {s : State} (h : s.status.vDbits = false) : pcorrBody s = .error .seq :=
  if_neg (by simp [h])

theorem packfBody_of_valid {s : State} (h : s.status.vFrames = true) :
    packfBody s = .ok (s.putPacked false (packFrames s.frames s.decodedBits)) :=
  if_pos h

theorem packfBody_of_invalid {s : State} (h : s.status.vFrames = false) : packfBody s = .error .seq :=
  if_neg (by simp [h])

theorem packrBody_of_valid {s : State} (h : s.status.vDbits = true)
    (hr : s.packStart.toNat + s.packLen.toNat ≤ s.bitCount.toNat) :
    packrBody s = .ok (s.putPacked true (pack s.decodedBits s.packStart.toNat s.packLen.toNat)) :=
  (if_pos h).trans (if_pos hr)

theorem packrBody_of_range {s : State} (h : s.status.vDbits = true)
    (hr : s.bitCount.toNat < s.packStart.toNat + s.packLen.toNat) : packrBody s = .error .packRange :=
  (if_pos h).trans (if_neg (Nat.not_le.mpr hr))

theorem packrBody_of_invalid {s : State} (h : s.status.vDbits = false) : packrBody s = .error .seq :=
  if_neg (by simp [h])

/-! ## What a body that succeeds has done -/

theorem extractBody_ok {s t : State} (h : extractBody s = .ok t) :
    s.nLen.toNat ≤ nMax s.params ∧
      t = (s.putSamples ((s.inBytes s.nLen.toNat).map extract)).invalidateAfterSamp := by
  unfold extractBody at h
  split at h
  · exact ⟨‹_›, by simpa using h.symm⟩
  · cases h

theorem demodBody_ok {s t : State} (h : demodBody s = .ok t) :
    s.status.vSamp = true ∧
      t = (s.putDbits (demod s.samples).1 (demod s.samples).2).invalidateAfterDbits := by
  unfold demodBody at h
  split at h
  · exact ⟨‹_›, by simpa using h.symm⟩
  · cases h

theorem fsyncBody_ok {s t : State} (h : fsyncBody s = .ok t) :
    s.status.vDbits = true ∧
      t = s.putFrames s.decodedBits.length (fsync s.params.sync s.decodedBits) := by
  unfold fsyncBody at h
  split at h
  · exact ⟨‹_›, by simpa using h.symm⟩
  · cases h

theorem pcorrBody_ok {s t : State} (h : pcorrBody s = .ok t) :
    s.status.vDbits = true ∧ t = s.putPartials (pcorr s.params.sync s.decodedBits) := by
  unfold pcorrBody at h
  split at h
  · exact ⟨‹_›, by simpa using h.symm⟩
  · cases h

theorem packfBody_ok {s t : State} (h : packfBody s = .ok t) :
    s.status.vFrames = true ∧ t = s.putPacked false (packFrames s.frames s.decodedBits) := by
  unfold packfBody at h
  split at h
  · exact ⟨‹_›, by simpa using h.symm⟩
  · cases h

theorem packrBody_ok {s t : State} (h : packrBody s = .ok t) :
    s.status.vDbits = true ∧ s.packStart.toNat + s.packLen.toNat ≤ s.bitCount.toNat ∧
      t = s.putPacked true (pack s.decodedBits s.packStart.toNat s.packLen.toNat) := by
  unfold packrBody at h
  split at h
  · split at h
    · exact ⟨‹_›, ‹_›, by simpa using h.symm⟩
    · cases h
  · cases h

/-- RUN's body is its five members' bodies in order (44_control.md R176). -/
theorem runBody_ok {s t : State} (h : runBody s = .ok t) :
    ∃ s1 s2 s3 s4, extractBody s = .ok s1 ∧ demodBody s1 = .ok s2 ∧ fsyncBody s2 = .ok s3 ∧
      pcorrBody s3 = .ok s4 ∧ packfBody s4 = .ok t := by
  simp only [runBody, bind, Except.bind] at h
  split at h
  · cases h
  split at h
  · cases h
  split at h
  · cases h
  split at h
  · cases h
  exact ⟨_, _, _, _, ‹_›, ‹_›, ‹_›, ‹_›, h⟩

/-- RUN fails only as EXTRACT does: each member sets the valid bit the next one needs (R176). -/
theorem runBody_eq (s : State) :
    runBody s = (extractBody s).map fun s1 =>
      let s2 := (s1.putDbits (demod s1.samples).1 (demod s1.samples).2).invalidateAfterDbits
      let s3 := s2.putFrames s2.decodedBits.length (fsync s2.params.sync s2.decodedBits)
      let s4 := s3.putPartials (pcorr s3.params.sync s3.decodedBits)
      s4.putPacked false (packFrames s4.frames s4.decodedBits) := by
  unfold runBody
  cases h : extractBody s with
  | error c => rfl
  | ok s1 =>
    have hv : s1.status.vSamp = true := by
      obtain ⟨-, rfl⟩ := extractBody_ok h
      simp
    simp [bind, Except.bind, Except.map, demodBody, fsyncBody, pcorrBody, packfBody, hv]

/-- The body each command runs between its accept and its completion. -/
def bodyOf (i : Instr) (s : State) : Except ErrCode State :=
  match i with
  | .nop => .ok s
  | .extract => extractBody s
  | .demod => demodBody s
  | .fsync => fsyncBody s
  | .pcorr => pcorrBody s
  | .packf => packfBody s
  | .packr => packrBody s
  | .run => runBody s
  | .clear => .ok s.invalidateAll

/-- Every command is its body and one completion (10_state.md R21), so `finish_next` says all it can do. -/
theorem exec_eq_finish (i : Instr) (s : State) : exec i s = finish s (bodyOf i s) := by
  cases i <;> rfl

/-- What a Complete step is: the decoded command's body, or ILLEGAL (30_encoding.md R92, R93). -/
theorem completeStep_eq (s : State) :
    (∃ i, decode s.cmdq = .ok i ∧ completeStep s = finish s (bodyOf i s)) ∨
      (∃ e, decode s.cmdq = .error e ∧ completeStep s = .next (s.complete .illegal)) := by
  unfold completeStep
  cases h : decode s.cmdq with
  | ok i => exact .inl ⟨i, rfl, exec_eq_finish i s⟩
  | error e => exact .inr ⟨e, rfl, rfl⟩

/-- What a turn of the sequencer can do: a Complete step, or nothing (10_state.md R21). -/
theorem sequencerTurn_cases (s : State) :
    (s.rstN = true ∧ s.status.busy = true ∧ sequencerTurn s = completeStep s) ∨
      ((s.rstN = false ∨ s.status.busy = false) ∧ sequencerTurn s = .next s) := by
  unfold sequencerTurn
  cases h1 : s.rstN <;> cases h2 : s.status.busy <;> simp

/-- What a step can do: a turn of the sequencer, a host access, a bus transaction or a level of the reset
pin. -/
theorem step_cases {s t : State} (h : step s = .next t) :
    (s.env = [] ∧ sequencerTurn s = .next t) ∨
      ∃ e rest, s.env = e :: rest ∧
        ((e = .sequencer ∧ sequencerTurn (s.setEnv rest) = .next t) ∨
          (∃ a, e = .host a ∧ t = hostAccess (s.setEnv rest) a) ∨
          (∃ a, e = .bus a ∧ t = busAccess (s.setEnv rest) a) ∨
          (∃ high, e = .rst high ∧ t = setRst (s.setEnv rest) high)) := by
  unfold step machineStep at h
  split at h
  · exact .inl ⟨‹_›, h⟩
  · rename_i e rest he
    refine .inr ⟨e, rest, he, ?_⟩
    cases e with
    | host a => exact .inr (.inl ⟨a, rfl, by simpa [eventStep] using h.symm⟩)
    | bus a => exact .inr (.inr (.inl ⟨a, rfl, by simpa [eventStep] using h.symm⟩))
    | sequencer => exact .inl ⟨rfl, by simpa [eventStep] using h⟩
    | rst high => exact .inr (.inr (.inr ⟨high, rfl, by simpa [eventStep] using h.symm⟩))

/-- A bus transaction is a host access or is not the block's (20_memory.md R76). -/
theorem busAccess_cases (s : State) (a : BusAccess) :
    (∃ acc, a.decode s.params = some acc ∧ busAccess s a = hostAccess s acc) ∨
      (a.decode s.params = none ∧ busAccess s a = s.answer .noAnswer) := by
  unfold busAccess
  cases h : a.decode s.params with
  | some acc => exact .inl ⟨acc, rfl, rfl⟩
  | none => exact .inr ⟨rfl, rfl⟩

/-- A host write of a register or of IN that finds the block idle: it stores one operand register or IN
bytes, clears BWERR, issues a command, or does nothing. -/
theorem idleWrite_cases (s : State) (sp : Space) (off n : Nat) (w : Word) :
    s.idleWrite sp off n w = s ∨ s.idleWrite sp off n w = s.accept w ∨
      s.idleWrite sp off n w = writeStatus s w ∨ s.idleWrite sp off n w = s.setNLen w ∨
      s.idleWrite sp off n w = s.setPackStart w ∨ s.idleWrite sp off n w = s.setPackLen w ∨
      (sp = .inp ∧ s.idleWrite sp off n w = s.writeIn off n w) := by
  cases sp <;> simp only [State.idleWrite, true_or, or_true, and_self]
  split
  · rename_i r _
    cases r <;> simp [State.writeReg]
  · simp

/-- What a host access can do: only its answer and the draw count, or one write's effect (20_memory.md
R67, R68). -/
theorem hostAccess_cases (s : State) (a : Access) :
    (∃ r, hostAccess s a = s.answer r) ∨
      (∃ sp off n w, a = .write sp off n w ∧ s.rstN = true ∧ accessOk s.params sp true off n = true ∧
        hostAccess s a = (s.hostStore sp off n w).answer .written) := by
  unfold hostAccess
  cases hr : s.rstN with
  | false => exact .inl ⟨_, rfl⟩
  | true =>
    cases a with
    | read sp off n => exact .inl ⟨_, rfl⟩
    | write sp off n w =>
      cases ho : accessOk s.params sp true off n with
      | false => exact .inl ⟨.writeError, by simp [ho]⟩
      | true => exact .inr ⟨sp, off, n, w, rfl, rfl, ho, by simp [ho]⟩

/-- What a write that is no bus error does: STATUS, the busy-write bit, or the idle write (R68). -/
theorem hostStore_cases (s : State) (sp : Space) (off n : Nat) (w : Word) :
    s.hostStore sp off n w = writeStatus s w ∨
      (s.status.busy = true ∧ s.hostStore sp off n w = s.setBwerr true) ∨
      (s.status.busy = false ∧ s.hostStore sp off n w = s.idleWrite sp off n w) := by
  unfold State.hostStore
  cases isStatusWrite sp off <;> cases h : s.status.busy <;> simp

theorem writeStatus_cases (s : State) (w : Word) : writeStatus s w = s ∨ writeStatus s w = s.setBwerr false := by
  unfold writeStatus
  split <;> simp

/-- A level of the reset pin changes nothing or is a reset edge (R211). -/
theorem setRst_cases (s : State) (high : Bool) :
    (high = true ∧ s.rstN = true ∧ setRst s high = s) ∨ setRst s high = s.enterReset high := by
  unfold setRst
  cases high <;> cases h : s.rstN <;> simp

end Sys2Proof.Machine
end

