-- ==== Sys2Proof/Laws/Stages.lean ====
section
/-! SUPPORT. Reading a stage's results: what each stage writes is read back whole, and an update that does
not touch a stage's buffer and count leaves its results as they read before. -/

namespace Sys2Proof.Machine

@[simp] theorem bit0_bitByte (b : Bool) : bit0 (bitByte b) = b := by cases b <;> decide

theorem State.samples_length (s : State) : s.samples.length = s.sampleCount.toNat := by simp [State.samples]
theorem State.dbitBytes_length (s : State) : s.dbitBytes.length = s.bitCount.toNat := by simp [State.dbitBytes]
theorem State.decodedBits_length (s : State) : s.decodedBits.length = s.bitCount.toNat := by
  simp [State.decodedBits, State.dbitBytes]
theorem State.frames_length (s : State) : s.frames.length = s.frameCount.toNat := by simp [State.frames]
theorem State.partials_length (s : State) : s.partials.length = s.pmCount.toNat := by simp [State.partials]
theorem State.packed_length (s : State) : s.packed.length = s.packBytes.toNat := by simp [State.packed]

/-! ## What a stage writes is read back -/

theorem State.samples_putSamples (s : State) (bs : List Byte) (h : bs.length < 2 ^ 32) :
    (s.putSamples bs).samples = bs := by
  rw [State.samples, State.putSamples_sampleCount, toWord_toNat _ h]
  exact map_bufByte_overlay _ _ _ _

theorem State.dbitBytes_putDbits (s : State) (bits : Bits) (m : Nat) (h : bits.length < 2 ^ 32) :
    (s.putDbits bits m).dbitBytes = bits.map bitByte := by
  have := map_bufByte_overlay s.epoch .dbits s.dbits (bits.map bitByte)
  rw [State.dbitBytes, State.putDbits_bitCount, toWord_toNat _ h]
  rwa [List.length_map] at this

theorem State.decodedBits_putDbits (s : State) (bits : Bits) (m : Nat) (h : bits.length < 2 ^ 32) :
    (s.putDbits bits m).decodedBits = bits := by
  rw [State.decodedBits, State.dbitBytes_putDbits _ _ _ h]
  simp [Function.comp_def]

theorem map_table_overlay {α : Type} (es old : List α) (dflt : Nat → α) :
    (List.range es.length).map (fun k => ((tableOverlay es old)[k]?).getD (dflt k)) = es := by
  refine List.ext_getElem (by simp) fun i h1 h2 => ?_
  simp [tableOverlay_getElem?_lt es old i h2]

theorem frameTableFrom_length (k : Nat) (fs : List (Nat × Nat)) : (frameTableFrom k fs).length = fs.length := by
  induction fs generalizing k with
  | nil => rfl
  | cons f rest ih => simp [frameTableFrom, ih]

@[simp] theorem frameTable_length (fs : List (Nat × Nat)) : (frameTable fs).length = fs.length :=
  frameTableFrom_length 0 fs

theorem State.frames_putFrames (s : State) (n : Nat) (fs : List (Nat × Nat)) (h : fs.length < 2 ^ 32) :
    (s.putFrames n fs).frames = frameTable fs := by
  have := map_table_overlay (frameTable fs) s.ftab fun k =>
    { start := Config.powerOnWord s.epoch .ftab (entryBytes * k)
      stop := Config.powerOnWord s.epoch .ftab (entryBytes * k + 4)
      poff := Config.powerOnWord s.epoch .ftab (entryBytes * k + 8)
      pbytes := Config.powerOnWord s.epoch .ftab (entryBytes * k + 12) : FrameEntry }
  rw [State.frames, State.putFrames_frameCount, toWord_toNat _ h]
  rwa [frameTable_length] at this

theorem State.partials_putPartials (s : State) (es : List PmEntry) (h : es.length < 2 ^ 32) :
    (s.putPartials es).partials = es := by
  rw [State.partials, State.putPartials_pmCount, toWord_toNat _ h]
  exact map_table_overlay es s.pmtab _

theorem State.packed_putPacked (s : State) (r : Bool) (bs : List Byte) (h : bs.length < 2 ^ 32) :
    (s.putPacked r bs).packed = bs := by
  rw [State.packed, State.putPacked_packBytes, toWord_toNat _ h]
  exact map_bufByte_overlay _ _ _ _

/-! ## What an update leaves -/

@[simp] theorem State.setEnv_samples (s : State) (e : List Event) : (s.setEnv e).samples = s.samples := rfl
@[simp] theorem State.setEnv_dbitBytes (s : State) (e : List Event) : (s.setEnv e).dbitBytes = s.dbitBytes := rfl
@[simp] theorem State.setEnv_decodedBits (s : State) (e : List Event) : (s.setEnv e).decodedBits = s.decodedBits := rfl
@[simp] theorem State.setEnv_frames (s : State) (e : List Event) : (s.setEnv e).frames = s.frames := rfl
@[simp] theorem State.setEnv_partials (s : State) (e : List Event) : (s.setEnv e).partials = s.partials := rfl
@[simp] theorem State.setEnv_packed (s : State) (e : List Event) : (s.setEnv e).packed = s.packed := rfl
@[simp] theorem State.setEnv_inBytes (s : State) (e : List Event) (k : Nat) : (s.setEnv e).inBytes k = s.inBytes k := rfl
@[simp] theorem State.answer_samples (s : State) (r : BusResp) : (s.answer r).samples = s.samples := rfl
@[simp] theorem State.answer_dbitBytes (s : State) (r : BusResp) : (s.answer r).dbitBytes = s.dbitBytes := rfl
@[simp] theorem State.answer_decodedBits (s : State) (r : BusResp) : (s.answer r).decodedBits = s.decodedBits := rfl
@[simp] theorem State.answer_frames (s : State) (r : BusResp) : (s.answer r).frames = s.frames := rfl
@[simp] theorem State.answer_partials (s : State) (r : BusResp) : (s.answer r).partials = s.partials := rfl
@[simp] theorem State.answer_packed (s : State) (r : BusResp) : (s.answer r).packed = s.packed := rfl
@[simp] theorem State.answer_inBytes (s : State) (r : BusResp) (k : Nat) : (s.answer r).inBytes k = s.inBytes k := rfl
@[simp] theorem State.accept_samples (s : State) (w : Word) : (s.accept w).samples = s.samples := rfl
@[simp] theorem State.accept_dbitBytes (s : State) (w : Word) : (s.accept w).dbitBytes = s.dbitBytes := rfl
@[simp] theorem State.accept_decodedBits (s : State) (w : Word) : (s.accept w).decodedBits = s.decodedBits := rfl
@[simp] theorem State.accept_frames (s : State) (w : Word) : (s.accept w).frames = s.frames := rfl
@[simp] theorem State.accept_partials (s : State) (w : Word) : (s.accept w).partials = s.partials := rfl
@[simp] theorem State.accept_packed (s : State) (w : Word) : (s.accept w).packed = s.packed := rfl
@[simp] theorem State.accept_inBytes (s : State) (w : Word) (k : Nat) : (s.accept w).inBytes k = s.inBytes k := rfl
@[simp] theorem State.complete_samples (s : State) (c : ErrCode) : (s.complete c).samples = s.samples := rfl
@[simp] theorem State.complete_dbitBytes (s : State) (c : ErrCode) : (s.complete c).dbitBytes = s.dbitBytes := rfl
@[simp] theorem State.complete_decodedBits (s : State) (c : ErrCode) : (s.complete c).decodedBits = s.decodedBits := rfl
@[simp] theorem State.complete_frames (s : State) (c : ErrCode) : (s.complete c).frames = s.frames := rfl
@[simp] theorem State.complete_partials (s : State) (c : ErrCode) : (s.complete c).partials = s.partials := rfl
@[simp] theorem State.complete_packed (s : State) (c : ErrCode) : (s.complete c).packed = s.packed := rfl
@[simp] theorem State.complete_inBytes (s : State) (c : ErrCode) (k : Nat) : (s.complete c).inBytes k = s.inBytes k := rfl
@[simp] theorem State.setBwerr_samples (s : State) (b : Bool) : (s.setBwerr b).samples = s.samples := rfl
@[simp] theorem State.setBwerr_dbitBytes (s : State) (b : Bool) : (s.setBwerr b).dbitBytes = s.dbitBytes := rfl
@[simp] theorem State.setBwerr_decodedBits (s : State) (b : Bool) : (s.setBwerr b).decodedBits = s.decodedBits := rfl
@[simp] theorem State.setBwerr_frames (s : State) (b : Bool) : (s.setBwerr b).frames = s.frames := rfl
@[simp] theorem State.setBwerr_partials (s : State) (b : Bool) : (s.setBwerr b).partials = s.partials := rfl
@[simp] theorem State.setBwerr_packed (s : State) (b : Bool) : (s.setBwerr b).packed = s.packed := rfl
@[simp] theorem State.setBwerr_inBytes (s : State) (b : Bool) (k : Nat) : (s.setBwerr b).inBytes k = s.inBytes k := rfl
@[simp] theorem State.setNLen_samples (s : State) (w : Word) : (s.setNLen w).samples = s.samples := rfl
@[simp] theorem State.setNLen_dbitBytes (s : State) (w : Word) : (s.setNLen w).dbitBytes = s.dbitBytes := rfl
@[simp] theorem State.setNLen_decodedBits (s : State) (w : Word) : (s.setNLen w).decodedBits = s.decodedBits := rfl
@[simp] theorem State.setNLen_frames (s : State) (w : Word) : (s.setNLen w).frames = s.frames := rfl
@[simp] theorem State.setNLen_partials (s : State) (w : Word) : (s.setNLen w).partials = s.partials := rfl
@[simp] theorem State.setNLen_packed (s : State) (w : Word) : (s.setNLen w).packed = s.packed := rfl
@[simp] theorem State.setNLen_inBytes (s : State) (w : Word) (k : Nat) : (s.setNLen w).inBytes k = s.inBytes k := rfl
@[simp] theorem State.setPackStart_samples (s : State) (w : Word) : (s.setPackStart w).samples = s.samples := rfl
@[simp] theorem State.setPackStart_dbitBytes (s : State) (w : Word) : (s.setPackStart w).dbitBytes = s.dbitBytes := rfl
@[simp] theorem State.setPackStart_decodedBits (s : State) (w : Word) : (s.setPackStart w).decodedBits = s.decodedBits := rfl
@[simp] theorem State.setPackStart_frames (s : State) (w : Word) : (s.setPackStart w).frames = s.frames := rfl
@[simp] theorem State.setPackStart_partials (s : State) (w : Word) : (s.setPackStart w).partials = s.partials := rfl
@[simp] theorem State.setPackStart_packed (s : State) (w : Word) : (s.setPackStart w).packed = s.packed := rfl
@[simp] theorem State.setPackStart_inBytes (s : State) (w : Word) (k : Nat) : (s.setPackStart w).inBytes k = s.inBytes k := rfl
@[simp] theorem State.setPackLen_samples (s : State) (w : Word) : (s.setPackLen w).samples = s.samples := rfl
@[simp] theorem State.setPackLen_dbitBytes (s : State) (w : Word) : (s.setPackLen w).dbitBytes = s.dbitBytes := rfl
@[simp] theorem State.setPackLen_decodedBits (s : State) (w : Word) : (s.setPackLen w).decodedBits = s.decodedBits := rfl
@[simp] theorem State.setPackLen_frames (s : State) (w : Word) : (s.setPackLen w).frames = s.frames := rfl
@[simp] theorem State.setPackLen_partials (s : State) (w : Word) : (s.setPackLen w).partials = s.partials := rfl
@[simp] theorem State.setPackLen_packed (s : State) (w : Word) : (s.setPackLen w).packed = s.packed := rfl
@[simp] theorem State.setPackLen_inBytes (s : State) (w : Word) (k : Nat) : (s.setPackLen w).inBytes k = s.inBytes k := rfl
@[simp] theorem State.putIn_samples (s : State) (o : Nat) (b : Byte) : (s.putIn o b).samples = s.samples := rfl
@[simp] theorem State.putIn_dbitBytes (s : State) (o : Nat) (b : Byte) : (s.putIn o b).dbitBytes = s.dbitBytes := rfl
@[simp] theorem State.putIn_decodedBits (s : State) (o : Nat) (b : Byte) : (s.putIn o b).decodedBits = s.decodedBits := rfl
@[simp] theorem State.putIn_frames (s : State) (o : Nat) (b : Byte) : (s.putIn o b).frames = s.frames := rfl
@[simp] theorem State.putIn_partials (s : State) (o : Nat) (b : Byte) : (s.putIn o b).partials = s.partials := rfl
@[simp] theorem State.putIn_packed (s : State) (o : Nat) (b : Byte) : (s.putIn o b).packed = s.packed := rfl
@[simp] theorem State.putSamples_dbitBytes (s : State) (bs : List Byte) : (s.putSamples bs).dbitBytes = s.dbitBytes := rfl
@[simp] theorem State.putSamples_decodedBits (s : State) (bs : List Byte) : (s.putSamples bs).decodedBits = s.decodedBits := rfl
@[simp] theorem State.putSamples_frames (s : State) (bs : List Byte) : (s.putSamples bs).frames = s.frames := rfl
@[simp] theorem State.putSamples_partials (s : State) (bs : List Byte) : (s.putSamples bs).partials = s.partials := rfl
@[simp] theorem State.putSamples_packed (s : State) (bs : List Byte) : (s.putSamples bs).packed = s.packed := rfl
@[simp] theorem State.putSamples_inBytes (s : State) (bs : List Byte) (k : Nat) : (s.putSamples bs).inBytes k = s.inBytes k := rfl
@[simp] theorem State.putDbits_samples (s : State) (bits : Bits) (m : Nat) : (s.putDbits bits m).samples = s.samples := rfl
@[simp] theorem State.putDbits_frames (s : State) (bits : Bits) (m : Nat) : (s.putDbits bits m).frames = s.frames := rfl
@[simp] theorem State.putDbits_partials (s : State) (bits : Bits) (m : Nat) : (s.putDbits bits m).partials = s.partials := rfl
@[simp] theorem State.putDbits_packed (s : State) (bits : Bits) (m : Nat) : (s.putDbits bits m).packed = s.packed := rfl
@[simp] theorem State.putDbits_inBytes (s : State) (bits : Bits) (m : Nat) (k : Nat) : (s.putDbits bits m).inBytes k = s.inBytes k := rfl
@[simp] theorem State.putFrames_samples (s : State) (n : Nat) (fs : List (Nat × Nat)) : (s.putFrames n fs).samples = s.samples := rfl
@[simp] theorem State.putFrames_dbitBytes (s : State) (n : Nat) (fs : List (Nat × Nat)) : (s.putFrames n fs).dbitBytes = s.dbitBytes := rfl
@[simp] theorem State.putFrames_decodedBits (s : State) (n : Nat) (fs : List (Nat × Nat)) : (s.putFrames n fs).decodedBits = s.decodedBits := rfl
@[simp] theorem State.putFrames_partials (s : State) (n : Nat) (fs : List (Nat × Nat)) : (s.putFrames n fs).partials = s.partials := rfl
@[simp] theorem State.putFrames_packed (s : State) (n : Nat) (fs : List (Nat × Nat)) : (s.putFrames n fs).packed = s.packed := rfl
@[simp] theorem State.putFrames_inBytes (s : State) (n : Nat) (fs : List (Nat × Nat)) (k : Nat) : (s.putFrames n fs).inBytes k = s.inBytes k := rfl
@[simp] theorem State.putPartials_samples (s : State) (es : List PmEntry) : (s.putPartials es).samples = s.samples := rfl
@[simp] theorem State.putPartials_dbitBytes (s : State) (es : List PmEntry) : (s.putPartials es).dbitBytes = s.dbitBytes := rfl
@[simp] theorem State.putPartials_decodedBits (s : State) (es : List PmEntry) : (s.putPartials es).decodedBits = s.decodedBits := rfl
@[simp] theorem State.putPartials_frames (s : State) (es : List PmEntry) : (s.putPartials es).frames = s.frames := rfl
@[simp] theorem State.putPartials_packed (s : State) (es : List PmEntry) : (s.putPartials es).packed = s.packed := rfl
@[simp] theorem State.putPartials_inBytes (s : State) (es : List PmEntry) (k : Nat) : (s.putPartials es).inBytes k = s.inBytes k := rfl
@[simp] theorem State.putPacked_samples (s : State) (r : Bool) (bs : List Byte) : (s.putPacked r bs).samples = s.samples := rfl
@[simp] theorem State.putPacked_dbitBytes (s : State) (r : Bool) (bs : List Byte) : (s.putPacked r bs).dbitBytes = s.dbitBytes := rfl
@[simp] theorem State.putPacked_decodedBits (s : State) (r : Bool) (bs : List Byte) : (s.putPacked r bs).decodedBits = s.decodedBits := rfl
@[simp] theorem State.putPacked_frames (s : State) (r : Bool) (bs : List Byte) : (s.putPacked r bs).frames = s.frames := rfl
@[simp] theorem State.putPacked_partials (s : State) (r : Bool) (bs : List Byte) : (s.putPacked r bs).partials = s.partials := rfl
@[simp] theorem State.putPacked_inBytes (s : State) (r : Bool) (bs : List Byte) (k : Nat) : (s.putPacked r bs).inBytes k = s.inBytes k := rfl
@[simp] theorem State.invalidateAfterDbits_samples (s : State) : (s.invalidateAfterDbits).samples = s.samples := rfl
@[simp] theorem State.invalidateAfterDbits_dbitBytes (s : State) : (s.invalidateAfterDbits).dbitBytes = s.dbitBytes := rfl
@[simp] theorem State.invalidateAfterDbits_decodedBits (s : State) : (s.invalidateAfterDbits).decodedBits = s.decodedBits := rfl
@[simp] theorem State.invalidateAfterDbits_inBytes (s : State) (k : Nat) : (s.invalidateAfterDbits).inBytes k = s.inBytes k := rfl
@[simp] theorem State.invalidateAfterSamp_samples (s : State) : (s.invalidateAfterSamp).samples = s.samples := rfl
@[simp] theorem State.invalidateAfterSamp_inBytes (s : State) (k : Nat) : (s.invalidateAfterSamp).inBytes k = s.inBytes k := rfl

end Sys2Proof.Machine
end

