-- ==== Sys2Proof/Laws/Bounds.lean ====
section
/-! SUPPORT. How long a stage's result can be, so that every count fits its 32-bit register
(70_reset_and_hazards.md R220). -/

namespace Sys2Proof.Machine

theorem Word_lt (w : Word) : w.toNat < 2 ^ 32 := w.isLt

theorem markers_length_le (S : List Byte) : (markers S).length ≤ S.length := by
  simpa [markers] using List.length_filter_le (fun i => isMarker (S.getD i 0)) (List.range S.length)

theorem demod_count_le (S : List Byte) : (demod S).2 ≤ S.length := markers_length_le S

theorem demod_length_le (S : List Byte) : (demod S).1.length ≤ S.length := by
  refine (List.length_filterMap_le _ _).trans ?_
  have := markers_length_le S
  simp only [intervals, List.length_zip, List.length_drop]
  omega

theorem matchAt_fits {sync : Word} {B : Bits} {i : Nat} (h : matchAt sync B i = true) : i + 32 ≤ B.length := by
  simp only [matchAt, Bool.and_eq_true, decide_eq_true_eq] at h
  exact h.1

/-- What the forward search of R137 finds. -/
theorem nextMatch_some {sync : Word} {B : Bits} {j k : Nat} (h : nextMatch sync B j = some k) :
    j ≤ k ∧ matchAt sync B k = true := by
  refine ⟨?_, List.find?_some h⟩
  have := List.mem_of_find?_eq_some h
  rw [List.mem_range'_1] at this
  exact this.1

/-- Where the forward search of R137 stops: at a match from `j` on, or at the end. -/
theorem nextMatch_getD {sync : Word} {B : Bits} {j : Nat} (h : j ≤ B.length) :
    j ≤ (nextMatch sync B j).getD B.length ∧ (nextMatch sync B j).getD B.length ≤ B.length := by
  cases hn : nextMatch sync B j with
  | none => exact ⟨h, Nat.le_refl _⟩
  | some k =>
    obtain ⟨h1, h2⟩ := nextMatch_some hn
    have := matchAt_fits h2
    simp only [Option.getD_some]
    omega

/-- The frames from position `i` lie in order between `i` and the end, each at least 32 bits long, so their
lengths add up to no more than what is left. -/
theorem fsyncFrom_bounds (sync : Word) (B : Bits) (fuel i : Nat) (hi : i ≤ B.length) :
    (∀ f ∈ fsyncFrom sync B fuel i, i ≤ f.1 ∧ f.1 + 32 ≤ f.2 ∧ f.2 ≤ B.length) ∧
      32 * (fsyncFrom sync B fuel i).length ≤ B.length - i ∧
      ((fsyncFrom sync B fuel i).map frameLen).sum ≤ B.length - i := by
  induction fuel generalizing i with
  | zero => simp [fsyncFrom]
  | succ fuel ih =>
    unfold fsyncFrom
    split
    · rename_i hfit
      split
      · obtain ⟨h1, h2⟩ := nextMatch_getD (sync := sync) hfit
        obtain ⟨g1, g2, g3⟩ := ih _ h2
        simp only [syncLen] at *
        refine ⟨fun f hf => ?_, ?_, ?_⟩
        · rcases List.mem_cons.mp hf with rfl | hf
          · exact ⟨Nat.le_refl _, h1, h2⟩
          · have := g1 f hf
            omega
        · simp only [List.length_cons]
          omega
        · simp only [List.map_cons, List.sum_cons, frameLen] at *
          omega
      · simp only [syncLen] at hfit
        obtain ⟨g1, g2, g3⟩ := ih (i + 1) (by omega)
        refine ⟨fun f hf => ?_, by omega, by omega⟩
        have := g1 f hf
        omega
    · simp

theorem fsync_mem {sync : Word} {B : Bits} {f : Nat × Nat} (h : f ∈ fsync sync B) :
    f.1 + 32 ≤ f.2 ∧ f.2 ≤ B.length :=
  ((fsyncFrom_bounds sync B B.length 0 (Nat.zero_le _)).1 f h).2

theorem fsync_length_le (sync : Word) (B : Bits) : 32 * (fsync sync B).length ≤ B.length :=
  (fsyncFrom_bounds sync B B.length 0 (Nat.zero_le _)).2.1

theorem fsync_sum_le (sync : Word) (B : Bits) : ((fsync sync B).map frameLen).sum ≤ B.length :=
  (fsyncFrom_bounds sync B B.length 0 (Nat.zero_le _)).2.2

/-- Packing rounds each frame up by less than a byte. -/
theorem bytesFor_sum_le (ls : List Nat) : 8 * (ls.map bytesFor).sum ≤ ls.sum + 7 * ls.length := by
  induction ls with
  | nil => simp
  | cons l rest ih =>
    simp only [List.map_cons, List.sum_cons, List.length_cons, bytesFor] at *
    omega

theorem pcorr_length_le (sync : Word) (B : Bits) : (pcorr sync B).length ≤ B.length - 23 := by
  simpa [pcorr] using List.length_filterMap_le
    (fun p => if corrThresh ≤ score sync B p then some (pmEntry sync B p) else none) (List.range (B.length - 23))

theorem packTurn_length (B : Bits) (s : Nat) (out : List Byte) (i : Nat) :
    (packTurn B s out i).length = out.length := by
  unfold packTurn
  split <;> simp

theorem foldl_packTurn_length (B : Bits) (s : Nat) (is : List Nat) (out : List Byte) :
    (is.foldl (packTurn B s) out).length = out.length := by
  induction is generalizing out with
  | nil => rfl
  | cons i rest ih => rw [List.foldl_cons, ih, packTurn_length]

/-- A packed region is `ceil(n / 8)` bytes long (43_pack.md R162). -/
theorem pack_length (B : Bits) (s n : Nat) : (pack B s n).length = bytesFor n := by
  rw [pack, foldl_packTurn_length, List.length_replicate]

/-- Each entry of a frame table holds its frame's bounds, when they fit a register. -/
theorem frameTableFrom_bounds (poff : Nat) (fs : List (Nat × Nat)) :
    (frameTableFrom poff fs).map (fun e => (e.start, e.stop)) = fs.map fun f => (toWord f.1, toWord f.2) := by
  induction fs generalizing poff with
  | nil => rfl
  | cons f rest ih => simp [frameTableFrom, ih]

/-- The packed stream's length is the sum of its frames' packed lengths. -/
theorem packFrames_length (es : List FrameEntry) (B : Bits) :
    (packFrames es B).length = (es.map fun e => bytesFor (e.stop.toNat - e.start.toNat)).sum := by
  simp [packFrames, List.length_flatMap, pack_length]

theorem packFrames_frameTable_length {sync : Word} {B : Bits} (hB : B.length < 2 ^ 32) :
    (packFrames (frameTable (fsync sync B)) B).length = (((fsync sync B).map frameLen).map bytesFor).sum := by
  have h := congrArg (List.map fun p : Word × Word => bytesFor (p.2.toNat - p.1.toNat))
    (frameTableFrom_bounds 0 (fsync sync B))
  simp only [List.map_map, Function.comp_def] at h
  rw [packFrames_length, frameTable, h, List.map_map]
  congr 1
  refine List.map_congr_left fun f hf => ?_
  obtain ⟨h1, h2⟩ := fsync_mem hf
  simp only [Function.comp_apply, frameLen]
  rw [toWord_toNat _ (by omega), toWord_toNat _ (by omega)]

/-- The packed frame stream of the decoded bits fits its count register, and POUT (00_scope.md R7). -/
theorem packFrames_frameTable_le {sync : Word} {B : Bits} (hB : B.length < 2 ^ 32) :
    (packFrames (frameTable (fsync sync B)) B).length ≤ B.length / 8 + (fsync sync B).length := by
  rw [packFrames_frameTable_length hB]
  have h1 := bytesFor_sum_le ((fsync sync B).map frameLen)
  have h2 := fsync_sum_le sync B
  rw [List.length_map] at h1
  omega

end Sys2Proof.Machine
end

