-- ==== Sys2Proof/Laws/Bus.lean ====
section
/-! SUPPORT. Host accesses: which are bus errors, which offset of REG is which register, and one equation
for each case of a read and of a write, so that no proof unfolds `hostAccess` again. -/

namespace Sys2Proof.Machine

/-- The accesses that are no bus error (20_memory.md R61, R64 to R66), with the direction as a Bool. -/
theorem accessOk_iff (p : Params) (sp : Space) (isWrite : Bool) (off n : Nat) :
    accessOk p sp isWrite off n = true ↔
      (n = 4 ∨ (n = 1 ∧ sp ≠ .reg ∧ sp ≠ .ftab ∧ sp ≠ .pmtab)) ∧
      (isWrite = true → sp = .reg ∨ sp = .inp) ∧ (n = 4 → off % 4 = 0) ∧ off + n ≤ spaceSize p sp := by
  cases sp <;> cases isWrite <;> simp [accessOk, widthOk] <;> constructor <;> intro h <;> omega

/-- `apart` says exactly that no bus address lies in both spaces (20_memory.md R76, log entry 9). -/
theorem apart_iff_no_shared_address (p : Params) (a b : Space) :
    apart p a b = true ↔ ∀ addr, ¬ (inSpace p addr a = true ∧ inSpace p addr b = true) := by
  simp only [apart, inSpace, decide_eq_true_eq]
  constructor
  · intro h addr
    omega
  · intro h
    have ha := h (spaceBase p a)
    have hb := h (spaceBase p b)
    omega

/-- Each register stands at its own offset (10_state.md R24). -/
theorem regAt_regOffset (r : RegName) : regAt (regOffset r) = some r := by cases r <;> decide

/-- Only a register's own offset names it. -/
theorem regAt_eq_some {off : Nat} {r : RegName} (h : regAt off = some r) : off = regOffset r := by
  have h' : (regOffset r == off) = true := List.find?_some (p := fun r => regOffset r == off) h
  exact (beq_iff_eq.mp h').symm

/-- Beyond the last named register every offset is reserved (10_state.md R39). -/
theorem regAt_reserved {off : Nat} (h : 0x44 ≤ off) : regAt off = none := by
  simp only [regAt, List.find?_eq_none]
  intro r _
  cases r <;> simp [regOffset] <;> omega

theorem isStatusWrite_iff (sp : Space) (off : Nat) : isStatusWrite sp off = true ↔ sp = .reg ∧ off = 4 := by
  constructor
  · intro h
    simp only [isStatusWrite, Bool.and_eq_true, decide_eq_true_eq, beq_iff_eq] at h
    exact ⟨h.1, regAt_eq_some h.2⟩
  · rintro ⟨rfl, rfl⟩
    decide

theorem hostAccess_read {s : State} (h : s.rstN = true) (sp : Space) (off n : Nat) :
    hostAccess s (.read sp off n) = s.answer (s.hostRead sp off n (Config.draw s.draws)) := by
  simp only [hostAccess, h, if_true]

theorem hostRead_byte {s : State} {sp : Space} {off : Nat} (d : Word)
    (h : accessOk s.params sp false off 1 = true) :
    s.hostRead sp off 1 d = .byte (s.hostByte sp off (lane d 0)) := by
  simp only [State.hostRead, h, if_true]

theorem hostRead_word {s : State} {sp : Space} {off : Nat} (d : Word)
    (h : accessOk s.params sp false off 4 = true) :
    s.hostRead sp off 4 d = .word (s.hostWord sp off d) := by
  simp only [State.hostRead, h, if_true]
  rfl

theorem hostRead_error {s : State} {sp : Space} {off n : Nat} (d : Word)
    (h : accessOk s.params sp false off n = false) : s.hostRead sp off n d = .readError d := by
  simp only [State.hostRead, h]
  rfl

/-- A 4-byte read of a named register. -/
theorem hostRead_reg (s : State) (r : RegName) (d : Word) :
    s.hostRead .reg (regOffset r) 4 d = .word (s.readReg r d) := by
  have h : accessOk s.params .reg false (regOffset r) 4 = true := by
    rw [accessOk_iff]
    cases r <;> simp [regOffset, spaceSize]
  rw [hostRead_word d h]
  simp only [State.hostWord, State.hostRegWord, regAt_regOffset]

theorem hostAccess_write_error {s : State} (h : s.rstN = true) {sp : Space} {off n : Nat} (w : Word)
    (ho : accessOk s.params sp true off n = false) :
    hostAccess s (.write sp off n w) = s.answer .writeError := by
  simp only [hostAccess, h, if_true, ho]
  rfl

theorem hostAccess_write_ok {s : State} (h : s.rstN = true) {sp : Space} {off n : Nat} (w : Word)
    (ho : accessOk s.params sp true off n = true) :
    hostAccess s (.write sp off n w) = (s.hostStore sp off n w).answer .written := by
  simp only [hostAccess, h, if_true, ho]

theorem hostStore_busy {s : State} (hb : s.status.busy = true) {sp : Space} {off : Nat} (n : Nat) (w : Word)
    (hs : ¬ (sp = .reg ∧ off = 4)) : s.hostStore sp off n w = s.setBwerr true := by
  have : isStatusWrite sp off = false := by rwa [Bool.eq_false_iff, ne_eq, isStatusWrite_iff]
  simp only [State.hostStore, this, hb, if_true]
  rfl

theorem hostStore_idle {s : State} (hb : s.status.busy = false) {sp : Space} {off : Nat} (n : Nat) (w : Word)
    (hs : ¬ (sp = .reg ∧ off = 4)) : s.hostStore sp off n w = s.idleWrite sp off n w := by
  have : isStatusWrite sp off = false := by rwa [Bool.eq_false_iff, ne_eq, isStatusWrite_iff]
  simp only [State.hostStore, this, hb]
  rfl

theorem hostStore_status (s : State) (w : Word) : s.hostStore .reg 4 4 w = writeStatus s w := by
  have : isStatusWrite .reg 4 = true := by decide
  simp only [State.hostStore, this, if_true]

/-- An idle write of a named register. -/
theorem idleWrite_reg (s : State) (r : RegName) (w : Word) :
    s.idleWrite .reg (regOffset r) 4 w = s.writeReg r w := by
  simp only [State.idleWrite, regAt_regOffset]

/-- An idle write of a read-only register, SAMPLE_COUNT to CAP_NMAX, is ignored (10_state.md R24,
20_memory.md R66). -/
theorem idleWrite_readOnly (s : State) {off : Nat} (h : 0x14 ≤ off) (n : Nat) (w : Word) :
    s.idleWrite .reg off n w = s := by
  simp only [State.idleWrite]
  split
  · rename_i r hr
    obtain rfl := regAt_eq_some hr
    cases r <;> first | rfl | exact absurd h (by decide)
  · rfl

/-- A write at a bus address in no space of the block (20_memory.md R76, log entry 9). -/
theorem busAccess_write_elsewhere {s : State} {addr : Nat} (h : busDecode s.params addr = none) (n : Nat)
    (w : Word) : busAccess s (.write addr n w) = s.answer .noAnswer := by
  simp only [busAccess, BusAccess.decode, h, Option.map_none]

/-- While the reset pin is 0 the block answers nothing (70_reset_and_hazards.md R211). -/
theorem hostAccess_held {s : State} (h : s.rstN = false) (a : Access) : hostAccess s a = s.answer .noAnswer := by
  simp only [hostAccess, h]
  rfl

end Sys2Proof.Machine
end

