-- ==== Sys2Proof/Laws/Flags.lean ====
section
/-! SUPPORT. The bits of STATUS and of a little-endian word. -/

namespace Sys2Proof.Machine

/-- A one-bit field has its bit at its place and 0 elsewhere. -/
theorem bitAt_getLsbD (k j : Nat) (b : Bool) (hj : j < 32) : (bitAt k b).getLsbD j = (b && decide (j = k)) := by
  cases b
  · simp [bitAt]
  · simp only [bitAt, BitVec.getLsbD_ofNat, hj, decide_true, Bool.true_and, Bool.toNat_true, Nat.testBit_shiftLeft]
    by_cases h : j = k
    · subst h
      simp
    · by_cases hk : k ≤ j
      · simp [h, Nat.testBit_lt_two_pow (Nat.one_lt_two_pow (show j - k ≠ 0 by omega))]
      · simp [h, hk]

/-- The ERR field of STATUS, bits 7:4 (60_exceptions.md R192). -/
theorem errField_getLsbD (e : ErrCode) (j : Nat) (hj : j < 32) :
    (BitVec.ofNat 32 (errNumber e <<< 4)).getLsbD j = (decide (4 ≤ j) && (errNumber e).testBit (j - 4)) := by
  simp only [BitVec.getLsbD_ofNat, hj, decide_true, Bool.true_and, Nat.testBit_shiftLeft, ge_iff_le]

/-- Bit `j` of STATUS (10_state.md R26). -/
theorem Status.toWord_getLsbD (f : Status) (j : Nat) (hj : j < 32) :
    f.toWord.getLsbD j =
      ((f.busy && decide (j = 0)) || (f.done && decide (j = 1)) ||
        (decide (4 ≤ j) && (errNumber f.err).testBit (j - 4)) ||
        (f.bwerr && decide (j = 8)) || (f.diag && decide (j = 9)) || (f.vSamp && decide (j = 16)) ||
        (f.vDbits && decide (j = 17)) || (f.vFrames && decide (j = 18)) || (f.vPm && decide (j = 19)) ||
        (f.vPack && decide (j = 20)) || (f.pkr && decide (j = 21))) := by
  simp only [Status.toWord, BitVec.getLsbD_or, bitAt_getLsbD _ _ _ hj, errField_getLsbD _ _ hj]

/-- Byte `k` of four bytes put together in little-endian order (20_memory.md R62). -/
theorem littleEndian_lane (b0 b1 b2 b3 : Byte) :
    (b3 ++ b2 ++ b1 ++ b0).extractLsb' 0 8 = b0 ∧ (b3 ++ b2 ++ b1 ++ b0).extractLsb' 8 8 = b1 ∧
      (b3 ++ b2 ++ b1 ++ b0).extractLsb' 16 8 = b2 ∧ (b3 ++ b2 ++ b1 ++ b0).extractLsb' 24 8 = b3 := by
  have above {n : Nat} (x : BitVec n) (y : Byte) (k : Nat) :
      (x ++ y).extractLsb' (8 + k) 8 = x.extractLsb' k 8 := by
    ext i hi
    have h1 : ¬ (8 + k + i < 8) := by omega
    have h2 : 8 + k + i - 8 = k + i := by omega
    rw [BitVec.getElem_extractLsb', BitVec.getLsbD_append, BitVec.getElem_extractLsb']
    simp [h1, h2]
  have lowest {n : Nat} (x : BitVec n) (y : Byte) : (x ++ y).extractLsb' 0 8 = y := by
    ext i hi
    rw [BitVec.getElem_extractLsb', BitVec.getLsbD_append]
    simp [hi]
  refine ⟨lowest _ _, (above _ _ 0).trans (lowest _ _), (above _ _ 8).trans ((above _ _ 0).trans (lowest _ _)), ?_⟩
  refine (above _ _ 16).trans ((above _ _ 8).trans ((above _ _ 0).trans ?_))
  ext i hi
  simp

end Sys2Proof.Machine
end

