-- ==== Sys2Proof/Laws/PerInstr.lean ====
section
/-! SUPPORT. The per-command family `Encoding`: the decoder reads each command from its own word, as the
opcode table numbers it (30_encoding.md R91). -/

namespace Sys2Proof.Laws

/-- The row's word gives the command back. -/
def Encoding.Statement (i : Instr) : Prop := decodeTableWord 32 (encode i).toNat = some i

theorem Encoding.nop : Encoding.Statement .nop := rfl
theorem Encoding.extract : Encoding.Statement .extract := rfl
theorem Encoding.demod : Encoding.Statement .demod := rfl
theorem Encoding.fsync : Encoding.Statement .fsync := rfl
theorem Encoding.pcorr : Encoding.Statement .pcorr := rfl
theorem Encoding.packf : Encoding.Statement .packf := rfl
theorem Encoding.packr : Encoding.Statement .packr := rfl
theorem Encoding.run : Encoding.Statement .run := rfl
theorem Encoding.clear : Encoding.Statement .clear := rfl

end Sys2Proof.Laws
end

