-- ==== Sys2Proof/Tests/Slice0.lean ====
section
/-! SUPPORT. Tests. Expected values are the spec's own vectors (95_test_vectors.md, named at each test) or
hand calculations from the rule cited; then, for every statement with hypotheses, a concrete state and
operands that meet them together. -/

namespace Sys2Proof.Tests

open Sys2Proof Sys2Proof.Machine

/-! ## Helpers -/

/-- The test configuration of 95_test_vectors.md: `SYNC_T` and `N_MAX_T = 256`. The bases are made up. -/
def tParams : Params :=
  { sync := 0xC3A55A1E#32, nMaxPred := 255#31
    bases := { reg := 0, inp := 0x1000, samp := 0x2000, dbits := 0x3000, ftab := 0x4000, pmtab := 0x5000,
               pout := 0x6000 } }

/-- The block idle after reset, in the test configuration. -/
def tIdle : State := { State.reset with params := tParams }

/-- `tIdle` with the bytes of an input and their count written. -/
def tLoaded (bs : List Byte) : State := { tIdle with inp := Memory.overlay bs [], nLen := toWord bs.length }

/-- A block that holds decoded bits. -/
def tBits (bits : Bits) : State :=
  ((({ tIdle with status := { Status.reset with vSamp := true } } : State)).putDbits bits 0)

/-- The state a step goes on with. -/
def tNext (o : Host.Outcome State Fault Refusal) : State := (nextState? o).getD State.reset

/-- What one Complete step makes of a state. -/
def tRun (i : Instr) (s : State) : State := tNext (step (s.withCommand (encode i)))

/-- The bits of a word, first stream bit first. -/
def tWordBits (w : Word) : Bits := (List.range 32).map w.getMsbD

/-- The source's demodulator scenario, 95_test_vectors.md S8. -/
def tScenario : List Byte := [0x03#8, 0x01#8, 0x02#8, 0x03#8]

/-! ## Well-formedness: each check refuses an ill-formed word -/

theorem test_wf_refuses_reserved_bits : CmdWord.wellFormed 0x00000010#32 = false ∧ rsvClear 0x00000010#32 = false := by
  decide
theorem test_wf_refuses_reserved_opcode : CmdWord.wellFormed 0x00000009#32 = false ∧ opDefined 0x00000009#32 = false := by
  decide
theorem test_wf_accepts_clear : CmdWord.wellFormed 0x00000008#32 = true := by decide
theorem test_wf_refuses_overlapping_placement :
    placementOk { tParams with bases := { tParams.bases with samp := 0x10FF } } = false := by decide
theorem test_wf_accepts_placement : placementOk tParams = true := by decide
/-- With N_MAX = 1 DBITS has size 0 (20_memory.md R60), so its base inside REG is no overlap (log entry 9). -/
theorem test_wf_accepts_empty_space_inside :
    placementOk { tParams with nMaxPred := 0#31, bases := { tParams.bases with dbits := 0x10 } } = true := by decide

/-! ## Decoding: each command's word, bit by bit (30_encoding.md R90, R91) -/

theorem test_decode_nop : decode 0b00000000000000000000000000000000#32 = .ok .nop := rfl
theorem test_decode_extract : decode 0b00000000000000000000000000000001#32 = .ok .extract := rfl
theorem test_decode_demod : decode 0b00000000000000000000000000000010#32 = .ok .demod := rfl
theorem test_decode_fsync : decode 0b00000000000000000000000000000011#32 = .ok .fsync := rfl
theorem test_decode_pcorr : decode 0b00000000000000000000000000000100#32 = .ok .pcorr := rfl
theorem test_decode_packf : decode 0b00000000000000000000000000000101#32 = .ok .packf := rfl
theorem test_decode_packr : decode 0b00000000000000000000000000000110#32 = .ok .packr := rfl
theorem test_decode_run : decode 0b00000000000000000000000000000111#32 = .ok .run := rfl
theorem test_decode_clear : decode 0b00000000000000000000000000001000#32 = .ok .clear := rfl
theorem test_decode_reserved_opcode : decode 0b00000000000000000000000000001111#32 = .error .reservedOpcode := rfl
theorem test_decode_reserved_bits : decode 0b10000000000000000000000000000001#32 = .error .reservedBits := rfl
theorem test_decode_table_word : decodeTableWord 32 7 = some .run ∧ decodeTableWord 32 9 = none := by decide
theorem test_first_command_after_reset :
    (tNext (step (State.reset.withFetchWord 32 7))).status.toWord = 0x001F0002#32 := by decide

/-! ## One step each -/

/-- T1 of 95_test_vectors.md. -/
theorem test_nop_clears_error :
    (tRun .nop { tIdle with status := { Status.reset with done := true, err := .lenRange } }).status.toWord = 0x2#32 := by
  decide
/-- 2.1 of 95_test_vectors.md. -/
theorem test_extract_bytes :
    [0x00#8, 0x01#8, 0x02#8, 0x03#8, 0x80#8, 0x55#8, 0xAA#8, 0xFC#8, 0xFD#8, 0xFE#8, 0xFF#8].map extract =
      [0x00#8, 0x01#8, 0x02#8, 0x07#8, 0x00#8, 0x01#8, 0x02#8, 0x00#8, 0x01#8, 0x02#8, 0x07#8] := by decide
/-- X2 of 95_test_vectors.md. -/
theorem test_extract_len_range : (tRun .extract { tIdle with nLen := 257#32 }).status.toWord = 0x32#32 := by decide
/-- The mixed row of 2.2 of 95_test_vectors.md. -/
theorem test_demod_mixed :
    demod ([3#8, 2#8, 3#8, 1#8, 3#8, 0#8, 3#8, 3#8, 1#8, 1#8, 3#8].map extract) = ([true, false, false], 6) := by decide
/-- 2.2 of 95_test_vectors.md: DEMOD after reset. -/
theorem test_demod_needs_extract : (tRun .demod tIdle).status.toWord = 0x22#32 := by decide
/-- F1 of 95_test_vectors.md. -/
theorem test_fsync_one_frame :
    (tRun .fsync (tBits (tWordBits 0xC3A55A1E#32))).ftab = [{ start := 0, stop := 32, poff := 0, pbytes := 4 }] := by
  decide +kernel
/-- F4 of 95_test_vectors.md: hidden matches of a periodic pattern. -/
theorem test_fsync_hides_inner_matches :
    fsync 0xAAAAAAAA#32 ((List.range 36).map fun j => j % 2 == 0) = [(0, 36)] := by decide +kernel
/-- F8 of 95_test_vectors.md: score 20 is included. -/
theorem test_pcorr_includes_score_20 :
    pcorr 0xC3A55A1E#32 (tWordBits 0x47845A1E#32) = [{ pos := 0, obs := 0x47845A1E#32, obsn := 32, score := 20 }] := by
  decide +kernel
/-- F10 of 95_test_vectors.md: OBSN 24 near the end. -/
theorem test_pcorr_short_window :
    (tRun .pcorr (tBits ((tWordBits 0xC3A55A1E#32).take 24))).pmtab =
      [{ pos := 0, obs := 0xC3A55A00#32, obsn := 24, score := 24 }] := by decide +kernel
/-- K6 of 95_test_vectors.md. -/
theorem test_packf_no_frames :
    (tRun .packf { tIdle with status := { Status.reset with vFrames := true } }).status.toWord = 0x00140002#32 := by
  decide
/-- 43_pack.md R163's example, with PACKF after FSYNC. -/
theorem test_packf_one_frame :
    (tRun .packf (tRun .fsync (tBits (tWordBits 0xC3A55A1E#32)))).pout =
      [(0, 0xC3#8), (1, 0xA5#8), (2, 0x5A#8), (3, 0x1E#8)] := by decide +kernel
/-- K2 of 95_test_vectors.md. -/
theorem test_packr_eleven_bits :
    (tRun .packr { tBits [false, true, true, false, true, false, false, true, true, false, true] with
      packLen := 11#32 }).pout = [(0, 0x69#8), (1, 0xA0#8)] := by decide
/-- K4 of 95_test_vectors.md: the sum is exact. -/
theorem test_packr_exact_sum :
    (tRun .packr { tBits [true] with packStart := 0xFFFFFFFF#32, packLen := 1#32 }).status.err = .packRange := by decide
/-- P1 of 95_test_vectors.md. -/
theorem test_run_scenario :
    (tRun .run (tLoaded tScenario)).status.toWord = 0x001F0202#32 ∧
      (tRun .run (tLoaded tScenario)).dbits = [(0, 0#8)] ∧
      (tRun .run (tLoaded tScenario)).markerCount = 2#32 := by decide
/-- X2 and 44_control.md R176: RUN's one error. -/
theorem test_run_len_range : (tRun .run { tIdle with nLen := 0xFFFFFFFF#32 }).status.toWord = 0x32#32 := by decide
/-- T4 of 95_test_vectors.md. -/
theorem test_clear_after_run :
    (tRun .clear (tRun .run (tLoaded tScenario))).status.toWord = 0x2#32 ∧
      (tRun .clear (tRun .run (tLoaded tScenario))).bitCount = 0#32 ∧
      (tRun .clear (tRun .run (tLoaded tScenario))).nLen = 4#32 := by decide
/-- T2 of 95_test_vectors.md. -/
theorem test_illegal_word : (tNext (step (tIdle.withCommand 0x10#32))).status.toWord = 0x12#32 := by decide
/-- T6 of 95_test_vectors.md: a busy write is lost and sets BWERR. -/
theorem test_busy_write :
    (hostAccess (tIdle.accept 1#32) (.write .reg 0x08 4 8#32)).nLen = 0#32 ∧
      (hostAccess (tIdle.accept 1#32) (.write .reg 0x08 4 8#32)).status.bwerr = true := by decide
/-- A1 of 95_test_vectors.md. -/
theorem test_little_endian_write :
    (hostAccess tIdle (.write .inp 0 4 0x03020103#32)).inp = [(0, 3#8), (1, 1#8), (2, 2#8), (3, 3#8)] := by decide
/-- A2 of 95_test_vectors.md. -/
theorem test_little_endian_read :
    (hostAccess (tRun .run (tLoaded tScenario)) (.read .samp 0 4)).resp = .word 0x07020107#32 := by decide +kernel
/-- A9 and A5 of 95_test_vectors.md. -/
theorem test_bus_errors :
    accessOk tParams .inp false 256 1 = false ∧ accessOk tParams .dbits true 0 1 = false ∧
      accessOk tParams .reg false 2 4 = false ∧ accessOk tParams .reg true 8 1 = false := by decide
/-- R97: EXEC NOP with two polls is a CMD write, two polls, the sequencer's turn and the last poll. -/
theorem test_exec_expansion :
    hostEXEC .nop 2 = [hostWR .reg 0 0, hostRD .reg 4, hostRD .reg 4, .sequencer, hostRD .reg 4] := by decide

/-! ## Witnesses: concrete states and operands that meet each statement's hypotheses -/

/-- Accepted RUN, busy. -/
def tBusy : State := (tLoaded tScenario).accept 7#32

/-- Input bytes that decode to the 32 bits of SYNC_T: a marker, then a data byte and a marker for each bit. -/
def tSyncInput : List Byte := 3#8 :: (tWordBits 0xC3A55A1E#32).flatMap fun b => [if b then 2#8 else 1#8, 3#8]

/-- The block after EXTRACT, DEMOD and FSYNC of `tSyncInput`: one frame of 32 bits. -/
def tFramed : State :=
  (((tIdle.putSamples (tSyncInput.map extract)).putDbits (tWordBits 0xC3A55A1E#32) 33)).putFrames 32 [(0, 32)]

theorem witness_StepRunsDecodedCommand :
    (tBusy.rstN = true ∧ tBusy.status.busy = true ∧ decode tBusy.cmdq = .ok .run ∧ tBusy.env = []) ∧
      ({ tBusy with env := [.sequencer] } : State).env = .sequencer :: [] ∧
      (7 < 2 ^ 32 ∧ decodeTableWord 32 7 = some .run) := by decide

theorem witness_DecodeFollowsOpcodeMap :
    (0xFFFFFFFF#32 : Word).toNat / 16 ≠ 0 ∧ (0x10#32 : Word).toNat / 16 ≠ 0 ∧
      ((8#32 : Word).toNat / 16 = 0 ∧ (8#32 : Word).toNat % 16 = 8) ∧
      ((9#32 : Word).toNat / 16 = 0 ∧ 9 ≤ (9#32 : Word).toNat % 16) ∧
      decode tBusy.cmdq = .ok .run ∧ decode (tIdle.accept 9#32).cmdq = .error .reservedOpcode := by decide

theorem witness_DecodeAndEncodeAgree : (Instr.packr).wellFormed = true := by decide

theorem witness_IllegalWordCompletesWithCode :
    tIdle.rstN = true ∧ tIdle.status.busy = false ∧ 16 ≤ (0x10#32 : Word).toNat ∧ 9 ≤ (9#32 : Word).toNat % 16 := by
  decide

theorem witness_CmdWriteIssuesCommand :
    tIdle.rstN = true ∧ tIdle.status.busy = false ∧ tBusy.rstN = true ∧ tBusy.status.busy = true := by decide

theorem witness_CommandIssuedOnBusRuns :
    ({ tIdle with env := hostCMD .packr ++ [.sequencer] } : State).rstN = true ∧ tIdle.status.busy = false ∧
      ({ tIdle with env := hostCMD .packr ++ [.sequencer] } : State).env = hostCMD .packr ++ [.sequencer] := by decide

theorem witness_ExtractConvertsInput :
    ({ tIdle with nLen := 256#32 } : State).nLen.toNat ≤ tIdle.params.nMaxPred.toNat + 1 ∧
      tIdle.params.nMaxPred.toNat + 1 < ({ tIdle with nLen := 257#32 } : State).nLen.toNat := by decide

theorem witness_IntervalDecodesByChannels :
    ((2#8 : Byte).getLsbD 1 = true ∧ (2#8 : Byte).getLsbD 0 = false) ∧
      ((1#8 : Byte).getLsbD 0 = true ∧ (1#8 : Byte).getLsbD 1 = false) ∧
      (0#8 : Byte).getLsbD 0 = (0#8 : Byte).getLsbD 1 ∧ (7#8 : Byte).getLsbD 0 = (7#8 : Byte).getLsbD 1 := by decide

theorem witness_DemodBitsAreBounded : (demod [7#8]).2 ≤ 1 := by decide

theorem witness_DemodDecodesMidpoints :
    ([0, 3] : List Nat).Pairwise (· < ·) ∧
      ∀ i, i ∈ [0, 3] ↔
        ∃ h : i < (tScenario.map extract).length,
          (tScenario.map extract)[i].getLsbD 0 = true ∧ (tScenario.map extract)[i].getLsbD 1 = true := by
  refine ⟨by decide, fun i => ?_⟩
  rcases i with _ | _ | _ | _ | i
  · decide
  · decide
  · decide
  · decide
  · simp [tScenario]

theorem witness_DemodDecodesSamples :
    (tBits [true]).status.vSamp = true ∧ tIdle.status.vSamp = false ∧ 0 < (demod ([3#8, 2#8, 3#8].map extract)).1.length := by
  decide

theorem witness_ExactMatch : (tWordBits 0xC3A55A1E#32).length < 1 + 32 ∧
    matchAt 0xC3A55A1E#32 (tWordBits 0xC3A55A1E#32) 0 = true := by decide +kernel

theorem witness_FramesTileFromFirstMatch :
    (fsync 0xFFFFFFFF#32 (List.replicate 64 true)).head? = some (0, 32) ∧
      (fsync 0xFFFFFFFF#32 (false :: List.replicate 64 true)).head? = some (1, 33) ∧
      1 < (fsync 0xFFFFFFFF#32 (List.replicate 64 true)).length ∧
      (fsync 0xFFFFFFFF#32 (List.replicate 64 true)).getLast? = some (32, 64) := by decide +kernel

theorem witness_FrameCountIsBounded :
    (List.replicate 31 true).length < 32 ∧
      (∀ i, i < 34 → (matchAt 0xFFFFFFFF#32 (false :: List.replicate 32 true) i = true ↔ i = 1)) := by decide +kernel

/-- The `p` clause's hypothesis itself, over every position: past the bits no window fits. -/
theorem witness_FrameCountIsBounded_single :
    ∀ i, matchAt 0xFFFFFFFF#32 (false :: List.replicate 32 true) i = true ↔ i = 1 := by
  intro i
  by_cases h : i < 34
  · exact witness_FrameCountIsBounded.2 i h
  · have hl : (false :: List.replicate 32 true).length = 33 := by decide
    have hm : matchAt 0xFFFFFFFF#32 (false :: List.replicate 32 true) i = false := by
      simp only [matchAt, hl]
      rw [decide_eq_false (by omega), Bool.false_and]
    rw [hm]
    constructor
    · intro hf
      cases hf
    · omega

theorem witness_FsyncStatements :
    (tBits (tWordBits 0xC3A55A1E#32)).status.vDbits = true ∧ tIdle.status.vDbits = false ∧
      (fsync tParams.sync (tBits (tWordBits 0xC3A55A1E#32)).decodedBits).length = 1 ∧
      fsync tParams.sync (tBits [true]).decodedBits = [] := by decide +kernel

theorem witness_ScoreAndEntry :
    0 + 24 ≤ (List.replicate 24 true).length ∧ 8 + 24 ≤ (tWordBits 0xC3A55A1E#32).length ∧
      (List.replicate 24 true).length < 2 ^ 32 ∧
      (∀ j, j < 24 → (0xC3A55A00#32 : Word).getLsbD (31 - j) = (0xC3A55A1E#32 : Word).getLsbD (31 - j)) := by decide

theorem witness_PartialMatch : 20 ≤ score 0xC3A55A1E#32 (tWordBits 0x47845A1E#32) 0 := by decide +kernel

theorem witness_PcorrStatements :
    (tBits [true]).status.vDbits = true ∧ tIdle.status.vDbits = false := by decide

theorem witness_ScansAreIndependent :
    (tBits [true]).status.vDbits = true ∧ ({ tBits [true] with frameCount := 5 } : State).status.vDbits = true ∧
      ({ tBits [true] with frameCount := 5 } : State).params.sync = (tBits [true]).params.sync ∧
      ({ tBits [true] with frameCount := 5 } : State).decodedBits = (tBits [true]).decodedBits := by decide

theorem witness_PackStatements :
    1 + 2 ≤ [true, false, true].length ∧ 3 + 0 ≤ [true, false, true].length ∧ 8 * 0 < 2 ∧ 2 - 8 * 0 < 8 ∧
      (pack [true, false, true] 1 2)[2 / 8]? = some 0x40#8 := by decide

theorem witness_PackfPacksFrames :
    tFramed.status.vFrames = true ∧ tIdle.status.vFrames = false ∧
      0 < (packFrames tFramed.frames tFramed.decodedBits).length := by decide +kernel

theorem witness_PackfPlacesFrames_stage : tFramed.StageInv where
  samp _ := ⟨tSyncInput, by decide +kernel, by decide +kernel⟩
  dbits _ := by decide +kernel
  frames _ := by decide +kernel
  pm h := absurd h (by decide)
  packf h := absurd h (by decide)
  packr h := absurd h (by decide)

theorem witness_PackfPlacesFramesAtTheirOffsets :
    tFramed.StageInv ∧ tFramed.status.vFrames = true ∧ 0 < tFramed.frameCount.toNat ∧
      3 < (tFramed.frameAt 0).pbytes.toNat :=
  ⟨witness_PackfPlacesFrames_stage, by decide +kernel⟩

theorem witness_PackrPacksRegion :
    ((tBits [true]).status.vDbits = true ∧
      ({ tBits [true] with packStart := 1#32 } : State).packStart.toNat +
        ({ tBits [true] with packStart := 1#32 } : State).packLen.toNat ≤ (tBits [true]).bitCount.toNat) ∧
      (tBits [true]).bitCount.toNat < (1#32 : Word).toNat + (1#32 : Word).toNat ∧
      tIdle.status.vDbits = false := by decide

theorem witness_RunStatements :
    tBusy.nLen.toNat ≤ tBusy.params.nMaxPred.toNat + 1 ∧
      tIdle.params.nMaxPred.toNat + 1 < ({ tIdle with nLen := 257#32 } : State).nLen.toNat := by decide

theorem witness_CommandErrorsArePrecise :
    ∃ t, completeStep (tIdle.accept 2#32) = .next t ∧ t.status.err ≠ .ok :=
  ⟨_, rfl, by decide⟩

theorem witness_BusErrorsChangeNothing :
    tIdle.rstN = true ∧ (2 ≠ 1 ∧ 2 ≠ 4) ∧ 254 % 4 ≠ 0 ∧ spaceSize tParams .inp < 256 + 1 ∧
      accessOk tParams .inp false 255 1 = true ∧ accessOk tParams .reg true 252 4 = true := by decide

theorem witness_BusyWritesAreIgnored :
    tBusy.rstN = true ∧ tBusy.status.busy = true ∧ ¬ (Space.inp = .reg ∧ 4 = 4) ∧
      accessOk tBusy.params .inp true 255 1 = true ∧ accessOk tBusy.params .inp true 256 1 = false := by decide

theorem witness_WordsAreLittleEndian :
    tIdle.rstN = true ∧ tIdle.status.busy = false ∧ tIdle.inp.wf ∧ accessOk tIdle.params .samp false 252 4 = true ∧
      accessOk tIdle.params .inp true 252 4 = true ∧ accessOk tIdle.params .inp true 255 1 = true := by decide

theorem witness_StatusAndBusyReads :
    tIdle.rstN = true ∧ tIdle.status.busy = false ∧ tBusy.rstN = true ∧ tBusy.status.busy = true ∧
      255 < tBusy.params.nMaxPred.toNat + 1 ∧ 255 < spaceSize tBusy.params .samp ∧ 126 < spaceSize tBusy.params .dbits ∧
      44 + 4 ≤ spaceSize tBusy.params .ftab ∧ 1660 + 4 ≤ spaceSize tBusy.params .pmtab := by decide

/-- A state with every buffer at its capacity of the test configuration. -/
def tFull : State :=
  { tIdle with
    status := { Status.reset with vSamp := true, vDbits := true, vFrames := true, vPm := true, vPack := true }
    sampleCount := 256, bitCount := 127, frameCount := 3, pmCount := 104, packBytes := 19 }

theorem witness_IdleReadsReturnResults :
    tFull.rstN = true ∧ tFull.status.busy = false ∧
      (tFull.status.vSamp = true ∧ 255 < tFull.sampleCount.toNat ∧ 255 < spaceSize tFull.params .samp) ∧
      (tFull.status.vDbits = true ∧ 126 < tFull.bitCount.toNat ∧ 126 < spaceSize tFull.params .dbits) ∧
      (tFull.status.vPack = true ∧ 18 < tFull.packBytes.toNat ∧ 18 < spaceSize tFull.params .pout) ∧
      (tFull.status.vFrames = true ∧ 2 < tFull.frameCount.toNat ∧ 16 * 2 + 16 ≤ spaceSize tFull.params .ftab) ∧
      (tFull.status.vPm = true ∧ 103 < tFull.pmCount.toNat ∧ 16 * 103 + 16 ≤ spaceSize tFull.params .pmtab) := by
  decide

theorem witness_RegisterStatements :
    tIdle.rstN = true ∧ tIdle.status.busy = false ∧ tBusy.status.busy = true ∧
      (0x14 ≤ 0x14 ∧ 0x14 % 4 = 0) ∧ (0x40 ≤ 0x40 ∧ 0x40 % 4 = 0) ∧
      (0x44 ≤ 0x44 ∧ 0x44 % 4 = 0) ∧ (0xFC ≤ 0xFC ∧ 0xFC % 4 = 0) := by decide

theorem witness_InputWritesLeaveResults :
    ∃ t, t = hostAccess tIdle (.write .inp 0 4 3#32) ∧ t.inp ≠ tIdle.inp := ⟨_, rfl, by decide⟩

theorem witness_BusAddressesSelectSpaces :
    placementOk tIdle.params = true ∧ 18 < spaceSize tIdle.params .pout ∧
      ∀ sp, ¬ (spaceBase tIdle.params sp ≤ 0x7000 ∧
        0x7000 < spaceBase tIdle.params sp + spaceSize tIdle.params sp) :=
  ⟨by decide, by decide, fun sp => by cases sp <;> decide⟩

theorem witness_ResetAbandonsCommand :
    ({ tBusy with env := [.rst false, .rst true] } : State).env = .rst false :: [.rst true] := by decide

theorem witness_IdleKeepsStateAndBusyCompletes :
    tIdle.env = [] ∧ tIdle.status.busy = false ∧ tBusy.env = [] ∧ tBusy.rstN = true ∧ tBusy.status.busy = true := by
  decide

/-- A busy block with RUN accepted meets every invariant, and its next step goes on. -/
theorem witness_busy_is_sound : tBusy.Sound where
  memories := ⟨by decide, by decide, by decide, by decide⟩
  handshake := ⟨by decide, by decide, by decide, by decide, by decide, by decide, by decide, by decide, by decide,
    by decide, by decide, by decide⟩
  stages := ⟨fun h => absurd h (by decide), fun h => absurd h (by decide), fun h => absurd h (by decide),
    fun h => absurd h (by decide), fun h => absurd h (by decide), fun h => absurd h (by decide)⟩
  capacity := ⟨by decide, by decide, by decide, by decide, by decide, by decide, by decide, by decide, by decide,
    by decide, by decide⟩

theorem witness_StepInvariants : tBusy.Sound ∧ ∃ t, step tBusy = .next t ∧ t.status.vPack = true :=
  ⟨witness_busy_is_sound, _, rfl, by decide⟩

end Sys2Proof.Tests
end

section
/-! No step overflows a buffer (00_scope.md R7): each stage's result fits its buffer, each update of the
state keeps the capacities when what it stores fits, and so does every step. -/

namespace Sys2Proof.Machine

/-! ## DEMOD's bits fit DBITS

`DB_MAX` is half of `N_MAX - 1`, one bit for every two samples: two markers side by side have the first of
them as their midpoint, and a marker decodes to no bit. -/

theorem mem_markers {S : List Byte} {i : Nat} : i ∈ markers S ↔ i < S.length ∧ isMarker (S.getD i 0) = true := by
  simp only [markers, List.mem_filter, List.mem_range]

theorem markers_pairwise_lt (S : List Byte) : (markers S).Pairwise (· < ·) := List.pairwise_lt_range.filter _

theorem midpoint_succ (a : Nat) : midpoint a (a + 1) = a := by
  simp only [midpoint]
  omega

theorem decodeInterval_of_isMarker {b : Byte} (h : isMarker b = true) : decodeInterval b = none := by
  simp only [isMarker, Bool.and_eq_true] at h
  simp [decodeInterval, h]

theorem intervals_cons_cons (a b : Nat) (m : List Nat) : intervals (a :: b :: m) = (a, b) :: intervals (b :: m) := rfl

/-- When neighbouring numbers decode to nothing, each decoded interval of an ascending list below `n` spans two
numbers of its own. -/
theorem length_filterMap_intervals_le {β : Type} {f : Nat × Nat → Option β} {n a : Nat} {m : List Nat}
    (hasc : (a :: m).Pairwise (· < ·)) (hlt : ∀ x ∈ a :: m, x < n) (hf : ∀ x ∈ a :: m, f (x, x + 1) = none) :
    2 * ((intervals (a :: m)).filterMap f).length + a < n := by
  induction m generalizing a with
  | nil => simpa [intervals] using hlt
  | cons b m ih =>
    have hab : a < b := List.rel_of_pairwise_cons hasc List.mem_cons_self
    have hrest := ih hasc.of_cons (fun x hx => hlt x (List.mem_cons_of_mem _ hx))
      fun x hx => hf x (List.mem_cons_of_mem _ hx)
    rw [intervals_cons_cons]
    cases hb : f (a, b) with
    | none =>
      rw [List.filterMap_cons_none hb]
      omega
    | some v =>
      have hne : b ≠ a + 1 := by
        rintro rfl
        simp [hf a List.mem_cons_self] at hb
      rw [List.filterMap_cons_some hb, List.length_cons]
      omega

/-- `n` samples decode to at most `(n - 1) / 2` bits (41_demod.md R124). -/
theorem two_mul_demod_length_le (S : List Byte) : 2 * (demod S).1.length ≤ S.length - 1 := by
  simp only [demod]
  cases hm : markers S with
  | nil => simp [intervals]
  | cons a m =>
    have hmem : ∀ x ∈ a :: m, x < S.length ∧ isMarker (S.getD x 0) = true := fun x hx => mem_markers.mp (hm ▸ hx)
    have hlen := length_filterMap_intervals_le (f := fun k => decodeInterval (S.getD (midpoint k.1 k.2) 0))
      (hm ▸ markers_pairwise_lt S) (fun x hx => (hmem x hx).1) fun x hx => by
        simpa only [midpoint_succ] using decodeInterval_of_isMarker (hmem x hx).2
    omega

/-! ## What is stored stays inside its buffer -/

theorem toWord_toNat_le (n : Nat) : (toWord n).toNat ≤ n :=
  (BitVec.toNat_ofNat n 32).trans_le (Nat.mod_le _ _)

theorem Memory.overlay_below {m : Memory} {bs : List Byte} {n : Nat} (hm : ∀ c ∈ m, c.1 < n) (hbs : bs.length ≤ n) :
    ∀ c ∈ m.overlay bs, c.1 < n := fun c hc =>
  (Memory.mem_overlay hc).elim (fun h => h.trans_le hbs) (hm c)

theorem Memory.write_below {m : Memory} {x n : Nat} (v : Byte) (hm : ∀ c ∈ m, c.1 < n) (hx : x < n) :
    ∀ c ∈ m.write x v, c.1 < n := fun c hc =>
  (Memory.mem_write hc).elim (fun h => h ▸ hx) (hm c)

theorem tableOverlay_length_le {α : Type} {es old : List α} {n : Nat} (hes : es.length ≤ n) (hold : old.length ≤ n) :
    (tableOverlay es old).length ≤ n := by
  rw [tableOverlay_length]
  exact max_le hes hold

theorem bytesFor_mono {m n : Nat} (h : m ≤ n) : bytesFor m ≤ bytesFor n := Nat.div_le_div_right (by omega)

/-! ## Each update of the state -/

section Updates

variable {s : State} (h : s.CapacityInv)
include h

theorem State.CapacityInv.setEnv (e : List Event) : (s.setEnv e).CapacityInv := { h with }
theorem State.CapacityInv.answer (r : BusResp) : (s.answer r).CapacityInv := { h with }
theorem State.CapacityInv.accept (w : Word) : (s.accept w).CapacityInv := { h with }
theorem State.CapacityInv.complete (c : ErrCode) : (s.complete c).CapacityInv := { h with }
theorem State.CapacityInv.setBwerr (b : Bool) : (s.setBwerr b).CapacityInv := { h with }
theorem State.CapacityInv.setNLen (w : Word) : (s.setNLen w).CapacityInv := { h with }
theorem State.CapacityInv.setPackStart (w : Word) : (s.setPackStart w).CapacityInv := { h with }
theorem State.CapacityInv.setPackLen (w : Word) : (s.setPackLen w).CapacityInv := { h with }

theorem State.CapacityInv.putIn {off : Nat} (b : Byte) (ho : off < nMax s.params) : (s.putIn off b).CapacityInv :=
  { h with inp := Memory.write_below b h.inp ho }

theorem State.CapacityInv.putSamples {bs : List Byte} (hn : bs.length ≤ nMax s.params) :
    (s.putSamples bs).CapacityInv :=
  { h with
    sampleCount := (toWord_toNat_le _).trans hn
    samp := Memory.overlay_below h.samp hn }

theorem State.CapacityInv.putDbits {bits : Bits} (m : Nat) (hn : bits.length ≤ dbMax s.params) :
    (s.putDbits bits m).CapacityInv :=
  { h with
    bitCount := (toWord_toNat_le _).trans hn
    dbits := Memory.overlay_below h.dbits ((List.length_map bitByte).trans_le hn) }

theorem State.CapacityInv.putFrames (L : Nat) {fs : List (Nat × Nat)} (hn : fs.length ≤ ftMax s.params) :
    (s.putFrames L fs).CapacityInv :=
  { h with
    frameCount := (toWord_toNat_le _).trans hn
    ftab := tableOverlay_length_le ((frameTable_length fs).trans_le hn) h.ftab }

theorem State.CapacityInv.putPartials {es : List PmEntry} (hn : es.length ≤ pmMax s.params) :
    (s.putPartials es).CapacityInv :=
  { h with
    pmCount := (toWord_toNat_le _).trans hn
    pmtab := tableOverlay_length_le hn h.pmtab }

theorem State.CapacityInv.putPacked (region : Bool) {bs : List Byte} (hn : bs.length ≤ poMax s.params) :
    (s.putPacked region bs).CapacityInv :=
  { h with
    packBytes := (toWord_toNat_le _).trans hn
    pout := Memory.overlay_below h.pout hn }

theorem State.CapacityInv.invalidateAfterDbits : s.invalidateAfterDbits.CapacityInv :=
  { h with frameCount := Nat.zero_le _, pmCount := Nat.zero_le _, packBytes := Nat.zero_le _ }

theorem State.CapacityInv.invalidateAfterSamp : s.invalidateAfterSamp.CapacityInv :=
  { h.invalidateAfterDbits with bitCount := Nat.zero_le _ }

theorem State.CapacityInv.invalidateAll : s.invalidateAll.CapacityInv :=
  { h.invalidateAfterSamp with sampleCount := Nat.zero_le _ }

end Updates

theorem State.enterReset_capacityInv (s : State) (high : Bool) : (s.enterReset high).CapacityInv := by
  constructor <;> simp

/-! ## Each command -/

theorem extractBody_capacityInv {s t : State} (h : s.CapacityInv) (hb : extractBody s = .ok t) : t.CapacityInv := by
  obtain ⟨hlen, rfl⟩ := extractBody_ok hb
  exact (h.putSamples (by simpa [State.inBytes] using hlen)).invalidateAfterSamp

theorem demodBody_capacityInv {s t : State} (h : s.CapacityInv) (hb : demodBody s = .ok t) : t.CapacityInv := by
  obtain ⟨-, rfl⟩ := demodBody_ok hb
  have hbits := two_mul_demod_length_le s.samples
  have hsamples := s.samples_length ▸ h.sampleCount
  exact (h.putDbits _ (by rw [dbMax]; omega)).invalidateAfterDbits

theorem fsync_decodedBits_length_le {s : State} (h : s.CapacityInv) :
    (fsync s.params.sync s.decodedBits).length ≤ ftMax s.params := by
  have hframes := fsync_length_le s.params.sync s.decodedBits
  have hbits := s.decodedBits_length ▸ h.bitCount
  rw [ftMax]
  omega

theorem fsyncBody_capacityInv {s t : State} (h : s.CapacityInv) (hb : fsyncBody s = .ok t) : t.CapacityInv := by
  obtain ⟨-, rfl⟩ := fsyncBody_ok hb
  exact h.putFrames _ (fsync_decodedBits_length_le h)

theorem pcorrBody_capacityInv {s t : State} (h : s.CapacityInv) (hb : pcorrBody s = .ok t) : t.CapacityInv := by
  obtain ⟨-, rfl⟩ := pcorrBody_ok hb
  have hbits := s.decodedBits_length ▸ h.bitCount
  exact h.putPartials ((pcorr_length_le _ _).trans (Nat.sub_le_sub_right hbits 23))

/-- The part of V_FRAMES' promise (10_state.md R27) that bounds PACKF's output: the frame table is that of the
decoded bits. -/
def State.FramesPromise (s : State) : Prop :=
  s.status.vFrames = true → s.frames = frameTable (fsync s.params.sync s.decodedBits)

theorem State.StageInv.framesPromise {s : State} (h : s.StageInv) : s.FramesPromise := fun hv =>
  have ⟨_, hframes, _⟩ := h.frames hv
  hframes

/-- FSYNC makes the promise good, whatever held before. -/
theorem State.putFrames_framesPromise (s : State) (L : Nat) :
    (s.putFrames L (fsync s.params.sync s.decodedBits)).FramesPromise := fun _ => by
  have hcount := fsync_length_le s.params.sync s.decodedBits
  have hbits := s.decodedBits_length ▸ Word_lt s.bitCount
  exact s.frames_putFrames L _ (by omega)

theorem packfBody_capacityInv {s t : State} (h : s.CapacityInv) (hf : s.FramesPromise) (hb : packfBody s = .ok t) :
    t.CapacityInv := by
  obtain ⟨hv, rfl⟩ := packfBody_ok hb
  have hlen : (packFrames s.frames s.decodedBits).length ≤ poMax s.params := by
    have hpacked := packFrames_frameTable_le (sync := s.params.sync) (s.decodedBits_length ▸ Word_lt s.bitCount)
    have hframes := fsync_decodedBits_length_le h
    have hbits := s.decodedBits_length ▸ h.bitCount
    rw [hf hv, poMax, bytesFor]
    omega
  exact h.putPacked false hlen

theorem packrBody_capacityInv {s t : State} (h : s.CapacityInv) (hb : packrBody s = .ok t) : t.CapacityInv := by
  obtain ⟨-, hregion, rfl⟩ := packrBody_ok hb
  refine h.putPacked true ?_
  calc (pack s.decodedBits s.packStart.toNat s.packLen.toNat).length
      = bytesFor s.packLen.toNat := pack_length _ _ _
    _ ≤ bytesFor (dbMax s.params) := bytesFor_mono (by have := h.bitCount; omega)
    _ ≤ poMax s.params := Nat.le_add_right _ _

/-- RUN needs no promise: its own FSYNC writes the table that its PACKF reads. -/
theorem runBody_capacityInv {s t : State} (h : s.CapacityInv) (hb : runBody s = .ok t) : t.CapacityInv := by
  obtain ⟨s1, s2, s3, s4, hextract, hdemod, hfsync, hpcorr, hpackf⟩ := runBody_ok hb
  have h2 := demodBody_capacityInv (extractBody_capacityInv h hextract) hdemod
  have h4 := pcorrBody_capacityInv (fsyncBody_capacityInv h2 hfsync) hpcorr
  have hf : s4.FramesPromise := by
    obtain ⟨-, rfl⟩ := fsyncBody_ok hfsync
    obtain ⟨-, rfl⟩ := pcorrBody_ok hpcorr
    exact s2.putFrames_framesPromise s2.decodedBits.length
  exact packfBody_capacityInv h4 hf hpackf

theorem bodyOf_capacityInv {i : Instr} {s t : State} (h : s.CapacityInv) (hf : s.FramesPromise)
    (hb : bodyOf i s = .ok t) : t.CapacityInv := by
  cases i with
  | nop => cases hb; exact h
  | extract => exact extractBody_capacityInv h hb
  | demod => exact demodBody_capacityInv h hb
  | fsync => exact fsyncBody_capacityInv h hb
  | pcorr => exact pcorrBody_capacityInv h hb
  | packf => exact packfBody_capacityInv h hf hb
  | packr => exact packrBody_capacityInv h hb
  | run => exact runBody_capacityInv h hb
  | clear => cases hb; exact h.invalidateAll

/-! ## Each event, and the step -/

theorem completeStep_capacityInv {s t : State} (h : s.CapacityInv) (hf : s.FramesPromise)
    (hc : completeStep s = .next t) : t.CapacityInv := by
  obtain ⟨i, -, heq⟩ | ⟨e, -, heq⟩ := completeStep_eq s
  · obtain ⟨u, hu, rfl⟩ | ⟨c, -, rfl⟩ := finish_next (heq ▸ hc)
    · exact (bodyOf_capacityInv h hf hu).complete _
    · exact h.complete _
  · obtain rfl : s.complete .illegal = t := by simpa [heq] using hc
    exact h.complete _

theorem sequencerTurn_capacityInv {s t : State} (h : s.CapacityInv) (hf : s.FramesPromise)
    (hq : sequencerTurn s = .next t) : t.CapacityInv := by
  obtain ⟨-, -, heq⟩ | ⟨-, heq⟩ := sequencerTurn_cases s
  · exact completeStep_capacityInv h hf (heq ▸ hq)
  · obtain rfl : s = t := by simpa [heq] using hq
    exact h

theorem writeStatus_capacityInv {s : State} (h : s.CapacityInv) (w : Word) : (writeStatus s w).CapacityInv := by
  obtain heq | heq := writeStatus_cases s w <;> rw [heq]
  · exact h
  · exact h.setBwerr _

/-- A write of IN that is no bus error lies inside IN (20_memory.md R65). -/
theorem writeIn_capacityInv {s : State} (h : s.CapacityInv) {off n : Nat} (w : Word)
    (ho : accessOk s.params .inp true off n = true) : (s.writeIn off n w).CapacityInv := by
  obtain ⟨hwidth, -, -, hfit⟩ := (accessOk_iff ..).mp ho
  simp only [spaceSize] at hfit
  unfold State.writeIn
  split
  · exact h.putIn _ (by omega)
  · have h0 := h.putIn (off := off) (lane w 0) (by omega)
    have h1 := h0.putIn (off := off + 1) (lane w 1) (by rw [State.putIn_params]; omega)
    have h2 := h1.putIn (off := off + 2) (lane w 2) (by simp only [State.putIn_params]; omega)
    exact h2.putIn _ (by simp only [State.putIn_params]; omega)

theorem idleWrite_capacityInv {s : State} (h : s.CapacityInv) {sp : Space} {off n : Nat} (w : Word)
    (ho : accessOk s.params sp true off n = true) : (s.idleWrite sp off n w).CapacityInv := by
  obtain heq | heq | heq | heq | heq | heq | ⟨rfl, heq⟩ := idleWrite_cases s sp off n w <;> rw [heq]
  · exact h
  · exact h.accept w
  · exact writeStatus_capacityInv h w
  · exact h.setNLen w
  · exact h.setPackStart w
  · exact h.setPackLen w
  · exact writeIn_capacityInv h w ho

theorem hostAccess_capacityInv {s : State} (h : s.CapacityInv) (a : Access) : (hostAccess s a).CapacityInv := by
  obtain ⟨r, heq⟩ | ⟨sp, off, n, w, -, -, ho, heq⟩ := hostAccess_cases s a <;> rw [heq]
  · exact h.answer r
  · refine State.CapacityInv.answer ?_ _
    obtain heq | ⟨-, heq⟩ | ⟨-, heq⟩ := hostStore_cases s sp off n w <;> rw [heq]
    · exact writeStatus_capacityInv h w
    · exact h.setBwerr true
    · exact idleWrite_capacityInv h w ho

theorem busAccess_capacityInv {s : State} (h : s.CapacityInv) (a : BusAccess) : (busAccess s a).CapacityInv := by
  obtain ⟨acc, -, heq⟩ | ⟨-, heq⟩ := busAccess_cases s a <;> rw [heq]
  · exact hostAccess_capacityInv h acc
  · exact h.answer _

theorem setRst_capacityInv {s : State} (h : s.CapacityInv) (high : Bool) : (setRst s high).CapacityInv := by
  obtain ⟨-, -, heq⟩ | heq := setRst_cases s high <;> rw [heq]
  · exact h
  · exact s.enterReset_capacityInv high

theorem step_capacityInv {s t : State} (h : s.CapacityInv) (hf : s.FramesPromise) (hs : step s = .next t) :
    t.CapacityInv := by
  obtain ⟨-, hq⟩ | ⟨e, rest, -, ⟨-, hq⟩ | ⟨a, -, rfl⟩ | ⟨a, -, rfl⟩ | ⟨high, -, rfl⟩⟩ := step_cases hs
  · exact sequencerTurn_capacityInv h hf hq
  · exact sequencerTurn_capacityInv (h.setEnv rest) hf hq
  · exact hostAccess_capacityInv (h.setEnv rest) a
  · exact busAccess_capacityInv (h.setEnv rest) a
  · exact setRst_capacityInv (h.setEnv rest) high

/-- Settles O57: of the promises only that of V_FRAMES is needed, for PACKF. -/
theorem stepKeepsCapacities : Obligations.StepKeepsCapacities := fun _ _ hstages hcap hstep =>
  step_capacityInv hcap hstages.framesPromise hstep

end Sys2Proof.Machine
end

section
/-! What every step keeps: a property that each named update and each body of a command keeps is kept by every
step. The build-time parameters, the handshake (10_state.md R21, R48) and the promises of the valid bits (R27)
are such properties. -/

namespace Sys2Proof.Machine

/-! ## The updates a step is made of -/

/-- `P` is kept by every update a step is made of. A command is accepted only out of reset (10_state.md R21,
70_reset_and_hazards.md R211). -/
structure StepClosed (P : State → Prop) : Prop where
  setEnv : ∀ {s : State}, P s → ∀ e, P (s.setEnv e)
  answer : ∀ {s : State}, P s → ∀ r, P (s.answer r)
  accept : ∀ {s : State}, P s → s.rstN = true → ∀ w, P (s.accept w)
  complete : ∀ {s : State}, P s → ∀ c, P (s.complete c)
  setBwerr : ∀ {s : State}, P s → ∀ b, P (s.setBwerr b)
  setNLen : ∀ {s : State}, P s → ∀ w, P (s.setNLen w)
  setPackStart : ∀ {s : State}, P s → ∀ w, P (s.setPackStart w)
  setPackLen : ∀ {s : State}, P s → ∀ w, P (s.setPackLen w)
  putIn : ∀ {s : State}, P s → ∀ off b, P (s.putIn off b)
  enterReset : ∀ {s : State}, P s → ∀ high, P (s.enterReset high)
  extract : ∀ {s t : State}, P s → extractBody s = .ok t → P t
  demod : ∀ {s t : State}, P s → demodBody s = .ok t → P t
  fsync : ∀ {s t : State}, P s → fsyncBody s = .ok t → P t
  pcorr : ∀ {s t : State}, P s → pcorrBody s = .ok t → P t
  packf : ∀ {s t : State}, P s → packfBody s = .ok t → P t
  packr : ∀ {s t : State}, P s → packrBody s = .ok t → P t
  clear : ∀ {s : State}, P s → P s.invalidateAll

namespace StepClosed

variable {P : State → Prop} (c : StepClosed P) {s t : State} (h : P s)
include c h

/-- RUN is its five members in order (44_control.md R176). -/
theorem runBody (hb : runBody s = .ok t) : P t := by
  obtain ⟨s1, s2, s3, s4, hextract, hdemod, hfsync, hpcorr, hpackf⟩ := runBody_ok hb
  exact c.packf (c.pcorr (c.fsync (c.demod (c.extract h hextract) hdemod) hfsync) hpcorr) hpackf

theorem bodyOf {i : Instr} (hb : bodyOf i s = .ok t) : P t := by
  cases i with
  | nop => cases hb; exact h
  | extract => exact c.extract h hb
  | demod => exact c.demod h hb
  | fsync => exact c.fsync h hb
  | pcorr => exact c.pcorr h hb
  | packf => exact c.packf h hb
  | packr => exact c.packr h hb
  | run => exact c.runBody h hb
  | clear => cases hb; exact c.clear h

theorem completeStep (hc : completeStep s = .next t) : P t := by
  obtain ⟨i, -, heq⟩ | ⟨e, -, heq⟩ := completeStep_eq s
  · obtain ⟨u, hu, rfl⟩ | ⟨code, -, rfl⟩ := finish_next (heq ▸ hc)
    · exact c.complete (c.bodyOf h hu) _
    · exact c.complete h _
  · cases heq ▸ hc
    exact c.complete h _

theorem sequencerTurn (hq : sequencerTurn s = .next t) : P t := by
  obtain ⟨-, -, heq⟩ | ⟨-, heq⟩ := sequencerTurn_cases s
  · exact c.completeStep h (heq ▸ hq)
  · cases heq ▸ hq
    exact h

theorem writeStatus (w : Word) : P (writeStatus s w) := by
  obtain heq | heq := writeStatus_cases s w <;> rw [heq]
  · exact h
  · exact c.setBwerr h _

theorem writeIn (off n : Nat) (w : Word) : P (s.writeIn off n w) := by
  unfold State.writeIn
  split
  · exact c.putIn h _ _
  · exact c.putIn (c.putIn (c.putIn (c.putIn h _ _) _ _) _ _) _ _

theorem idleWrite (hr : s.rstN = true) (sp : Space) (off n : Nat) (w : Word) : P (s.idleWrite sp off n w) := by
  obtain heq | heq | heq | heq | heq | heq | ⟨-, heq⟩ := idleWrite_cases s sp off n w <;> rw [heq]
  · exact h
  · exact c.accept h hr w
  · exact c.writeStatus h w
  · exact c.setNLen h w
  · exact c.setPackStart h w
  · exact c.setPackLen h w
  · exact c.writeIn h off n w

theorem hostAccess (a : Access) : P (hostAccess s a) := by
  obtain ⟨r, heq⟩ | ⟨sp, off, n, w, -, hr, -, heq⟩ := hostAccess_cases s a <;> rw [heq]
  · exact c.answer h r
  · refine c.answer ?_ _
    obtain heq | ⟨-, heq⟩ | ⟨-, heq⟩ := hostStore_cases s sp off n w <;> rw [heq]
    · exact c.writeStatus h w
    · exact c.setBwerr h true
    · exact c.idleWrite h hr sp off n w

theorem busAccess (a : BusAccess) : P (busAccess s a) := by
  obtain ⟨acc, -, heq⟩ | ⟨-, heq⟩ := busAccess_cases s a <;> rw [heq]
  · exact c.hostAccess h acc
  · exact c.answer h _

theorem setRst (high : Bool) : P (setRst s high) := by
  obtain ⟨-, -, heq⟩ | heq := setRst_cases s high <;> rw [heq]
  · exact h
  · exact c.enterReset h high

/-- Every step keeps what every update keeps. -/
theorem step (hs : step s = .next t) : P t := by
  obtain ⟨-, hq⟩ | ⟨e, rest, -, ⟨-, hq⟩ | ⟨a, -, rfl⟩ | ⟨a, -, rfl⟩ | ⟨high, -, rfl⟩⟩ := step_cases hs
  · exact c.sequencerTurn h hq
  · exact c.sequencerTurn (c.setEnv h rest) hq
  · exact c.hostAccess (c.setEnv h rest) a
  · exact c.busAccess (c.setEnv h rest) a
  · exact c.setRst (c.setEnv h rest) high

end StepClosed

/-! ## The build-time parameters -/

theorem stepClosed_params (p : Params) : StepClosed fun s => s.params = p where
  setEnv h _ := h
  answer h _ := h
  accept h _ _ := h
  complete h _ := h
  setBwerr h _ := h
  setNLen h _ := h
  setPackStart h _ := h
  setPackLen h _ := h
  putIn h _ _ := h
  enterReset h _ := h
  extract h hb := by obtain ⟨-, rfl⟩ := extractBody_ok hb; exact h
  demod h hb := by obtain ⟨-, rfl⟩ := demodBody_ok hb; exact h
  fsync h hb := by obtain ⟨-, rfl⟩ := fsyncBody_ok hb; exact h
  pcorr h hb := by obtain ⟨-, rfl⟩ := pcorrBody_ok hb; exact h
  packf h hb := by obtain ⟨-, rfl⟩ := packfBody_ok hb; exact h
  packr h hb := by obtain ⟨-, -, rfl⟩ := packrBody_ok hb; exact h
  clear h := h

/-- Settles O53: no update writes the parameters. -/
theorem stepKeepsConstants : Obligations.StepKeepsConstants := fun s _ hstep =>
  (stepClosed_params s.params).step rfl hstep

/-! ## The handshake and the valid bits -/

section Handshake

variable {s : State} (h : s.HandshakeInv)
include h

/-- Accepting raises BUSY and drops DONE, out of reset only (10_state.md R21). -/
theorem State.HandshakeInv.accept (hr : s.rstN = true) (w : Word) : (s.accept w).HandshakeInv :=
  { h with
    busyDone := nofun
    heldIdle := fun hheld => absurd (hr.symm.trans hheld) nofun }

theorem State.HandshakeInv.complete (c : ErrCode) : (s.complete c).HandshakeInv :=
  { h with
    busyDone := nofun
    heldIdle := fun _ => rfl }

theorem State.HandshakeInv.putSamples (bs : List Byte) : (s.putSamples bs).HandshakeInv :=
  { h with
    dbitsNeedSamp := fun _ => rfl
    noSamp := nofun }

theorem State.HandshakeInv.putDbits (hv : s.status.vSamp = true) (bits : Bits) (m : Nat) :
    (s.putDbits bits m).HandshakeInv :=
  { h with
    dbitsNeedSamp := fun _ => hv
    framesNeedDbits := fun _ => rfl
    pmNeedsDbits := fun _ => rfl
    packNeedsDbits := fun _ => rfl
    noDbits := nofun }

theorem State.HandshakeInv.putFrames (hv : s.status.vDbits = true) (L : Nat) (fs : List (Nat × Nat)) :
    (s.putFrames L fs).HandshakeInv :=
  { h with
    framesNeedDbits := fun _ => hv
    packfNeedsFrames := fun _ _ => rfl
    noFrames := nofun }

theorem State.HandshakeInv.putPartials (hv : s.status.vDbits = true) (es : List PmEntry) :
    (s.putPartials es).HandshakeInv :=
  { h with
    pmNeedsDbits := fun _ => hv
    noPm := nofun }

theorem State.HandshakeInv.putPacked (hv : s.status.vDbits = true) {region : Bool}
    (hf : region = false → s.status.vFrames = true) (bs : List Byte) : (s.putPacked region bs).HandshakeInv :=
  { h with
    packNeedsDbits := fun _ => hv
    packfNeedsFrames := fun _ => hf
    noPack := nofun }

theorem State.HandshakeInv.invalidateAfterDbits : s.invalidateAfterDbits.HandshakeInv :=
  { h with
    framesNeedDbits := nofun
    pmNeedsDbits := nofun
    packNeedsDbits := nofun
    packfNeedsFrames := nofun
    noFrames := fun _ => ⟨rfl, rfl, rfl, rfl, rfl, rfl⟩
    noPm := fun _ => rfl
    noPack := fun _ => ⟨rfl, rfl⟩ }

theorem State.HandshakeInv.invalidateAfterSamp : s.invalidateAfterSamp.HandshakeInv :=
  { h.invalidateAfterDbits with
    dbitsNeedSamp := nofun
    framesNeedDbits := nofun
    pmNeedsDbits := nofun
    packNeedsDbits := nofun
    noDbits := fun _ => ⟨rfl, rfl⟩ }

theorem State.HandshakeInv.invalidateAll : s.invalidateAll.HandshakeInv :=
  { h.invalidateAfterSamp with
    dbitsNeedSamp := nofun
    noSamp := fun _ => rfl }

end Handshake

/-- A reset edge gives the values that `State.reset` has (70_reset_and_hazards.md R211). -/
theorem State.enterReset_handshakeInv (s : State) (high : Bool) : (s.enterReset high).HandshakeInv := by
  constructor <;> simp [Status.reset]

theorem stepClosed_handshakeInv : StepClosed State.HandshakeInv where
  setEnv h _ := { h with }
  answer h _ := { h with }
  accept h hr w := h.accept hr w
  complete h c := h.complete c
  setBwerr h _ := { h with }
  setNLen h _ := { h with }
  setPackStart h _ := { h with }
  setPackLen h _ := { h with }
  putIn h _ _ := { h with }
  enterReset _ high := State.enterReset_handshakeInv _ high
  extract h hb := by
    obtain ⟨-, rfl⟩ := extractBody_ok hb
    exact (h.putSamples _).invalidateAfterSamp
  demod h hb := by
    obtain ⟨hv, rfl⟩ := demodBody_ok hb
    exact (h.putDbits hv _ _).invalidateAfterDbits
  fsync h hb := by
    obtain ⟨hv, rfl⟩ := fsyncBody_ok hb
    exact h.putFrames hv _ _
  pcorr h hb := by
    obtain ⟨hv, rfl⟩ := pcorrBody_ok hb
    exact h.putPartials hv _
  packf h hb := by
    obtain ⟨hv, rfl⟩ := packfBody_ok hb
    exact h.putPacked (h.framesNeedDbits hv) (fun _ => hv) _
  packr h hb := by
    obtain ⟨hv, -, rfl⟩ := packrBody_ok hb
    exact h.putPacked (region := true) hv nofun _
  clear h := h.invalidateAll

/-- Settles O55: every update keeps the handshake and the valid bits consistent. -/
theorem stepKeepsHandshake : Obligations.StepKeepsHandshake := fun _ _ hinv hstep =>
  stepClosed_handshakeInv.step hinv hstep

/-! ## The promises of the valid bits -/

/-- No frame statistic exceeds the decoded bits, so each fits its register (42_fsync.md R138). -/
theorem minFrameLen_le_sum (fs : List (Nat × Nat)) : minFrameLen fs ≤ (fs.map frameLen).sum := by
  unfold minFrameLen
  cases fs.map frameLen with
  | nil => simp
  | cons l ls =>
    have hle : ls.foldl min l ≤ l := by
      induction ls generalizing l with
      | nil => exact le_rfl
      | cons k ls ih => exact (ih (min l k)).trans (min_le_left l k)
    exact hle.trans (by simp)

theorem maxFrameLen_le_sum (fs : List (Nat × Nat)) : maxFrameLen fs ≤ (fs.map frameLen).sum := by
  unfold maxFrameLen
  cases fs.map frameLen with
  | nil => simp
  | cons l ls =>
    show ls.foldl max l ≤ (l :: ls).sum
    induction ls generalizing l with
    | nil => simp
    | cons k ls ih =>
      have := ih (max l k)
      simp only [List.sum_cons, List.foldl_cons] at this ⊢
      omega

theorem State.samples_length_lt (s : State) : s.samples.length < 2 ^ 32 := s.samples_length ▸ Word_lt _
theorem State.decodedBits_length_lt (s : State) : s.decodedBits.length < 2 ^ 32 := s.decodedBits_length ▸ Word_lt _

/-- The diagnostic condition, said of the registers FSYNC writes (10_state.md R27, 42_fsync.md R141). -/
theorem diagOf_eq (L : Nat) {fs : List (Nat × Nat)} (h : fs.length < 2 ^ 32) :
    diagOf L fs = (decide (0 < L) && decide (toWord fs.length = 0)) := by
  have hempty : fs.isEmpty = decide (toWord fs.length = 0) := by
    rw [Bool.eq_iff_iff, List.isEmpty_iff, decide_eq_true_iff, ← BitVec.toNat_inj, toWord_toNat _ h]
    simp
  rw [diagOf, hempty]

theorem toNat_ite_toWord (c : Bool) {n : Nat} (h : n < 2 ^ 32) :
    (if c then toWord n else 0 : Word).toNat = if c then n else 0 := by
  cases c <;> simp [toWord_toNat _ h]

/-- Where nothing is valid nothing is promised. -/
theorem State.stageInv_of_invalid {s : State} (hsamp : s.status.vSamp = false) (hdbits : s.status.vDbits = false)
    (hframes : s.status.vFrames = false) (hpm : s.status.vPm = false) (hpack : s.status.vPack = false) :
    s.StageInv := by
  constructor <;> simp [*]

/-- EXTRACT promises its samples and discards every later stage (40_extract.md R111), whatever held before. -/
theorem extractBody_stageInv {s t : State} (hb : extractBody s = .ok t) : t.StageInv := by
  obtain ⟨-, rfl⟩ := extractBody_ok hb
  have hlen : ((s.inBytes s.nLen.toNat).map extract).length < 2 ^ 32 := by
    simpa [State.inBytes] using Word_lt s.nLen
  constructor
  case samp => exact fun _ => ⟨s.inBytes s.nLen.toNat, by simp [State.inBytes], s.samples_putSamples _ hlen⟩
  all_goals nofun

section Promises

variable {s t : State} (h : s.StageInv)
include h

/-- DEMOD promises its bits, keeps the samples, and discards every later stage (41_demod.md R125). -/
theorem State.StageInv.demodBody (hb : demodBody s = .ok t) : t.StageInv := by
  obtain ⟨hv, rfl⟩ := demodBody_ok hb
  have hsamples := s.samples_length_lt
  have hbits := demod_length_le s.samples
  have hmarkers := demod_count_le s.samples
  constructor
  case samp => exact fun _ => h.samp hv
  case dbits => exact fun _ => ⟨hv, s.dbitBytes_putDbits _ (demod s.samples).2 (by omega), toWord_toNat _ (by omega)⟩
  all_goals nofun

/-- FSYNC promises its frames (42_fsync.md R142). The frames of unchanged bits are the frames there were, so a
PACKF result keeps its promise. -/
theorem State.StageInv.fsyncBody (hb : fsyncBody s = .ok t) : t.StageInv := by
  obtain ⟨hv, rfl⟩ := fsyncBody_ok hb
  have hbits := s.decodedBits_length_lt
  have hcount := fsync_length_le s.params.sync s.decodedBits
  have hsum := fsync_sum_le s.params.sync s.decodedBits
  have hmin := minFrameLen_le_sum (fsync s.params.sync s.decodedBits)
  have hmax := maxFrameLen_le_sum (fsync s.params.sync s.decodedBits)
  have hframes := s.frames_putFrames s.decodedBits.length (fsync s.params.sync s.decodedBits) (by omega)
  refine { h with frames := fun _ => ⟨hv, hframes, ?_, ?_, ?_, ?_, ?_⟩, packf := fun hpack hpkr => ⟨rfl, ?_⟩ }
  · exact toWord_toNat _ (by omega)
  · exact toWord_toNat _ (by omega)
  · exact s.decodedBits_length ▸ diagOf_eq s.decodedBits.length (by omega)
  · exact s.decodedBits_length ▸ toNat_ite_toWord _ (by omega)
  · exact s.decodedBits_length ▸ toNat_ite_toWord _ (by omega)
  · obtain ⟨hvf, hpacked⟩ := h.packf hpack hpkr
    obtain ⟨-, hold, -⟩ := h.frames hvf
    rw [hframes, ← hold]
    exact hpacked

/-- PCORR promises its partial matches (42_fsync.md R146). -/
theorem State.StageInv.pcorrBody (hb : pcorrBody s = .ok t) : t.StageInv := by
  obtain ⟨hv, rfl⟩ := pcorrBody_ok hb
  have hbits := s.decodedBits_length_lt
  have hcount := pcorr_length_le s.params.sync s.decodedBits
  exact { h with pm := fun _ => ⟨hv, s.partials_putPartials _ (by omega)⟩ }

/-- PACKF promises the packed frames (43_pack.md R163). -/
theorem State.StageInv.packfBody (hb : packfBody s = .ok t) : t.StageInv := by
  obtain ⟨hv, rfl⟩ := packfBody_ok hb
  obtain ⟨-, hframes, -⟩ := h.frames hv
  have hlen : (packFrames s.frames s.decodedBits).length < 2 ^ 32 := by
    have hbits := s.decodedBits_length_lt
    have hcount := fsync_length_le s.params.sync s.decodedBits
    have hpacked := packFrames_frameTable_le (sync := s.params.sync) hbits
    rw [hframes]
    omega
  exact { h with
    packf := fun _ _ => ⟨hv, s.packed_putPacked false _ hlen⟩
    packr := nofun }

/-- PACKR promises a packed region inside the bits (43_pack.md R164). -/
theorem State.StageInv.packrBody (hb : packrBody s = .ok t) : t.StageInv := by
  obtain ⟨hv, hregion, rfl⟩ := packrBody_ok hb
  have hlen : (pack s.decodedBits s.packStart.toNat s.packLen.toNat).length < 2 ^ 32 := by
    have hbits := Word_lt s.packLen
    rw [pack_length, bytesFor]
    omega
  exact { h with
    packf := nofun
    packr := fun _ _ => ⟨hv, _, _, hregion, s.packed_putPacked true _ hlen⟩ }

end Promises

theorem stepClosed_stageInv : StepClosed State.StageInv where
  setEnv h _ := { h with }
  answer h _ := { h with }
  accept h _ _ := { h with }
  complete h _ := { h with }
  setBwerr h _ := { h with }
  setNLen h _ := { h with }
  setPackStart h _ := { h with }
  setPackLen h _ := { h with }
  putIn h _ _ := { h with }
  enterReset _ _ := State.stageInv_of_invalid rfl rfl rfl rfl rfl
  extract _ hb := extractBody_stageInv hb
  demod h hb := h.demodBody hb
  fsync h hb := h.fsyncBody hb
  pcorr h hb := h.pcorrBody hb
  packf h hb := h.packfBody hb
  packr h hb := h.packrBody hb
  clear _ := State.stageInv_of_invalid rfl rfl rfl rfl rfl

/-- Settles O56: every update keeps the promise of every stage that stays valid. -/
theorem stepKeepsStagePromises : Obligations.StepKeepsStagePromises := fun _ _ hinv hstep =>
  stepClosed_stageInv.step hinv hstep

end Sys2Proof.Machine
end

section
/-! Host accesses of REG (10_state.md R24 to R39): reads and writes of the registers, STATUS as the host sees it,
and what a read returns while a command runs (R50). -/

namespace Sys2Proof.Machine

/-! ## Reads and writes of registers -/

/-- An aligned word access inside REG is no bus error (20_memory.md R61, R64, R65). -/
theorem accessOk_regWord (p : Params) (isWrite : Bool) {off : Nat} (halign : off % 4 = 0) (hfit : off ≤ 0xFC) :
    accessOk p .reg isWrite off 4 = true := by
  rw [accessOk_iff]
  exact ⟨.inl rfl, fun _ => .inl rfl, fun _ => halign, by simp only [spaceSize]; omega⟩

theorem regOffset_aligned (r : RegName) : regOffset r % 4 = 0 ∧ regOffset r ≤ 0x40 := by cases r <;> decide

/-- Every word offset up to CAP_NMAX is a register's (10_state.md R24). -/
theorem exists_regOffset {off : Nat} (halign : off % 4 = 0) (hle : off ≤ 0x40) : ∃ r, off = regOffset r := by
  have hall : ∀ k ≤ 16, ∃ r ∈ regNames, 4 * k = regOffset r := by decide
  obtain ⟨r, -, hr⟩ := hall (off / 4) (by omega)
  exact ⟨r, by omega⟩

section Registers

variable {s : State} (hr : s.rstN = true)
include hr

theorem hostAccess_readReg (r : RegName) :
    hostAccess s (.read .reg (regOffset r) 4) = s.answer (.word (s.readReg r (Config.draw s.draws))) := by
  rw [hostAccess_read hr, hostRead_reg]

theorem hostAccess_readReserved {off : Nat} (halign : off % 4 = 0) (hlo : 0x44 ≤ off) (hhi : off ≤ 0xFC) :
    hostAccess s (.read .reg off 4) = s.answer (.word 0) := by
  rw [hostAccess_read hr, hostRead_word _ (accessOk_regWord _ _ halign hhi), State.hostWord, State.hostRegWord,
    regAt_reserved hlo]

theorem hostAccess_writeRegWord {off : Nat} (halign : off % 4 = 0) (hfit : off ≤ 0xFC) (w : Word) :
    hostAccess s (.write .reg off 4 w) = (s.hostStore .reg off 4 w).answer .written :=
  hostAccess_write_ok hr w (accessOk_regWord _ _ halign hfit)

/-- The W1C write of STATUS acts idle and busy alike (10_state.md R26, 20_memory.md R68). -/
theorem hostAccess_writeStatus (w : Word) :
    hostAccess s (.write .reg (regOffset .status) 4 w) = (writeStatus s w).answer .written := by
  rw [hostAccess_writeRegWord hr (by decide) (by decide)]
  exact congrArg (State.answer · _) (hostStore_status s w)

theorem hostAccess_writeReg_idle (hb : s.status.busy = false) (r : RegName) (w : Word) :
    hostAccess s (.write .reg (regOffset r) 4 w) = (s.writeReg r w).answer .written := by
  obtain ⟨halign, hle⟩ := regOffset_aligned r
  rw [hostAccess_writeRegWord hr halign (by omega)]
  by_cases hst : regOffset r = 4
  · obtain rfl : r = .status := Option.some.inj ((regAt_regOffset r).symm.trans (hst ▸ regAt_regOffset .status))
    exact congrArg (State.answer · _) (hostStore_status s w)
  · rw [hostStore_idle hb 4 w fun h => hst h.2, idleWrite_reg]

/-- A write of a read-only register or of a reserved offset is ignored (10_state.md R24, R39). -/
theorem hostAccess_writeReadOnly_idle (hb : s.status.busy = false) {off : Nat} (halign : off % 4 = 0)
    (hlo : 0x14 ≤ off) (hhi : off ≤ 0xFC) (w : Word) :
    hostAccess s (.write .reg off 4 w) = s.answer .written := by
  rw [hostAccess_writeRegWord hr halign hhi, hostStore_idle hb 4 w (by omega), idleWrite_readOnly s hlo]

theorem hostAccess_writeReg_busy (hb : s.status.busy = true) {off : Nat} (halign : off % 4 = 0)
    (hfit : off ≤ 0xFC) (hst : off ≠ 4) (w : Word) :
    hostAccess s (.write .reg off 4 w) = (s.setBwerr true).answer .written := by
  rw [hostAccess_writeRegWord hr halign hfit, hostStore_busy hb 4 w fun h => hst h.2]

end Registers

/-- Settles O6: CMD is a register like the others, and its idle write is the accept. -/
theorem cmdWriteIssuesCommand : Obligations.CmdWriteIssuesCommand := fun _ w hr =>
  ⟨fun hb => hostAccess_writeReg_idle hr hb .cmd w,
    fun hb => hostAccess_writeReg_busy hr hb (by decide) (by decide) (by decide) w,
    hostAccess_readReg hr .cmd⟩

/-- Settles O47: what the write stores is what the read of the same register answers. -/
theorem operandRegistersReadBack : Obligations.OperandRegistersReadBack := by
  intro s w hr hb
  have hwrite := fun r => hostAccess_writeReg_idle hr hb r w
  have hread : ∀ t : State, t.rstN = true → ∀ r, (hostAccess t (.read .reg (regOffset r) 4)).resp =
      .word (t.readReg r (Config.draw t.draws)) := fun t ht r => congrArg State.resp (hostAccess_readReg ht r)
  refine ⟨⟨hwrite .nLen, ?_⟩, ⟨hwrite .packStart, ?_⟩, ⟨hwrite .packLen, ?_⟩⟩
  · exact hwrite .nLen ▸ hread ((s.setNLen w).answer .written) hr .nLen
  · exact hwrite .packStart ▸ hread ((s.setPackStart w).answer .written) hr .packStart
  · exact hwrite .packLen ▸ hread ((s.setPackLen w).answer .written) hr .packLen

/-- Settles O46: the constants by their registers, the other offsets by the rule for read-only ones. -/
theorem constantAndReservedRegisters : Obligations.ConstantAndReservedRegisters := by
  intro s hr
  refine ⟨⟨_, hostAccess_readReg hr .syncPattern, ?_⟩, ⟨_, hostAccess_readReg hr .capNmax, ?_⟩, ?_, ?_⟩
  · intro j hj
    simp [State.readReg, syncBit, BitVec.getMsbD_eq_getLsbD, hj]
  · have hpred := s.params.nMaxPred.isLt
    exact toWord_toNat _ (by rw [nMax]; omega)
  · exact fun off hlo hhi halign hb w => hostAccess_writeReadOnly_idle hr hb halign hlo (by omega) w
  · refine fun off hlo hhi halign => ⟨hostAccess_readReserved hr halign hlo hhi, fun w => ⟨fun hb => ?_, fun hb => ?_⟩⟩
    · exact hostAccess_writeReadOnly_idle hr hb halign (by omega) hhi w
    · exact hostAccess_writeReg_busy hr hb halign hhi (by omega) w

/-! ## STATUS as the host sees it -/

theorem readStatus_idle {f : Status} (h : f.busy = false) (d : Word) : readStatus f d = f.toWord := by
  simp [readStatus, h]

theorem errNumber_lt (e : ErrCode) : errNumber e < 2 ^ 3 := by cases e <;> decide

theorem errNumber_testBit (e : ErrCode) {k : Nat} (h : 3 ≤ k) : (errNumber e).testBit k = false :=
  Nat.testBit_lt_two_pow ((errNumber_lt e).trans_le (Nat.pow_le_pow_right (by decide) h))

/-- The flags of STATUS stand at their bits (10_state.md R26). -/
theorem Status.toWord_flags (f : Status) :
    f.toWord.getLsbD 0 = f.busy ∧ f.toWord.getLsbD 1 = f.done ∧ f.toWord.getLsbD 8 = f.bwerr ∧
      f.toWord.getLsbD 9 = f.diag ∧ f.toWord.getLsbD 16 = f.vSamp ∧ f.toWord.getLsbD 17 = f.vDbits ∧
      f.toWord.getLsbD 18 = f.vFrames ∧ f.toWord.getLsbD 19 = f.vPm ∧ f.toWord.getLsbD 20 = f.vPack ∧
      f.toWord.getLsbD 21 = f.pkr := by
  refine ⟨?_, ?_, ?_, ?_, ?_, ?_, ?_, ?_, ?_, ?_⟩ <;>
    (rw [Status.toWord_getLsbD f _ (by decide)]; simp [errNumber_testBit])

/-- Where STATUS has no flag it has a bit of ERR or 0 (10_state.md R26). -/
theorem Status.toWord_getLsbD_noFlag (f : Status) {j : Nat} (hj : j < 32)
    (h : 2 ≤ j ∧ j ≤ 7 ∨ 10 ≤ j ∧ j ≤ 15 ∨ 22 ≤ j) :
    f.toWord.getLsbD j = (decide (4 ≤ j) && (errNumber f.err).testBit (j - 4)) := by
  have hne : j ≠ 0 ∧ j ≠ 1 ∧ j ≠ 8 ∧ j ≠ 9 ∧ j ≠ 16 ∧ j ≠ 17 ∧ j ≠ 18 ∧ j ≠ 19 ∧ j ≠ 20 ∧ j ≠ 21 := by omega
  rw [Status.toWord_getLsbD f j hj]
  simp [hne]

theorem Status.toWord_err (f : Status) : (f.toWord.extractLsb' 4 4).toNat = errNumber f.err := by
  have hfield : f.toWord.extractLsb' 4 4 = BitVec.ofNat 4 (errNumber f.err) := by
    refine BitVec.eq_of_getLsbD_eq fun i hi => ?_
    rw [BitVec.getLsbD_extractLsb', BitVec.getLsbD_ofNat, f.toWord_getLsbD_noFlag (by omega) (by omega)]
    simp
  rw [hfield, BitVec.toNat_ofNat, Nat.mod_eq_of_lt ((errNumber_lt f.err).trans (by decide))]

theorem Status.toWord_reserved (f : Status) {j : Nat} (hj : j < 32)
    (h : j = 2 ∨ j = 3 ∨ 10 ≤ j ∧ j ≤ 15 ∨ 22 ≤ j) : f.toWord.getLsbD j = false := by
  rw [f.toWord_getLsbD_noFlag hj (by omega)]
  by_cases h4 : 4 ≤ j
  · simp [errNumber_testBit f.err (show 3 ≤ j - 4 by omega)]
  · simp [h4]

theorem writeStatus_eq (s : State) (w : Word) :
    writeStatus s w = { s with status := { s.status with bwerr := s.status.bwerr && !w.getLsbD 8 } } := by
  unfold writeStatus
  cases h : w.getLsbD 8 <;> simp [State.setBwerr]

/-- Two words agree in a field when their bits there do. -/
theorem extractLsb'_congr {v w : Word} {k n : Nat} (h : ∀ i < n, v.getLsbD (k + i) = w.getLsbD (k + i)) :
    v.extractLsb' k n = w.extractLsb' k n :=
  BitVec.eq_of_getLsbD_eq fun i hi => by simp only [BitVec.getLsbD_extractLsb', h i hi]

/-- A field of a word is 0 when its bits are. -/
theorem extractLsb'_eq_zero {w : Word} {k n : Nat} (h : ∀ i < n, w.getLsbD (k + i) = false) :
    w.extractLsb' k n = 0 :=
  BitVec.eq_of_getLsbD_eq fun i hi => by
    simp only [BitVec.getLsbD_extractLsb', h i hi, Bool.and_false]
    exact BitVec.getLsbD_zero.symm

/-- Settles O43: an idle read gives `Status.toWord`, whose flags, ERR field and reserved bits are as R26 says. -/
theorem statusReadsItsFields : Obligations.StatusReadsItsFields := by
  intro s hr
  refine ⟨fun hb => ⟨s.status.toWord, ?_, ?_⟩, fun w => ?_⟩
  · exact readStatus_idle hb (Config.draw s.draws) ▸ hostAccess_readReg hr .status
  · obtain ⟨h0, h1, h8, h9, h16, h17, h18, h19, h20, h21⟩ := s.status.toWord_flags
    refine ⟨h0.trans hb, h1, s.status.toWord_err, h8, h9, h16, h17, h18, h19, h20, h21, ?_, ?_, ?_⟩ <;>
      exact extractLsb'_eq_zero fun i hi => s.status.toWord_reserved (by omega) (by omega)
  · exact (hostAccess_writeStatus hr w).trans (congrArg (State.answer · _) (writeStatus_eq s w))

/-! ## Reads while a command runs -/

/-- The bits of STATUS that a busy read draws (10_state.md R50). -/
theorem statusDrawMask_getLsbD {j : Nat} (hj : j < 32) :
    statusDrawMask.getLsbD j = decide (4 ≤ j ∧ j ≤ 7 ∨ j = 9 ∨ 16 ≤ j ∧ j ≤ 21) := by
  have hall : ∀ j < 32, statusDrawMask.getLsbD j = decide (4 ≤ j ∧ j ≤ 7 ∨ j = 9 ∨ 16 ≤ j ∧ j ≤ 21) := by decide
  exact hall j hj

/-- Bit `j` of STATUS as a busy read returns it (10_state.md R50). -/
theorem readStatus_busy_getLsbD {f : Status} (h : f.busy = true) (d : Word) {j : Nat} (hj : j < 32) :
    (readStatus f d).getLsbD j = (decide (j = 0) || (f.bwerr && decide (j = 8)) ||
      (d.getLsbD j && decide (4 ≤ j ∧ j ≤ 7 ∨ j = 9 ∨ 16 ≤ j ∧ j ≤ 21))) := by
  simp only [readStatus, h, if_true, BitVec.getLsbD_or, BitVec.getLsbD_and, bitAt_getLsbD _ _ _ hj,
    statusDrawMask_getLsbD hj, Bool.true_and]

theorem readStatus_busy_drawn {f : Status} (h : f.busy = true) (d : Word) {j : Nat}
    (hj : 4 ≤ j ∧ j ≤ 7 ∨ j = 9 ∨ 16 ≤ j ∧ j ≤ 21) : (readStatus f d).getLsbD j = d.getLsbD j := by
  rw [readStatus_busy_getLsbD h d (by omega), decide_eq_true hj]
  have hne : j ≠ 0 ∧ j ≠ 8 := by omega
  simp [hne]

theorem readStatus_busy_reserved {f : Status} (h : f.busy = true) (d : Word) {j : Nat} (hj : j < 32)
    (hres : j = 2 ∨ j = 3 ∨ 10 ≤ j ∧ j ≤ 15 ∨ 22 ≤ j) : (readStatus f d).getLsbD j = false := by
  have hnot : ¬ (4 ≤ j ∧ j ≤ 7 ∨ j = 9 ∨ 16 ≤ j ∧ j ≤ 21) := by omega
  have hne : j ≠ 0 ∧ j ≠ 8 := by omega
  rw [readStatus_busy_getLsbD h d hj, decide_eq_false hnot]
  simp [hne]

/-- While a command runs no stage's results are readable (10_state.md R50). -/
theorem State.readable_busy {s : State} (hb : s.status.busy = true) (valid : Bool) : s.readable valid = false := by
  simp [State.readable, hb]

/-- A result register, SAMPLE_COUNT to DIAG_HEAD_LEN, reads as the draw (10_state.md R50). -/
theorem readReg_result_busy {s : State} (hb : s.status.busy = true) {r : RegName}
    (h : 0x14 ≤ regOffset r ∧ regOffset r ≤ 0x38) (d : Word) : s.readReg r d = d := by
  cases r <;> simp [regOffset, State.readReg, State.countReg, hb] at h ⊢

theorem hostByte_busy {s : State} (hb : s.status.busy = true) {sp : Space} (h : sp ≠ .inp) (off : Nat) (d : Byte) :
    s.hostByte sp off d = d := by
  cases sp <;> simp [State.hostByte, State.readable_busy hb] at h ⊢

theorem hostWord_table_busy {s : State} (hb : s.status.busy = true) {sp : Space} (h : sp = .ftab ∨ sp = .pmtab)
    (off : Nat) (d : Word) : s.hostWord sp off d = d := by
  obtain rfl | rfl := h
  · simp [State.hostWord, State.hostFrameWord, State.readable_busy hb]
  · simp [State.hostWord, State.hostPmWord, State.readable_busy hb]

/-- A 1-byte read inside a byte-organised space is no bus error (20_memory.md R61, R65). -/
theorem hostAccess_readByte {s : State} (hr : s.rstN = true) {sp : Space} {off : Nat}
    (hsp : sp ≠ .reg ∧ sp ≠ .ftab ∧ sp ≠ .pmtab) (hfit : off < spaceSize s.params sp) :
    hostAccess s (.read sp off 1) = s.answer (.byte (s.hostByte sp off (lane (Config.draw s.draws) 0))) := by
  rw [hostAccess_read hr, hostRead_byte]
  exact (accessOk_iff ..).mpr ⟨.inr ⟨rfl, hsp⟩, nofun, nofun, hfit⟩

/-- Settles O44: STATUS bit by bit, and each other read by what `readable` and `countReg` answer while busy. -/
theorem busyReadsAreTrueOrDrawn : Obligations.BusyReadsAreTrueOrDrawn := by
  intro s hr hb
  have hreg := fun r => congrArg State.resp (hostAccess_readReg hr r)
  refine ⟨⟨_, hostAccess_readReg hr .status, ?_⟩, ?_, hreg .nLen, hreg .packStart, hreg .packLen, ?_, ?_, ?_⟩
  · have hbit := fun j (hj : j < 32) => readStatus_busy_getLsbD hb (Config.draw s.draws) hj
    have hdrawn := fun j => readStatus_busy_drawn hb (Config.draw s.draws) (j := j)
    have hreserved := fun j => readStatus_busy_reserved hb (Config.draw s.draws) (j := j)
    refine ⟨(hbit 0 (by decide)).trans ?_, (hbit 1 (by decide)).trans ?_, (hbit 8 (by decide)).trans ?_,
      extractLsb'_congr fun i hi => hdrawn _ (by omega), hdrawn 9 (by decide),
      extractLsb'_congr fun i hi => hdrawn _ (by omega), ?_, ?_, ?_⟩
    · simp
    · simp
    · simp
    all_goals exact extractLsb'_eq_zero fun i hi => hreserved _ (by omega) (by omega)
  · intro off hlo hhi halign
    obtain ⟨r, rfl⟩ := exists_regOffset halign (by omega)
    rw [hreg r, readReg_result_busy hb ⟨hlo, hhi⟩]
    rfl
  · exact fun off hfit => congrArg State.resp (hostAccess_readByte hr (by decide) hfit)
  · intro sp off hsp hfit
    have hbyte : sp ≠ .inp ∧ sp ≠ .reg ∧ sp ≠ .ftab ∧ sp ≠ .pmtab := by
      obtain rfl | rfl | rfl := hsp <;> decide
    rw [hostAccess_readByte hr hbyte.2 hfit, hostByte_busy hb hbyte.1]
    rfl
  · intro sp off hsp halign hfit
    have hok : accessOk s.params sp false off 4 = true :=
      (accessOk_iff ..).mpr ⟨.inl rfl, nofun, fun _ => halign, hfit⟩
    rw [hostAccess_read hr, hostRead_word _ hok, hostWord_table_busy hb hsp]
    rfl

end Sys2Proof.Machine
end

section
/-! A command from the bus to its meaning (10_state.md R21, 30_encoding.md R92, R97), and the state right after
reset (10_state.md R49). -/

namespace Sys2Proof.Machine

/-! ## Decoding, placing and running a command -/

theorem decode_encode (i : Instr) : decode (encode i) = .ok i := by cases i <;> rfl

/-- A table word of 32 bits is the word itself. -/
theorem tableWord_full (w : Nat) : tableWord 32 w = BitVec.ofNat 32 w := by
  simp [tableWord, ← BitVec.toNat_inj]

theorem decode_of_decodeTableWord {nbits w : Nat} {i : Instr} (h : decodeTableWord nbits w = some i) :
    decode (tableWord nbits w) = .ok i := by
  unfold decodeTableWord at h
  cases hd : decode (tableWord nbits w) with
  | ok j => simpa [hd] using h
  | error e => simp [hd] at h

/-- The sequencer's turn in a busy block out of reset runs the command CMDQ decodes to (10_state.md R21). -/
theorem sequencerTurn_of_decode {s : State} {i : Instr} (hr : s.rstN = true) (hb : s.status.busy = true)
    (hd : decode s.cmdq = .ok i) : sequencerTurn s = exec i s := by
  simp only [sequencerTurn, completeStep, hr, hb, hd, Bool.and_self, if_true]

theorem step_nil {s : State} (h : s.env = []) : step s = sequencerTurn s := by simp only [step, machineStep, h]

theorem step_cons {s : State} {e : Event} {rest : List Event} (h : s.env = e :: rest) :
    step s = eventStep (s.setEnv rest) e := by simp only [step, machineStep, h]

/-- Settles O1: an empty schedule, as `withFetchWord` leaves it, and a `sequencer` event both give the turn. -/
theorem stepRunsDecodedCommand : Obligations.StepRunsDecodedCommand := by
  refine fun s i => ⟨fun hr hb hd => ⟨fun hnil => ?_, fun rest hcons => ?_⟩, fun w _ hw => ?_⟩
  · rw [step_nil hnil, sequencerTurn_of_decode hr hb hd]
  · rw [step_cons hcons]
    exact sequencerTurn_of_decode (s := s.setEnv rest) hr hb hd
  · have hplaced : step (s.withFetchWord 32 w) = exec i (s.withCommand (tableWord 32 w)) :=
      (step_nil rfl).trans (sequencerTurn_of_decode rfl rfl (decode_of_decodeTableWord hw))
    rw [hplaced, tableWord_full]
    rfl

/-- One step of a run (Host/Core.lean). -/
theorem core_run_of_step {s t : State} (h : step s = .next t) (k : Nat) :
    Host.Core.run core (k + 1) s = Host.Core.run core k t := by
  have hcore : core.step s = .next t := h
  simp only [Host.Core.run, hcore]

theorem core_run_one (s : State) : Host.Core.run core 1 s = step s := by
  have hcore : core.step s = step s := rfl
  simp only [Host.Core.run, hcore]
  cases step s <;> rfl

/-- Settles O7: the first step accepts the command, as O6 says, and the second is the sequencer's turn. -/
theorem commandIssuedOnBusRuns : Obligations.CommandIssuedOnBusRuns := by
  intro s i hr hb henv
  have haccept : step s = .next (((s.setEnv [.sequencer]).accept (encode i)).answer .written) :=
    (step_cons henv).trans (congrArg _ (hostAccess_writeReg_idle (s := s.setEnv [.sequencer]) hr hb .cmd (encode i)))
  rw [core_run_of_step haccept, core_run_one, step_cons rfl]
  exact sequencerTurn_of_decode (s := (((s.setEnv [.sequencer]).accept (encode i)).answer .written).setEnv [])
    hr rfl (decode_encode i)

/-! ## The state right after reset -/

/-- Settles O50: each value is the one `State.reset` names. -/
theorem resetValues : Obligations.ResetValues := by
  refine ⟨?_, rfl, rfl, rfl, rfl, rfl, rfl, rfl, rfl, rfl, rfl, rfl, rfl, rfl, rfl, rfl, rfl, fun _ => rfl⟩
  decide

/-- Settles O58: no count is above 0, no buffer has been written, and nothing is valid. -/
theorem resetStateIsSound : Obligations.ResetStateIsSound where
  memories := ⟨.nil, .nil, .nil, .nil⟩
  handshake := by constructor <;> decide
  stages := State.stageInv_of_invalid rfl rfl rfl rfl rfl
  capacity := by constructor <;> simp [State.reset]

end Sys2Proof.Machine
end

section
/-! Host accesses of memory (20_memory.md): a read has no side effect (R67), words are little-endian (R62), a
write while a command runs is ignored (R68), idle reads return the results (R71), bus addresses select spaces
(R76), and every step keeps the byte memories canonical (log entry 4). -/

namespace Sys2Proof.Machine

/-! ## Reads and writes as whole-state equations -/

/-- A read answers, and does nothing else, in every state (20_memory.md R67). -/
theorem hostAccess_read_eq_answer (s : State) (sp : Space) (off n : Nat) :
    ∃ r, hostAccess s (.read sp off n) = s.answer r := by
  obtain h | ⟨_, _, _, _, hwrite, -⟩ := hostAccess_cases s (.read sp off n)
  · exact h
  · cases hwrite

theorem State.sameBlock_answer (s : State) (r : BusResp) : s.sameBlock (s.answer r) := rfl

/-- Settles O42: the one thing a read does is `State.answer`. -/
theorem readsHaveNoSideEffect : Obligations.ReadsHaveNoSideEffect := by
  intro s sp off n
  obtain ⟨r, hread⟩ := hostAccess_read_eq_answer s sp off n
  rw [hread]
  exact ⟨s.sameBlock_answer r, s.answer_env r, s.answer_draws r⟩

/-- Settles O40: while BUSY = 1 the store is `setBwerr true`, and a bus error stores nothing. -/
theorem busyWritesAreIgnored : Obligations.BusyWritesAreIgnored := by
  intro s sp off n w hr hb hst
  refine ⟨fun hok => ?_, fun herr => hostAccess_write_error hr w herr⟩
  rw [hostAccess_write_ok hr w hok, hostStore_busy hb n w hst]
  rfl

/-! ## The canonical form of the byte memories -/

theorem stepClosed_memoriesWf : StepClosed State.MemoriesWf where
  setEnv h _ := { h with }
  answer h _ := { h with }
  accept h _ _ := { h with }
  complete h _ := { h with }
  setBwerr h _ := { h with }
  setNLen h _ := { h with }
  setPackStart h _ := { h with }
  setPackLen h _ := { h with }
  putIn h off b := { h with inp := Memory.write_wf h.inp off b }
  enterReset _ _ := ⟨.nil, .nil, .nil, .nil⟩
  extract h hb := by
    obtain ⟨-, rfl⟩ := extractBody_ok hb
    exact { h with samp := Memory.overlay_wf h.samp _ }
  demod h hb := by
    obtain ⟨-, rfl⟩ := demodBody_ok hb
    exact { h with dbits := Memory.overlay_wf h.dbits _ }
  fsync h hb := by
    obtain ⟨-, rfl⟩ := fsyncBody_ok hb
    exact { h with }
  pcorr h hb := by
    obtain ⟨-, rfl⟩ := pcorrBody_ok hb
    exact { h with }
  packf h hb := by
    obtain ⟨-, rfl⟩ := packfBody_ok hb
    exact { h with pout := Memory.overlay_wf h.pout _ }
  packr h hb := by
    obtain ⟨-, -, rfl⟩ := packrBody_ok hb
    exact { h with pout := Memory.overlay_wf h.pout _ }
  clear h := { h with }

/-- Settles O54: a byte memory changes only by a write or an overlay, and both keep the canonical form. -/
theorem stepKeepsMemoriesCanonical : Obligations.StepKeepsMemoriesCanonical := fun _ _ hwf hstep =>
  stepClosed_memoriesWf.step hwf hstep

/-! ## Little-endian words -/

/-- Store the low `n` bytes of `w` at offsets `off .. off + n - 1`, the lowest byte first. -/
def Memory.store (m : Memory) (off : Nat) (w : Word) (n : Nat) : Memory :=
  match n with
  | 0 => m
  | n + 1 => (m.store off w n).write (off + n) (lane w n)

theorem Memory.store_wf {m : Memory} (h : m.wf) (off : Nat) (w : Word) (n : Nat) : (m.store off w n).wf := by
  induction n with
  | zero => exact h
  | succ n ih => exact Memory.write_wf ih _ _

/-- The stored range reads as the lanes of the word, and every other offset as before. -/
theorem Memory.read_store {m : Memory} (h : m.wf) (off : Nat) (w : Word) (n x : Nat) :
    (m.store off w n).read x = if off ≤ x ∧ x < off + n then some (lane w (x - off)) else m.read x := by
  induction n with
  | zero => rw [Memory.store, if_neg (by omega)]
  | succ n ih =>
    rw [Memory.store, Memory.read_write _ (Memory.store_wf h off w n), ih]
    by_cases hx : off + n = x
    · rw [if_pos hx, if_pos (by omega), ← hx, Nat.add_sub_cancel_left]
    · rw [if_neg hx]
      exact if_congr (by omega) rfl rfl

/-- A write of IN of an allowed width stores its bytes in IN and changes nothing else (20_memory.md R61, R62). -/
theorem writeIn_eq_store (s : State) (off : Nat) {n : Nat} (w : Word) (hn : n = 1 ∨ n = 4) :
    s.writeIn off n w = { s with inp := s.inp.store off w n } := by
  obtain rfl | rfl := hn <;> rfl

theorem hostAccess_writeIn_idle {s : State} (hr : s.rstN = true) (hb : s.status.busy = false) {off n : Nat} (w : Word)
    (hok : accessOk s.params .inp true off n = true) :
    hostAccess s (.write .inp off n w) =
      { s with inp := s.inp.store off w n, resp := .written, draws := s.draws + 1 } := by
  have hwidth : n = 1 ∨ n = 4 := ((accessOk_iff ..).mp hok).1.symm.imp_left And.left
  rw [hostAccess_write_ok hr w hok, hostStore_idle hb n w (by simp), State.idleWrite, writeIn_eq_store s off w hwidth]
  rfl

/-- The word of a byte-organised space is made of four of its bytes (20_memory.md R62). -/
theorem hostWord_byteSpace (s : State) {sp : Space} (h : sp = .inp ∨ sp = .samp ∨ sp = .dbits ∨ sp = .pout) (off : Nat)
    (d : Word) : s.hostWord sp off d = s.hostBytes4 sp off d := by
  obtain rfl | rfl | rfl | rfl := h <;> rfl

/-- Byte `k` of a little-endian word is the byte at offset `off + k` (20_memory.md R62). -/
theorem hostBytes4_lane (s : State) (sp : Space) (off : Nat) (d : Word) {k : Nat} (hk : k < 4) :
    lane (s.hostBytes4 sp off d) k = s.hostByte sp (off + k) (lane d k) := by
  obtain ⟨h0, h1, h2, h3⟩ := littleEndian_lane (s.hostByte sp off (lane d 0)) (s.hostByte sp (off + 1) (lane d 1))
    (s.hostByte sp (off + 2) (lane d 2)) (s.hostByte sp (off + 3) (lane d 3))
  match k, hk with
  | 0, _ => exact h0
  | 1, _ => exact h1
  | 2, _ => exact h2
  | 3, _ => exact h3

/-- Settles O41: a read by its lanes, a write by what `Memory.store` reads back. -/
theorem wordsAreLittleEndian : Obligations.WordsAreLittleEndian := by
  refine ⟨fun s sp off hr hsp hok => ?_, fun s off n w hr hb hwf hok => ?_⟩
  · refine ⟨s.hostBytes4 sp off (Config.draw s.draws), ?_, fun k hk => hostBytes4_lane s sp off _ hk⟩
    rw [hostAccess_read hr, hostRead_word _ hok, hostWord_byteSpace s hsp]
    rfl
  · refine ⟨_, hostAccess_writeIn_idle hr hb w hok, fun k hk => ?_, fun a ha => ?_⟩
    · rw [Memory.read_store hwf, if_pos (by omega), Nat.add_sub_cancel_left]
      rfl
    · rw [Memory.read_store hwf, if_neg (by omega)]

/-! ## Idle reads of the results -/

/-- Entry `k`, word `j` of a table stands at offset `16 * k + 4 * j` (10_state.md R43, R44). -/
theorem entryOffset_split (k : Nat) {j : Nat} (hj : j < 4) :
    (16 * k + 4 * j) / entryBytes = k ∧ (16 * k + 4 * j) % entryBytes / 4 = j := by
  simp only [entryBytes]
  omega

/-- Reads of the words of an entry inside its table are no bus errors (20_memory.md R61, R64, R65), so they answer
what the table holds there. -/
theorem hostAccess_readEntryWord {s : State} (hr : s.rstN = true) {sp : Space} {k : Nat}
    (hfit : 16 * k + 16 ≤ spaceSize s.params sp) {word : Nat → Word}
    (hword : ∀ j < 4, ∀ d, s.hostWord sp (16 * k + 4 * j) d = word j) (j : Nat) (hj : j < 4) :
    (hostAccess s (.read sp (16 * k + 4 * j) 4)).resp = .word (word j) := by
  have hok : accessOk s.params sp false (16 * k + 4 * j) 4 = true :=
    (accessOk_iff ..).mpr ⟨.inl rfl, nofun, fun _ => by omega, by omega⟩
  rw [hostAccess_read hr, hostRead_word _ hok, hword j hj]
  rfl

section Idle

variable {s : State} (hb : s.status.busy = false)
include hb

/-- While no command runs a stage's results are readable as its valid bit says (10_state.md R46). -/
theorem State.readable_idle (valid : Bool) : s.readable valid = valid := by simp [State.readable, hb]

theorem State.countReg_idle (w d : Word) : s.countReg w d = w := by simp [State.countReg, hb]

theorem hostByte_samp {off : Nat} (hv : s.status.vSamp = true) (hoff : off < s.sampleCount.toNat) (d : Byte) :
    s.hostByte .samp off d = s.sampAt off := by
  simp [State.hostByte, State.readable_idle hb, hv, hoff]

theorem hostByte_dbits {off : Nat} (hv : s.status.vDbits = true) (hoff : off < s.bitCount.toNat) (d : Byte) :
    s.hostByte .dbits off d = s.dbitAt off := by
  simp [State.hostByte, State.readable_idle hb, hv, hoff]

theorem hostByte_pout {off : Nat} (hv : s.status.vPack = true) (hoff : off < s.packBytes.toNat) (d : Byte) :
    s.hostByte .pout off d = s.poutAt off := by
  simp [State.hostByte, State.readable_idle hb, hv, hoff]

theorem hostWord_ftab {k : Nat} (hv : s.status.vFrames = true) (hk : k < s.frameCount.toNat) (j : Nat) (hj : j < 4)
    (d : Word) : s.hostWord .ftab (16 * k + 4 * j) d = (s.frameAt k).wordAt j := by
  simp only [State.hostWord, State.hostFrameWord, State.readable_idle hb, hv, entryOffset_split k hj, hk,
    decide_true, Bool.and_self, if_true]

theorem hostWord_pmtab {k : Nat} (hv : s.status.vPm = true) (hk : k < s.pmCount.toNat) (j : Nat) (hj : j < 4)
    (d : Word) : s.hostWord .pmtab (16 * k + 4 * j) d = (s.pmAt k).wordAt j := by
  simp only [State.hostWord, State.hostPmWord, State.readable_idle hb, hv, entryOffset_split k hj, hk,
    decide_true, Bool.and_self, if_true]

end Idle

/-- Settles O45: no read of a result register, nor of a valid entry below its count, takes the draw. -/
theorem idleReadsReturnResults : Obligations.IdleReadsReturnResults := by
  intro s hr hb
  have hcount (r : RegName) {w : Word} (h : ∀ d, s.readReg r d = s.countReg w d) :
      (hostAccess s (.read .reg (regOffset r) 4)).resp = .word w := by
    rw [hostAccess_readReg hr, h, State.countReg_idle hb]
    rfl
  have hbyte {sp : Space} {off : Nat} {b : Byte} (hsp : sp ≠ .reg ∧ sp ≠ .ftab ∧ sp ≠ .pmtab)
      (hfit : off < spaceSize s.params sp) (h : ∀ d, s.hostByte sp off d = b) :
      (hostAccess s (.read sp off 1)).resp = .byte b := by
    rw [hostAccess_readByte hr hsp hfit, h]
    rfl
  refine ⟨⟨hcount .sampleCount fun _ => rfl, hcount .markerCount fun _ => rfl, hcount .bitCount fun _ => rfl,
    hcount .frameCount fun _ => rfl, hcount .frameMinLen fun _ => rfl, hcount .frameMaxLen fun _ => rfl,
    hcount .pmCount fun _ => rfl, hcount .packBytes fun _ => rfl, hcount .diagPrefixLen fun _ => rfl,
    hcount .diagHeadLen fun _ => rfl⟩, ?_, ?_, ?_, ?_, ?_⟩
  · exact fun off hv hoff hfit => hbyte (by decide) hfit (hostByte_samp hb hv hoff)
  · exact fun off hv hoff hfit => hbyte (by decide) hfit (hostByte_dbits hb hv hoff)
  · exact fun off hv hoff hfit => hbyte (by decide) hfit (hostByte_pout hb hv hoff)
  · intro k hv hk hfit
    have hword := hostAccess_readEntryWord hr hfit (hostWord_ftab hb hv hk)
    exact ⟨hword 0 (by decide), hword 1 (by decide), hword 2 (by decide), hword 3 (by decide)⟩
  · intro k hv hk hfit
    have hword := hostAccess_readEntryWord hr hfit (hostWord_pmtab hb hv hk)
    exact ⟨hword 0 (by decide), hword 1 (by decide), hword 2 (by decide), hword 3 (by decide)⟩

/-! ## Bus addresses -/

theorem mem_spaces (sp : Space) : sp ∈ spaces := by cases sp <;> decide

theorem inSpace_iff (p : Params) (addr : Nat) (sp : Space) :
    inSpace p addr sp = true ↔ spaceBase p sp ≤ addr ∧ addr < spaceBase p sp + spaceSize p sp := decide_eq_true_iff

/-- A placement is legal when every two different spaces are apart (20_memory.md R76). -/
theorem placementOk_iff (p : Params) : placementOk p = true ↔ ∀ a b, a ≠ b → apart p a b = true := by
  simp only [placementOk, List.all_eq_true, Bool.or_eq_true, decide_eq_true_eq, mem_spaces, true_implies,
    or_iff_not_imp_left, ne_eq]

/-- Under a legal placement an address lies in one space at most. -/
theorem inSpace_unique {p : Params} (hp : placementOk p = true) {addr : Nat} {a b : Space}
    (ha : inSpace p addr a = true) (hb : inSpace p addr b = true) : a = b := by
  by_contra hne
  exact (apart_iff_no_shared_address p a b).mp ((placementOk_iff p).mp hp a b hne) addr ⟨ha, hb⟩

/-- Under a legal placement an address decodes to the space it lies in. -/
theorem busDecode_of_inSpace {p : Params} (hp : placementOk p = true) {addr : Nat} {sp : Space}
    (h : inSpace p addr sp = true) : busDecode p addr = some (sp, addr - spaceBase p sp) := by
  unfold busDecode
  cases hfind : spaces.find? (inSpace p addr) with
  | none => exact absurd h (List.find?_eq_none.mp hfind sp (mem_spaces sp))
  | some sp' =>
    obtain rfl := inSpace_unique hp (List.find?_some hfind) h
    rfl

theorem busDecode_base_add {p : Params} (hp : placementOk p = true) {sp : Space} {off : Nat}
    (h : off < spaceSize p sp) : busDecode p (spaceBase p sp + off) = some (sp, off) := by
  have hin : inSpace p (spaceBase p sp + off) sp = true := (inSpace_iff ..).mpr ⟨by omega, by omega⟩
  rw [busDecode_of_inSpace hp hin, Nat.add_sub_cancel_left]

theorem busDecode_elsewhere {p : Params} {addr : Nat}
    (h : ∀ sp, ¬ (spaceBase p sp ≤ addr ∧ addr < spaceBase p sp + spaceSize p sp)) : busDecode p addr = none := by
  rw [busDecode, List.find?_eq_none.mpr fun sp _ => (inSpace_iff p addr sp).not.mpr (h sp), Option.map_none]

/-- A read at a bus address in no space of the block (20_memory.md R76, log entry 9). -/
theorem busAccess_read_elsewhere {s : State} {addr : Nat} (h : busDecode s.params addr = none) (n : Nat) :
    busAccess s (.read addr n) = s.answer .noAnswer := by
  simp only [busAccess, BusAccess.decode, h, Option.map_none]

/-- Both directions of an access at an address that decodes to offset `off` of space `sp`. -/
theorem busAccess_of_busDecode {s : State} {addr off : Nat} {sp : Space} (h : busDecode s.params addr = some (sp, off))
    (n : Nat) (w : Word) : busAccess s (.read addr n) = hostAccess s (.read sp off n) ∧
      busAccess s (.write addr n w) = hostAccess s (.write sp off n w) := by
  simp only [busAccess, BusAccess.decode, h, Option.map_some, and_self]

/-- Settles O49: the address decodes to its own space and offset, or to none. -/
theorem busAddressesSelectSpaces : Obligations.BusAddressesSelectSpaces := by
  refine fun s hp => ⟨fun sp off n w hoff => ?_, fun addr n w hnone => ?_⟩
  · exact busAccess_of_busDecode (busDecode_base_add hp hoff) n w
  · have hdecode := busDecode_elsewhere hnone
    exact ⟨busAccess_read_elsewhere hdecode n, busAccess_write_elsewhere hdecode n w⟩

end Sys2Proof.Machine
end

section
/-! The decoder and the encoder (30_encoding.md R90 to R93): the two fields of a command word as parts of its
number, what each branch of the decoder answers, and the completion of an illegal word. -/

namespace Sys2Proof.Machine

/-! ## The fields of a command word -/

theorem cmdOp_eq (w : Word) : cmdOp w = w.toNat % 16 := by simp [cmdOp]

theorem cmdRsv_eq (w : Word) : cmdRsv w = w.toNat / 16 := by
  have hw := w.isLt
  simp only [cmdRsv, BitVec.extractLsb'_toNat, Nat.shiftRight_eq_div_pow]
  omega

/-- A word is well formed when it is one of the numbers 0 to 8 (R90, R91). -/
theorem wellFormed_iff (w : Word) : CmdWord.wellFormed w = true ↔ w.toNat ≤ 8 := by
  simp only [CmdWord.wellFormed, rsvClear, opDefined, Bool.and_eq_true, decide_eq_true_eq]
  omega

/-! ## The opcode map -/

theorem encode_toNat_le (i : Instr) : (encode i).toNat ≤ 8 := by cases i <;> decide

/-- The words 0 to 8 are all in use (R91). -/
theorem exists_eq_encode {w : Word} (h : w.toNat ≤ 8) : ∃ i, w = encode i := by
  have hall : ∀ n ≤ 8, ∃ i ∈ (List.range 9).filterMap opcodeMap, n = (encode i).toNat := by decide
  obtain ⟨i, -, hi⟩ := hall w.toNat h
  exact ⟨i, BitVec.eq_of_toNat_eq hi⟩

theorem opcodeMap_encode (i : Instr) : opcodeMap (encode i).toNat = some i := by cases i <;> rfl

theorem opcodeMap_reserved {op : Nat} (h : 9 ≤ op) : opcodeMap op = none := by
  obtain ⟨k, rfl⟩ := Nat.exists_eq_add_of_le' h
  rfl

/-! ## What each branch of the decoder answers -/

theorem decode_reservedBits {w : Word} (hrsv : w.toNat / 16 ≠ 0) : decode w = .error .reservedBits :=
  if_neg (by rwa [cmdRsv_eq])

theorem decode_reservedOpcode {w : Word} (hrsv : w.toNat / 16 = 0) (hop : 9 ≤ w.toNat % 16) :
    decode w = .error .reservedOpcode := by
  simp only [decode, cmdRsv_eq, cmdOp_eq, hrsv, opcodeMap_reserved hop, if_true]

theorem decode_command {w : Word} {i : Instr} (hrsv : w.toNat / 16 = 0) (hop : w.toNat % 16 = (encode i).toNat) :
    decode w = .ok i := by
  simp only [decode, cmdRsv_eq, cmdOp_eq, hrsv, hop, opcodeMap_encode, if_true]

/-- An illegal word is refused, under one name or the other (R93). -/
theorem decode_illegal {w : Word} (h : w.toNat / 16 ≠ 0 ∨ 9 ≤ w.toNat % 16) : ∃ e, decode w = .error e := by
  by_cases hrsv : w.toNat / 16 = 0
  · exact ⟨_, decode_reservedOpcode hrsv (h.resolve_left (not_not_intro hrsv))⟩
  · exact ⟨_, decode_reservedBits hrsv⟩

/-- Every word is the word of the command it decodes to, or is above the opcode map and refused (R92). -/
theorem decode_cases (w : Word) :
    (∃ i, w = encode i ∧ decode w = .ok i) ∨ (8 < w.toNat ∧ ∃ e, decode w = .error e) := by
  by_cases hle : w.toNat ≤ 8
  · obtain ⟨i, rfl⟩ := exists_eq_encode hle
    exact .inl ⟨i, rfl, decode_encode i⟩
  · exact .inr ⟨Nat.lt_of_not_le hle, decode_illegal (by omega)⟩

theorem decode_eq_ok_iff (i : Instr) (w : Word) : decode w = .ok i ↔ w = encode i := by
  refine ⟨fun hok => ?_, fun hw => hw ▸ decode_encode i⟩
  obtain ⟨j, hw, hj⟩ | ⟨-, e, he⟩ := decode_cases w
  · obtain rfl : j = i := Except.ok.inj (hj.symm.trans hok)
    exact hw
  · cases he.symm.trans hok

theorem exists_decode_ok_iff (w : Word) : (∃ i, decode w = .ok i) ↔ w.toNat ≤ 8 := by
  simp only [decode_eq_ok_iff]
  constructor
  · rintro ⟨i, rfl⟩
    exact encode_toNat_le i
  · exact exists_eq_encode

/-- Settles O3: both the well-formed words and those that decode are the numbers up to 8. -/
theorem decodeAndEncodeAgree : Obligations.DecodeAndEncodeAgree :=
  ⟨fun i _ => decode_encode i, decode_eq_ok_iff,
    fun w => (wellFormed_iff w).trans (exists_decode_ok_iff w).symm⟩

/-! ## The Complete step decodes CMDQ -/

theorem completeStep_of_ok {s : State} {i : Instr} (hd : decode s.cmdq = .ok i) : completeStep s = exec i s := by
  simp only [completeStep, hd]

theorem completeStep_of_error {s : State} {e : DecodeError} (hd : decode s.cmdq = .error e) :
    completeStep s = .next (s.complete .illegal) := by
  simp only [completeStep, hd, raiseCmdError]

/-- The sequencer's turn in a busy block out of reset completes a refused word with ILLEGAL (R93). -/
theorem sequencerTurn_of_error {s : State} {e : DecodeError} (hr : s.rstN = true) (hb : s.status.busy = true)
    (hd : decode s.cmdq = .error e) : sequencerTurn s = .next (s.complete .illegal) := by
  simp only [sequencerTurn, hr, hb, Bool.and_self, if_true, completeStep_of_error hd]

/-- Settles O2: one clause for each branch of the decoder and each branch of the Complete step. -/
theorem decodeFollowsOpcodeMap : Obligations.DecodeFollowsOpcodeMap := by
  refine ⟨fun w => ⟨fun hrsv => decode_illegal (.inl hrsv), fun hrsv => ?_⟩,
    fun s => ⟨fun i hd => completeStep_of_ok hd, fun e hd => completeStep_of_error hd⟩⟩
  exact ⟨decode_command (i := .nop) hrsv, decode_command (i := .extract) hrsv, decode_command (i := .demod) hrsv,
    decode_command (i := .fsync) hrsv, decode_command (i := .pcorr) hrsv, decode_command (i := .packf) hrsv,
    decode_command (i := .packr) hrsv, decode_command (i := .run) hrsv, decode_command (i := .clear) hrsv,
    fun hop => decode_illegal (.inr hop)⟩

/-- Settles O5: the CMD write is an idle register write, and the turn after it completes the refused word. -/
theorem illegalWordCompletesWithCode : Obligations.IllegalWordCompletesWithCode := by
  intro s w hr hb hw
  have haccept : hostAccess s (.write .reg 0 4 w) = (s.accept w).answer .written :=
    hostAccess_writeReg_idle hr hb .cmd w
  obtain ⟨e, he⟩ := decode_illegal (w := w) (by omega)
  rw [haccept]
  exact ⟨rfl, sequencerTurn_of_error (s := (s.accept w).answer .written) hr rfl he⟩

/-- Settles O4: nine words are those of the commands, and three take the decoder's refusing branches. -/
theorem opcodeWordsDecode : Obligations.OpcodeWordsDecode :=
  ⟨decode_encode .nop, decode_encode .extract, decode_encode .demod, decode_encode .fsync, decode_encode .pcorr,
    decode_encode .packf, decode_encode .packr, decode_encode .run, decode_encode .clear,
    decode_reservedOpcode (by decide) (by decide), decode_reservedOpcode (by decide) (by decide),
    decode_reservedBits (by decide)⟩

end Sys2Proof.Machine
end

section
/-! EXTRACT (40_extract.md R110, R111): the bits of a sample, and what the command changes and leaves. -/

namespace Sys2Proof.Machine

/-! ## The bits of a sample -/

theorem and_one_getLsbD (b : Byte) (j : Nat) : (b &&& 1#8).getLsbD j = (b.getLsbD 0 && decide (j = 0)) := by
  cases j <;> simp

/-- Bit `j` of a sample: three one-bit fields of channel 0 and channel 1 (40_extract.md R110). -/
theorem extract_getLsbD (b : Byte) (j : Nat) :
    (extract b).getLsbD j =
      ((b.getLsbD 0 && b.getLsbD 1 && decide (j = 2)) || (b.getLsbD 1 && decide (j = 1)) ||
        (b.getLsbD 0 && decide (j = 0))) := by
  have hch1 : (b >>> 1).getLsbD 0 = b.getLsbD 1 := BitVec.getLsbD_ushiftRight ..
  simp only [extract, BitVec.getLsbD_or, BitVec.getLsbD_shiftLeft, BitVec.getLsbD_and (x := b &&& 1#8),
    and_one_getLsbD, hch1]
  match j with
  | 0 | 1 | 2 => simp
  | j + 3 => simp

/-- A sample is its byte's channel bits and nothing of the other six (R110). -/
theorem extract_congr {b c : Byte} (h0 : b.getLsbD 0 = c.getLsbD 0) (h1 : b.getLsbD 1 = c.getLsbD 1) :
    extract b = extract c :=
  BitVec.eq_of_getLsbD_eq fun j _ => by rw [extract_getLsbD, extract_getLsbD, h0, h1]

/-- Settles O8: each bit is one case of `extract_getLsbD`, and masking keeps bits 0 and 1. -/
theorem extractGivesChannelBits : Obligations.ExtractGivesChannelBits := by
  intro b
  refine ⟨(extract_getLsbD b 0).trans (by simp), (extract_getLsbD b 1).trans (by simp),
    (extract_getLsbD b 2).trans (by simp), fun j hj => ?_, extract_congr (by simp) (by simp)⟩
  have hne : j ≠ 2 ∧ j ≠ 1 ∧ j ≠ 0 := by omega
  simp [extract_getLsbD, hne]

/-! ## The command -/

theorem State.inBytes_length (s : State) (n : Nat) : (s.inBytes n).length = n := by simp [State.inBytes]

theorem State.inBytes_getElem (s : State) (n : Nat) {i : Nat} (h : i < (s.inBytes n).length) :
    (s.inBytes n)[i] = s.inAt i := by simp [State.inBytes]

/-- Settles O9: a length in range takes the body that writes SAMP, a longer one the body's only error. -/
theorem extractConvertsInput : Obligations.ExtractConvertsInput := by
  refine ⟨rfl, fun s => ⟨fun hle => ?_, fun hgt => ?_⟩⟩
  · have hlen : ((s.inBytes s.nLen.toNat).map extract).length = s.nLen.toNat := by
      rw [List.length_map, State.inBytes_length]
    refine ⟨s.samp.overlay ((s.inBytes s.nLen.toNat).map extract), ?_, fun i hi => ?_, fun i hi => ?_⟩
    · have hcount : toWord ((s.inBytes s.nLen.toNat).map extract).length = s.nLen := by
        rw [hlen, toWord_toNat_self]
      rw [exec_eq_finish, bodyOf, extractBody_of_le hle, finish_ok, State.putSamples, hcount]
      rfl
    · rw [bufByte_overlay_lt _ _ _ _ _ (hlen.symm ▸ hi), List.getElem_map, State.inBytes_getElem]
    · exact Memory.read_overlay_ge _ _ _ (hlen.trans_le hi)
  · rw [exec_eq_finish, bodyOf, extractBody_of_gt hgt, finish_error]
    rfl

end Sys2Proof.Machine
end

section
/-! DEMOD (41_demod.md R120 to R126): the marker list, what an interval decodes to, the two forms of the
demodulator, and what the command changes and leaves. -/

namespace Sys2Proof.Machine

/-! ## Markers -/

theorem isMarker_iff {b : Byte} : isMarker b = true ↔ b.getLsbD 0 = true ∧ b.getLsbD 1 = true := Bool.and_eq_true_iff

/-- `mem_markers` with the sample itself in place of the read with a default. -/
theorem mem_markers_iff {S : List Byte} {i : Nat} :
    i ∈ markers S ↔ ∃ h : i < S.length, S[i].getLsbD 0 = true ∧ S[i].getLsbD 1 = true := by
  rw [mem_markers, ← exists_prop]
  exact exists_congr fun h => by rw [List.getD_eq_getElem _ _ h, isMarker_iff]

/-- R120 fixes the marker list: no other ascending list has its members. -/
theorem eq_markers {S : List Byte} {m : List Nat} (hasc : m.Pairwise (· < ·))
    (hmem : ∀ i, i ∈ m ↔ ∃ h : i < S.length, S[i].getLsbD 0 = true ∧ S[i].getLsbD 1 = true) : m = markers S :=
  hasc.eq_of_mem_iff (markers_pairwise_lt S) fun i => (hmem i).trans mem_markers_iff.symm

/-- A sample's bit 2 is the conjunction of its two channels (R120, 10_state.md R41). -/
theorem isMarker_extract (b : Byte) : isMarker (extract b) = (extract b).getLsbD 2 := by
  simp only [isMarker, bit0, bit1, extract_getLsbD]
  simp

/-- Settles O10: the membership, the order, the count and the bit 2 form, one lemma each. -/
theorem markersAreExact : Obligations.MarkersAreExact :=
  ⟨fun S => ⟨fun _ => mem_markers_iff, markers_pairwise_lt S, rfl⟩, isMarker_extract⟩

/-! ## What an interval decodes to -/

/-- Settles O11: each clause selects one branch of the definition. -/
theorem intervalDecodesByChannels : Obligations.IntervalDecodesByChannels := by
  refine fun b => ⟨fun h1 h0 => ?_, fun h0 h1 => ?_, fun heq => ?_⟩
  · simp only [decodeInterval, bit0, bit1, h1, h0]
    rfl
  · simp only [decodeInterval, bit0, bit1, h1, h0]
    rfl
  · simp only [decodeInterval, bit0, bit1, heq, Bool.and_not_self, Bool.false_eq_true, if_false]

/-- A position beyond the samples decodes to no bit, so the default read there adds nothing. -/
theorem decodeInterval_getD (S : List Byte) (i : Nat) :
    decodeInterval (S.getD i 0) = S[i]?.bind decodeInterval := by
  rw [List.getD_eq_getElem?_getD]
  cases S[i]? with
  | none => rfl
  | some b => rfl

/-! ## The three-step form -/

/-- The bits of the intervals of a marker list, in marker order (R123). -/
def intervalBits (S : List Byte) (m : List Nat) : Bits :=
  (intervals m).filterMap fun k => decodeInterval (S.getD (midpoint k.1 k.2) 0)

theorem demod_eq (S : List Byte) : demod S = (intervalBits S (markers S), (markers S).length) := rfl

theorem intervals_length (m : List Nat) : (intervals m).length = m.length - 1 := by
  rw [intervals, List.length_zip, List.length_drop]
  omega

/-- Interval `k` joins markers `k` and `k + 1` (R121). -/
theorem intervals_eq_map_range (m : List Nat) :
    intervals m = (List.range (m.length - 1)).map fun k => (m.getD k 0, m.getD (k + 1) 0) := by
  refine List.ext_getElem (by simp [intervals_length]) fun k hk _ => ?_
  rw [intervals_length] at hk
  simp only [intervals, List.getElem_zip, List.getElem_drop, List.getElem_map, List.getElem_range,
    List.getD_eq_getElem m 0 (show k < m.length by omega), List.getD_eq_getElem m 0 (show k + 1 < m.length by omega),
    Nat.add_comm 1 k]

/-- Settles O59: `m` is the marker list, and each of its intervals decodes at its midpoint. -/
theorem demodDecodesMidpoints : Obligations.DemodDecodesMidpoints := by
  intro S m hasc hmem
  obtain rfl := eq_markers hasc hmem
  simp only [demod_eq, intervalBits, intervals_eq_map_range, List.filterMap_map, Function.comp_def,
    decodeInterval_getD, midpoint]

/-! ## Bounds -/

/-- An interval emits at most one bit (R124 item 3). -/
theorem demod_length_le_count (S : List Byte) : (demod S).1.length ≤ (demod S).2 - 1 :=
  (List.length_filterMap_le _ _).trans (intervals_length _).le

/-- A sample does not see bits 7:2 of its byte (R124 item 6, 40_extract.md R110). -/
theorem extract_and_three (b : Byte) : extract b = extract (b &&& 3#8) := extract_congr (by simp) (by simp)

/-- Settles O13: the bounds count samples and intervals, and EXTRACT reads only bits 0 and 1 of a byte. -/
theorem demodBitsAreBounded : Obligations.DemodBitsAreBounded := by
  refine ⟨fun S => ⟨?_, demod_length_le_count S, fun hfew => ?_⟩, fun bs => ?_⟩
  · have hhalf := two_mul_demod_length_le S
    omega
  · have hcount := demod_length_le_count S
    exact List.length_eq_zero_iff.mp (by omega)
  · exact congrArg demod (List.map_congr_left fun b _ => extract_and_three b)

/-! ## The one-pass form

After some samples the three working registers are functions of the markers among them, so each turn of
R126 takes the registers of a marker list to those of the list with the turn's marker, if any, at its end. -/

/-- The working registers when the markers so far are `m`. -/
def DemodPass.ofMarkers (S : List Byte) (m : List Nat) : DemodPass :=
  { prev := m.getLast?, count := m.length, bits := intervalBits S m }

/-- A marker after `m` closes the one interval that starts at the last of `m` (R126). -/
theorem intervals_append_singleton (m : List Nat) (t : Nat) :
    intervals (m ++ [t]) = intervals m ++ (m.getLast?.map fun p => (p, t)).toList := by
  induction m with
  | nil => rfl
  | cons a m ih =>
    cases m with
    | nil => rfl
    | cons b m =>
      rw [List.cons_append] at ih
      rw [List.cons_append, List.cons_append, intervals_cons_cons, ih, intervals_cons_cons, List.getLast?_cons_cons,
        List.cons_append]

theorem demodTurn_of_marker {S : List Byte} {t : Nat} (m : List Nat) (h : isMarker (S.getD t 0) = true) :
    demodTurn S (.ofMarkers S m) t = .ofMarkers S (m ++ [t]) := by
  rw [demodTurn, if_pos h]
  simp only [DemodPass.ofMarkers, intervalBits, List.getLast?_concat, List.length_append, List.length_singleton,
    intervals_append_singleton, List.filterMap_append]
  cases m.getLast? with
  | none => simp only [Option.map_none, Option.toList_none, List.filterMap_nil, List.append_nil]
  | some p =>
    simp only [Option.map_some, Option.toList_some, List.filterMap_cons, List.filterMap_nil]
    cases decodeInterval (S.getD (midpoint p t) 0) <;> rfl

theorem demodTurn_of_not_marker {S : List Byte} {t : Nat} (r : DemodPass) (h : isMarker (S.getD t 0) = false) :
    demodTurn S r t = r := if_neg (h ▸ Bool.false_ne_true)

theorem foldl_demodTurn (S : List Byte) (m ts : List Nat) :
    ts.foldl (demodTurn S) (.ofMarkers S m) = .ofMarkers S (m ++ ts.filter fun i => isMarker (S.getD i 0)) := by
  induction ts generalizing m with
  | nil => rw [List.foldl_nil, List.filter_nil, List.append_nil]
  | cons t ts ih =>
    rw [List.foldl_cons]
    cases ht : isMarker (S.getD t 0) with
    | true =>
      simp only [demodTurn_of_marker m ht, ih, List.filter_cons, ht, if_true, List.append_assoc, List.singleton_append]
    | false => simp only [demodTurn_of_not_marker _ ht, ih, List.filter_cons, ht, Bool.false_eq_true, if_false]

/-- Settles O12: the loop ends with the registers of the whole marker list. -/
theorem demodOnePassAgrees : Obligations.DemodOnePassAgrees := by
  intro S
  have hpass : (List.range S.length).foldl (demodTurn S) { prev := none, count := 0, bits := [] } =
      .ofMarkers S (markers S) := foldl_demodTurn S [] (List.range S.length)
  simp only [demodOnePass, hpass, DemodPass.ofMarkers, demod_eq]

/-! ## The command -/

/-- A decoded bit is stored zero-extended (R125). -/
theorem bitByte_toNat (b : Bool) : (bitByte b).toNat = b.toNat := by cases b <;> rfl

/-- Settles O14: a valid V_SAMP takes the body that writes DBITS, an invalid one the body's only error. -/
theorem demodDecodesSamples : Obligations.DemodDecodesSamples := by
  refine ⟨rfl, fun s => ⟨fun hv => ?_, fun hv => ?_⟩⟩
  · have hlt := s.samples_length_lt
    have hbits := (demod_length_le s.samples).trans_lt hlt
    have hcount := (demod_count_le s.samples).trans_lt hlt
    have hlen : ((demod s.samples).1.map bitByte).length = (demod s.samples).1.length := List.length_map bitByte
    refine ⟨s.dbits.overlay ((demod s.samples).1.map bitByte), toWord (demod s.samples).1.length,
      toWord (demod s.samples).2, ?_, toWord_toNat _ hbits, toWord_toNat _ hcount, fun k hk => ?_, fun k hk => ?_⟩
    · rw [exec_eq_finish, bodyOf, demodBody_of_valid hv, finish_ok]
      rfl
    · rw [bufByte_overlay_lt _ _ _ _ _ (hlen.symm ▸ hk), List.getElem_map, bitByte_toNat]
    · exact Memory.read_overlay_ge _ _ _ (hlen.trans_le hk)
  · rw [exec_eq_finish, bodyOf, demodBody_of_invalid hv, finish_error]
    rfl

end Sys2Proof.Machine
end

section
/-! FSYNC (42_fsync.md R135 to R142): the exact match, how the frames tile the bits, the frame statistics and
table, and what the command changes and leaves. -/

namespace Sys2Proof.Machine

/-! ## Exact matches -/

/-- The scans' comparison of a bit inside the sequence with a pattern bit, said of the bits themselves. -/
theorem getD_beq_syncBit {sync : Word} {B : Bits} {i j : Nat} (hi : i < B.length) (hj : j < 32) :
    (B.getD i false == syncBit sync j) = true ↔ B[i]? = some (sync.getLsbD (31 - j)) := by
  have hbit : syncBit sync j = sync.getLsbD (31 - j) := by simp [syncBit, BitVec.getMsbD, hj]
  rw [hbit, List.getD_eq_getElem _ _ hi, List.getElem?_eq_getElem hi, Option.some_inj, beq_iff_eq]

theorem matchAt_iff {sync : Word} {B : Bits} {i : Nat} :
    matchAt sync B i = true ↔
      i + 32 ≤ B.length ∧ ∀ j, j < 32 → B[i + j]? = some (sync.getLsbD (31 - j)) := by
  simp only [matchAt, Bool.and_eq_true, decide_eq_true_eq, List.all_eq_true, List.mem_range]
  exact and_congr_right fun hfit => forall₂_congr fun j hj => getD_beq_syncBit (by omega) hj

/-- A short window is never an exact match (R136). -/
theorem matchAt_of_short {sync : Word} {B : Bits} {i : Nat} (h : B.length < i + 32) : matchAt sync B i = false :=
  Bool.eq_false_iff.mpr fun hm => absurd (matchAt_fits hm) (by omega)

/-- Settles O15: the scan's test, bit by bit, and its length check. -/
theorem exactMatchIsThirtyTwoEqualBits : Obligations.ExactMatchIsThirtyTwoEqualBits :=
  fun _ _ _ => ⟨matchAt_iff, matchAt_of_short⟩

/-! ## Where the forward search stops -/

/-- Where the forward search from `j` stops (R137): at the least exact match from `j` on, or at the end. -/
def nextStop (sync : Word) (B : Bits) (j : Nat) : Nat := (nextMatch sync B j).getD B.length

theorem nextStop_match_or_end (sync : Word) (B : Bits) (j : Nat) :
    matchAt sync B (nextStop sync B j) = true ∨ nextStop sync B j = B.length := by
  unfold nextStop
  cases h : nextMatch sync B j with
  | none => exact .inr rfl
  | some k =>
    obtain ⟨-, hk⟩ := nextMatch_some h
    exact .inl hk

theorem matchAt_before_nextStop {sync : Word} {B : Bits} {i j : Nat} (hj : j ≤ i) (hi : i < nextStop sync B j) :
    matchAt sync B i = false := by
  unfold nextStop at hi
  cases h : nextMatch sync B j with
  | none =>
    by_cases hlen : i < B.length
    · simpa using List.find?_range'_eq_none.mp h i hj (by omega)
    · exact matchAt_of_short (by omega)
  | some k =>
    obtain ⟨-, -, hleast⟩ := List.find?_range'_eq_some.mp h
    simpa using hleast i hj (by simpa [h] using hi)

/-! ## The frames tile the bits -/

theorem fsyncFrom_of_short {sync : Word} {B : Bits} {i : Nat} (fuel : Nat) (h : B.length < i + 32) :
    fsyncFrom sync B fuel i = [] := by
  cases fuel with
  | zero => rfl
  | succ fuel => exact if_neg (Nat.not_le.mpr h)

theorem fsyncFrom_of_match {sync : Word} {B : Bits} {i : Nat} (fuel : Nat) (h : matchAt sync B i = true) :
    fsyncFrom sync B (fuel + 1) i =
      (i, nextStop sync B (i + 32)) :: fsyncFrom sync B fuel (nextStop sync B (i + 32)) := by
  rw [fsyncFrom, if_pos (matchAt_fits h), if_pos h]
  rfl

theorem fsyncFrom_of_not_match {sync : Word} {B : Bits} {i : Nat} (fuel : Nat) (h : matchAt sync B i = false) :
    fsyncFrom sync B (fuel + 1) i = fsyncFrom sync B fuel (i + 1) := by
  by_cases hfit : i + 32 ≤ B.length
  · rw [fsyncFrom, if_pos hfit, h, if_neg Bool.false_ne_true]
  · rw [fsyncFrom_of_short _ (by omega), fsyncFrom_of_short _ (by omega)]

/-- Positions without an exact match are passed over, one turn each. -/
theorem fsyncFrom_skip {sync : Word} {B : Bits} (fuel n i : Nat)
    (h : ∀ j, i ≤ j → j < i + n → matchAt sync B j = false) :
    fsyncFrom sync B (fuel + n) i = fsyncFrom sync B fuel (i + n) := by
  induction n generalizing i with
  | zero => rfl
  | succ n ih =>
    rw [← Nat.add_assoc, fsyncFrom_of_not_match _ (h i le_rfl (by omega)),
      ih (i + 1) fun j hij hj => h j (by omega) (by omega), Nat.add_right_comm, Nat.add_assoc]

/-- Frames that cover the bits from a position to the end without a gap, each from one exact match to the next
one at least 32 bits on (R137, R140 items 1 and 2). -/
inductive Tiles (sync : Word) (B : Bits) : Nat → List (Nat × Nat) → Prop where
  | done : Tiles sync B B.length []
  | frame {i stop : Nat} {fs : List (Nat × Nat)} (hmatch : matchAt sync B i = true) (hlen : i + 32 ≤ stop)
      (hleast : ∀ j, i + 32 ≤ j → j < stop → matchAt sync B j = false) (hrest : Tiles sync B stop fs) :
      Tiles sync B i ((i, stop) :: fs)

theorem fsyncFrom_tiles {sync : Word} {B : Bits} {fuel i : Nat} (hfuel : B.length ≤ fuel + i)
    (hi : matchAt sync B i = true ∨ i = B.length) : Tiles sync B i (fsyncFrom sync B fuel i) := by
  induction fuel generalizing i with
  | zero =>
    obtain rfl : i = B.length := hi.elim (fun hm => absurd (matchAt_fits hm) (by omega)) id
    exact .done
  | succ fuel ih =>
    obtain hm | rfl := hi
    · obtain ⟨hlen, -⟩ := nextMatch_getD (sync := sync) (matchAt_fits hm)
      rw [← nextStop] at hlen
      rw [fsyncFrom_of_match fuel hm]
      exact .frame hm hlen (fun j hj hlt => matchAt_before_nextStop hj hlt)
        (ih (by omega) (nextStop_match_or_end sync B _))
    · rw [fsyncFrom_of_short _ (by omega)]
      exact .done

/-- The frames tile the bits from the least exact match on; with no match there is nothing to tile. -/
theorem fsync_tiles (sync : Word) (B : Bits) : Tiles sync B (nextStop sync B 0) (fsync sync B) := by
  obtain ⟨-, hle⟩ := nextMatch_getD (sync := sync) (Nat.zero_le B.length)
  rw [← nextStop] at hle
  have hskip := fsyncFrom_skip (sync := sync) (B := B) (B.length - nextStop sync B 0) (nextStop sync B 0) 0
    fun j hj hlt => matchAt_before_nextStop hj (by omega)
  rw [Nat.sub_add_cancel hle, Nat.zero_add] at hskip
  rw [fsync, hskip]
  exact fsyncFrom_tiles (by omega) (nextStop_match_or_end sync B 0)

section Tiles

variable {sync : Word} {B : Bits} {i : Nat} {fs : List (Nat × Nat)}

theorem Tiles.head (h : Tiles sync B i fs) {f : Nat × Nat} (hf : fs.head? = some f) : f.1 = i := by
  cases h with
  | done => cases hf
  | frame => cases hf; rfl

theorem Tiles.chain (h : Tiles sync B i fs) : fs.IsChain fun f g => f.2 = g.1 := by
  induction h with
  | done => exact .nil
  | frame _ _ _ hrest ih => exact List.isChain_cons.mpr ⟨fun f hf => (hrest.head hf).symm, ih⟩

theorem Tiles.last (h : Tiles sync B i fs) {f : Nat × Nat} (hf : fs.getLast? = some f) : f.2 = B.length := by
  induction h with
  | done => cases hf
  | frame _ _ _ hrest ih =>
    cases hrest with
    | done => cases hf; rfl
    | frame => exact ih hf

theorem Tiles.mem (h : Tiles sync B i fs) {f : Nat × Nat} (hf : f ∈ fs) :
    f.1 + 32 ≤ f.2 ∧ matchAt sync B f.1 = true ∧ ∀ j, f.1 + 32 ≤ j → j < f.2 → matchAt sync B j = false := by
  induction h with
  | done => cases hf
  | frame hmatch hlen hleast _ ih =>
    obtain rfl | hf := List.mem_cons.mp hf
    · exact ⟨hlen, hmatch, hleast⟩
    · exact ih hf

/-- One exact match is one frame: a second would start at a match of its own (R140 item 4). -/
theorem Tiles.eq_singleton (h : Tiles sync B i fs) {p : Nat} (hp : ∀ j, matchAt sync B j = true ↔ j = p)
    (hne : fs ≠ []) : fs = [(p, B.length)] := by
  cases h with
  | done => exact absurd rfl hne
  | frame hmatch hlen _ hrest =>
    obtain rfl := (hp _).mp hmatch
    cases hrest with
    | done => rfl
    | frame hmatch' =>
      have := (hp _).mp hmatch'
      omega

end Tiles

theorem fsync_eq_nil_iff {sync : Word} {B : Bits} : fsync sync B = [] ↔ ∀ i, matchAt sync B i = false := by
  have htiles := fsync_tiles sync B
  constructor
  · intro hnil i
    have hend : nextStop sync B 0 = B.length := by
      generalize nextStop sync B 0 = p at htiles
      rw [hnil] at htiles
      cases htiles
      rfl
    by_cases hi : i < B.length
    · exact matchAt_before_nextStop (Nat.zero_le i) (hend ▸ hi)
    · exact matchAt_of_short (by omega)
  · intro hnone
    refine List.eq_nil_iff_forall_not_mem.mpr fun f hf => ?_
    obtain ⟨-, hmatch, -⟩ := htiles.mem hf
    exact absurd hmatch (by simp [hnone])

/-- Settles O16: one clause of the tiling each. -/
theorem framesTileFromFirstMatch : Obligations.FramesTileFromFirstMatch := by
  intro sync B
  have htiles := fsync_tiles sync B
  refine ⟨fsync_eq_nil_iff, fun f hf i hi => ?_, List.isChain_iff_getElem.mp htiles.chain, fun f hf => htiles.last hf,
    fun f hf => htiles.mem hf⟩
  exact matchAt_before_nextStop (Nat.zero_le i) (htiles.head hf ▸ hi)

theorem fsync_of_unique_match {sync : Word} {B : Bits} {p : Nat} (hp : ∀ i, matchAt sync B i = true ↔ i = p) :
    fsync sync B = [(p, B.length)] :=
  (fsync_tiles sync B).eq_singleton hp fun hnil =>
    absurd ((hp p).mpr rfl) (by simp [fsync_eq_nil_iff.mp hnil p])

/-- The pattern itself, as 32 bits, matches at its start and nowhere else. -/
theorem matchAt_pattern (sync : Word) (i : Nat) :
    matchAt sync ((List.range 32).map (syncBit sync)) i = true ↔ i = 0 := by
  constructor
  · intro hm
    have hfit := matchAt_fits hm
    rw [List.length_map, List.length_range] at hfit
    omega
  · rintro rfl
    refine matchAt_iff.mpr ⟨by simp, fun j hj => ?_⟩
    simp [syncBit, BitVec.getMsbD, hj]

/-- Settles O17: the count is that of `fsync_length_le`, and the last two clauses are of one exact match. -/
theorem frameCountIsBounded : Obligations.FrameCountIsBounded := by
  intro sync B
  refine ⟨?_, fun hshort => ?_, fun p hp => fsync_of_unique_match hp, ?_⟩
  · have hcount := fsync_length_le sync B
    omega
  · exact fsync_eq_nil_iff.mpr fun i => matchAt_of_short (by omega)
  · rintro rfl
    simpa using fsync_of_unique_match (matchAt_pattern sync)

/-! ## The frame statistics -/

theorem minFrameLen_eq (fs : List (Nat × Nat)) : minFrameLen fs = (fs.map frameLen).min?.getD 0 := by
  unfold minFrameLen
  cases fs.map frameLen <;> rfl

theorem maxFrameLen_eq (fs : List (Nat × Nat)) : maxFrameLen fs = (fs.map frameLen).max?.getD 0 := by
  unfold maxFrameLen
  cases fs.map frameLen <;> rfl

theorem minFrameLen_isLeast {fs : List (Nat × Nat)} (h : fs ≠ []) :
    IsLeast {l | l ∈ fs.map frameLen} (minFrameLen fs) := by
  rw [minFrameLen_eq]
  cases hl : (fs.map frameLen).min? with
  | none => exact absurd (List.map_eq_nil_iff.mp (List.min?_eq_none_iff.mp hl)) h
  | some l => exact List.min?_eq_some_iff.mp hl

theorem maxFrameLen_isGreatest {fs : List (Nat × Nat)} (h : fs ≠ []) :
    IsGreatest {l | l ∈ fs.map frameLen} (maxFrameLen fs) := by
  rw [maxFrameLen_eq]
  cases hl : (fs.map frameLen).max? with
  | none => exact absurd (List.map_eq_nil_iff.mp (List.max?_eq_none_iff.mp hl)) h
  | some l => exact List.max?_eq_some_iff.mp hl

/-- The statistics of the frames fit their registers, whatever the bits (R138). -/
theorem frameStatistics_lt {sync : Word} {B : Bits} (hB : B.length < 2 ^ 32) :
    (fsync sync B).length < 2 ^ 32 ∧ minFrameLen (fsync sync B) < 2 ^ 32 ∧ maxFrameLen (fsync sync B) < 2 ^ 32 := by
  have hcount := fsync_length_le sync B
  have hsum := fsync_sum_le sync B
  have hmin := minFrameLen_le_sum (fsync sync B)
  have hmax := maxFrameLen_le_sum (fsync sync B)
  exact ⟨by omega, by omega, by omega⟩

/-- FSYNC with valid bits: one update and the completion, so each register it leaves is a field of `putFrames`. -/
theorem exec_fsync_of_valid {s : State} (h : s.status.vDbits = true) :
    exec .fsync s =
      .next ((s.putFrames s.decodedBits.length (fsync s.params.sync s.decodedBits)).complete .ok) := by
  rw [exec_eq_finish, bodyOf, fsyncBody_of_valid h, finish_ok]

theorem exec_fsync_of_invalid {s : State} (h : s.status.vDbits = false) :
    exec .fsync s = .next (s.complete .seq) := by
  rw [exec_eq_finish, bodyOf, fsyncBody_of_invalid h, finish_error]

/-- Settles O18: the statistics are a least and a greatest length, and each fits its register. -/
theorem fsyncWritesFrameStatistics : Obligations.FsyncWritesFrameStatistics := by
  intro s hv
  refine ⟨_, exec_fsync_of_valid hv, ?_⟩
  simp only [State.complete_frameCount, State.complete_frameMinLen, State.complete_frameMaxLen,
    State.putFrames_frameCount, State.putFrames_frameMinLen, State.putFrames_frameMaxLen]
  obtain ⟨hcount, hmin, hmax⟩ := frameStatistics_lt (sync := s.params.sync) s.decodedBits_length_lt
  rw [toWord_toNat _ hcount, toWord_toNat _ hmin, toWord_toNat _ hmax]
  generalize fsync s.params.sync s.decodedBits = fs
  refine ⟨rfl, fun hnil => hnil ▸ ⟨rfl, rfl⟩, fun hne => ?_⟩
  obtain ⟨hminMem, hminLe⟩ := minFrameLen_isLeast hne
  obtain ⟨hmaxMem, hmaxGe⟩ := maxFrameLen_isGreatest hne
  obtain ⟨fmin, hfmin, hfminLen⟩ := List.mem_map.mp hminMem
  obtain ⟨fmax, hfmax, hfmaxLen⟩ := List.mem_map.mp hmaxMem
  exact ⟨⟨fmin, hfmin, hfminLen.symm⟩, ⟨fmax, hfmax, hfmaxLen.symm⟩,
    fun f hf => ⟨hminLe (List.mem_map_of_mem (f := frameLen) hf), hmaxGe (List.mem_map_of_mem (f := frameLen) hf)⟩⟩

/-! ## The frame table -/

/-- POFF of frame `k`: the packed bytes of the frames before it (R139). -/
def packedOffset (fs : List (Nat × Nat)) (k : Nat) : Nat := ((fs.take k).map fun f => bytesFor (frameLen f)).sum

theorem frameTableFrom_getElem? (poff : Nat) (fs : List (Nat × Nat)) (k : Nat) :
    (frameTableFrom poff fs)[k]? = fs[k]?.map fun f =>
      { start := toWord f.1, stop := toWord f.2, poff := toWord (poff + packedOffset fs k),
        pbytes := toWord (bytesFor (frameLen f)) } := by
  induction fs generalizing poff k with
  | nil => rfl
  | cons f fs ih =>
    cases k with
    | zero => rfl
    | succ k =>
      simp only [frameTableFrom, List.getElem?_cons_succ, ih, packedOffset, List.take_succ_cons, List.map_cons,
        List.sum_cons, Nat.add_assoc]

/-- No offset in the packed stream is beyond a register, whatever the bits (R139). -/
theorem packedOffset_lt {sync : Word} {B : Bits} (hB : B.length < 2 ^ 32) (k : Nat) :
    packedOffset (fsync sync B) k < 2 ^ 32 := by
  have htake : packedOffset (fsync sync B) k ≤ (((fsync sync B).map frameLen).map bytesFor).sum := by
    rw [List.map_map]
    exact ((List.take_sublist k _).map _).sum_le_sum fun _ _ => Nat.zero_le _
  have hround := bytesFor_sum_le ((fsync sync B).map frameLen)
  have hcount := fsync_length_le sync B
  have hsum := fsync_sum_le sync B
  rw [List.length_map] at hround
  omega

theorem State.complete_frameAt (s : State) (c : ErrCode) (k : Nat) : (s.complete c).frameAt k = s.frameAt k := rfl

/-- Entry `k` of FTAB after FSYNC's update, with its four words of R139. -/
theorem State.frameAt_putFrames (s : State) (L : Nat) {fs : List (Nat × Nat)} {k : Nat} (hk : k < fs.length) :
    (s.putFrames L fs).frameAt k =
      { start := toWord fs[k].1, stop := toWord fs[k].2, poff := toWord (packedOffset fs k),
        pbytes := toWord (bytesFor (frameLen fs[k])) } := by
  have htab : k < (frameTable fs).length := (frameTable_length fs).symm ▸ hk
  rw [State.frameAt, State.putFrames_ftab, tableOverlay_getElem?_lt _ _ _ htab, ← List.getElem?_eq_getElem htab,
    frameTable, frameTableFrom_getElem?, List.getElem?_eq_getElem hk, Option.map_some, Option.getD_some, Nat.zero_add]

/-- Settles O19: an entry reads back as FSYNC wrote it, and its four words fit their registers. -/
theorem fsyncWritesFrameTable : Obligations.FsyncWritesFrameTable := by
  intro s hv
  refine ⟨_, exec_fsync_of_valid hv, fun k hk => ?_⟩
  have hB := s.decodedBits_length_lt
  obtain ⟨hlen, hstop⟩ := fsync_mem (List.getElem_mem hk)
  have hoff := packedOffset_lt (sync := s.params.sync) hB k
  have hbytes : bytesFor (frameLen (fsync s.params.sync s.decodedBits)[k]) < 2 ^ 32 := by
    rw [bytesFor, frameLen]
    omega
  rw [State.complete_frameAt, s.frameAt_putFrames _ hk]
  exact ⟨toWord_toNat _ (by omega), toWord_toNat _ (by omega), toWord_toNat _ hbytes, toWord_toNat _ hoff⟩

/-! ## The command -/

theorem diagOf_iff {L : Nat} {fs : List (Nat × Nat)} : diagOf L fs = true ↔ 0 < L ∧ fs = [] := by
  rw [diagOf, Bool.and_eq_true, decide_eq_true_iff, List.isEmpty_iff]

/-- Settles O20: a valid V_DBITS takes the body that writes the frames, an invalid one the body's only error. -/
theorem fsyncFindsFrames : Obligations.FsyncFindsFrames := by
  refine ⟨rfl, fun s => ⟨fun hv => ?_, fun hv => exec_fsync_of_invalid hv⟩⟩
  have hL := s.decodedBits_length
  have hB := s.decodedBits_length_lt
  obtain ⟨hcount, hmin, hmax⟩ := frameStatistics_lt (sync := s.params.sync) hB
  refine ⟨_, _, _, _, _, _, _, exec_fsync_of_valid hv, toWord_toNat _ hcount, toWord_toNat _ hmin,
    toWord_toNat _ hmax, hL ▸ diagOf_iff, fun hd => ?_, fun hd => ?_, fun k hk => ?_, fun k hk => ?_⟩
  · simp only [State.putFrames_status] at hd
    rw [State.putFrames_diagPrefixLen, State.putFrames_diagHeadLen, if_pos hd, if_pos hd, ← hL]
    exact ⟨toWord_toNat _ (by omega), toWord_toNat _ (by omega)⟩
  · simp only [State.putFrames_status] at hd
    rw [State.putFrames_diagPrefixLen, State.putFrames_diagHeadLen, hd]
    exact ⟨rfl, rfl⟩
  · rw [State.putFrames_frameCount, toWord_toNat _ hcount, ← frameTable_length] at hk
    rw [State.putFrames_ftab, tableOverlay_getElem?_lt _ _ _ hk, List.getElem?_eq_getElem hk]
  · rw [State.putFrames_frameCount, toWord_toNat _ hcount, ← frameTable_length] at hk
    exact tableOverlay_getElem?_ge _ _ _ hk

end Sys2Proof.Machine
end

section
/-! PCORR (42_fsync.md R143 to R147): the score of a window, the fields of a partial match's entry, the list of
the partial matches, what the command changes and leaves, and that its order with FSYNC does not matter. -/

namespace Sys2Proof.Machine

/-! ## The score -/

/-- The count of R143, said of the sequence's own bits. -/
theorem score_eq_card {sync : Word} {B : Bits} {p : Nat} (hp : p + 24 ≤ B.length) :
    score sync B p = ((Finset.range 24).filter fun j => B[p + j]? = some (sync.getLsbD (31 - j))).card := by
  have hagree : ∀ j ∈ List.range 24, (B.getD (p + j) false == syncBit sync j) = true ↔
      decide (B[p + j]? = some (sync.getLsbD (31 - j))) = true := fun j hj => by
    have hj := List.mem_range.mp hj
    rw [decide_eq_true_iff]
    exact getD_beq_syncBit (by omega) (by omega)
  rw [score, List.countP_congr hagree, List.countP_eq_length_filter]
  rfl

theorem score_le (sync : Word) (B : Bits) (p : Nat) : score sync B p ≤ 24 :=
  List.countP_le_length.trans_eq List.length_range

/-- Settles O21: `score_eq_card`, and that the count sees only the first 24 pattern bits. -/
theorem scoreCountsAgreeingBits : Obligations.ScoreCountsAgreeingBits := by
  intro sync B p hp
  refine ⟨score_eq_card hp, score_le sync B p, fun sync' hsync => ?_⟩
  rw [score_eq_card hp, score_eq_card hp]
  exact congrArg Finset.card (Finset.filter_congr fun j hj => by rw [hsync j (Finset.mem_range.mp hj)])

/-! ## The fields of an entry -/

/-- The bits of a number that is a sum of single bits, the first at position `w` and the others downward. -/
theorem testBit_sum_shiftLeft (f : Nat → Bool) {w n : Nat} (hn : n ≤ w + 1) (k : Nat) :
    (((List.range n).map fun j => (f j).toNat <<< (w - j)).sum).testBit k =
      (decide (k ≤ w ∧ w - k < n) && f (w - k)) := by
  induction n with
  | zero => simp
  | succ n ih =>
    -- the sum so far has nothing below position `w - n + 1`, and the new summand nothing from there on
    have hdvd : 2 ^ (w - n + 1) ∣ ((List.range n).map fun j => (f j).toNat <<< (w - j)).sum := by
      refine List.dvd_sum fun x hx => ?_
      obtain ⟨j, hj, rfl⟩ := List.mem_map.mp hx
      have hj := List.mem_range.mp hj
      rw [Nat.shiftLeft_eq]
      exact Dvd.dvd.mul_left (Nat.pow_dvd_pow 2 (by omega)) _
    obtain ⟨q, hq⟩ := hdvd
    have hlt : (f n).toNat <<< (w - n) < 2 ^ (w - n + 1) := by
      rw [Nat.shiftLeft_eq, Nat.pow_succ, Nat.mul_comm]
      exact Nat.mul_lt_mul_of_pos_left (Bool.toNat_lt _) (Nat.two_pow_pos _)
    rw [List.sum_range_succ, hq, Nat.two_pow_add_eq_or_of_lt hlt, Nat.testBit_or, ← hq, ih (by omega),
      Nat.testBit_shiftLeft, Nat.testBit_bool_toNat]
    by_cases hk : k = w - n
    · obtain rfl := hk
      have hself : w - (w - n) = n := by omega
      simp [hself]
    · have hother : ¬(w - n ≤ k ∧ k - (w - n) = 0) := by omega
      have hsame : (k ≤ w ∧ w - k < n) ↔ (k ≤ w ∧ w - k < n + 1) := by omega
      simp only [hsame, ge_iff_le, ← Bool.and_assoc, ← Bool.decide_and, hother, decide_false,
        Bool.false_and, Bool.or_false]

/-- Bit `31 - j` of OBS is observed bit `j`, and 0 from bit OBSN on (R144). -/
theorem obsWord_getLsbD (B : Bits) (p : Nat) {j : Nat} (hj : j < 32) :
    (obsWord B p).getLsbD (31 - j) = (decide (j < obsCount B p) && B.getD (p + j) false) := by
  have hfrom : obsCount B p ≤ 31 + 1 := Nat.min_le_left ..
  have hback : 31 - (31 - j) = j := by omega
  rw [obsWord, toWord, BitVec.getLsbD_ofNat, testBit_sum_shiftLeft (fun j => B.getD (p + j) false) hfrom, hback]
  simp only [Nat.sub_le, true_and, show 31 - j < 32 by omega, decide_true, Bool.true_and]

/-- Settles O22: the words fit their registers, and each bit of OBS is one case of `obsWord_getLsbD`. -/
theorem partialMatchEntryFields : Obligations.PartialMatchEntryFields := by
  intro sync B p hp hB
  have hobsn : (pmEntry sync B p).obsn.toNat = min 32 (B.length - p) :=
    toWord_toNat _ ((Nat.min_le_left 32 _).trans_lt (by decide))
  have hscore := score_le sync B p
  refine ⟨toWord_toNat _ (by omega), hobsn, by omega, by omega, toWord_toNat _ (by omega), fun j hj => ?_,
    fun j hj hlt => ?_⟩
  · have hin : p + j < B.length := by omega
    have hobs : j < obsCount B p := hj
    simp only [pmEntry, obsWord_getLsbD B p (show j < 32 by omega), hobs, decide_true, Bool.true_and,
      List.getD_eq_getElem _ _ hin, List.getElem?_eq_getElem hin]
  · have hobs : ¬ j < obsCount B p := Nat.not_lt.mpr hj
    simp only [pmEntry, obsWord_getLsbD B p hlt, hobs, decide_false, Bool.false_and]

/-! ## The partial matches -/

/-- The one test of R145 at a position: its entry, when the score reaches the threshold. -/
theorem mem_pcorr {sync : Word} {B : Bits} {e : PmEntry} :
    e ∈ pcorr sync B ↔ ∃ p, p + 24 ≤ B.length ∧ 20 ≤ score sync B p ∧ e = pmEntry sync B p := by
  simp only [pcorr, List.mem_filterMap, List.mem_range, Option.ite_none_right_eq_some, Option.some_inj]
  exact exists_congr fun p => and_congr (by omega) (and_congr_right fun _ => eq_comm)

/-- The scan ascends, and a position below 2^32 is its entry's POS, so the entries ascend too. -/
theorem pcorr_pairwise_pos {sync : Word} {B : Bits} (hB : B.length < 2 ^ 32) :
    (pcorr sync B).Pairwise fun a b => a.pos.toNat < b.pos.toNat := by
  have hasc : (List.range (B.length - 23)).Pairwise fun p q => p < q ∧ q < B.length - 23 :=
    List.pairwise_lt_range.imp_of_mem fun _ hq hlt => ⟨hlt, List.mem_range.mp hq⟩
  refine hasc.filterMap _ fun p q ⟨hlt, hq⟩ a ha b hb => ?_
  obtain ⟨-, ⟨⟩⟩ := Option.ite_none_right_eq_some.mp ha
  obtain ⟨-, ⟨⟩⟩ := Option.ite_none_right_eq_some.mp hb
  rw [pmEntry, pmEntry, toWord_toNat _ (by omega), toWord_toNat _ (by omega)]
  exact hlt

/-- Settles O23: the members, the order and the count, one lemma each. -/
theorem pcorrListsEveryPartialMatch : Obligations.PcorrListsEveryPartialMatch :=
  fun sync B hB => ⟨fun _ => mem_pcorr, pcorr_pairwise_pos hB, pcorr_length_le sync B⟩

/-! ## The command -/

theorem exec_pcorr_of_valid {s : State} (h : s.status.vDbits = true) :
    exec .pcorr s = .next ((s.putPartials (pcorr s.params.sync s.decodedBits)).complete .ok) := by
  rw [exec_eq_finish, bodyOf, pcorrBody_of_valid h, finish_ok]

theorem exec_pcorr_of_invalid {s : State} (h : s.status.vDbits = false) :
    exec .pcorr s = .next (s.complete .seq) := by
  rw [exec_eq_finish, bodyOf, pcorrBody_of_invalid h, finish_error]

theorem pcorr_length_lt {sync : Word} {B : Bits} (hB : B.length < 2 ^ 32) : (pcorr sync B).length < 2 ^ 32 :=
  (pcorr_length_le sync B).trans_lt (by omega)

/-- Settles O24: a valid V_DBITS takes the body that writes the entries, an invalid one the body's only error. -/
theorem pcorrWritesPartialMatches : Obligations.PcorrWritesPartialMatches := by
  refine ⟨rfl, fun s => ⟨fun hv => ?_, fun hv => exec_pcorr_of_invalid hv⟩⟩
  have hcount : (toWord (pcorr s.params.sync s.decodedBits).length).toNat =
      (pcorr s.params.sync s.decodedBits).length :=
    toWord_toNat _ (pcorr_length_lt s.decodedBits_length_lt)
  refine ⟨_, _, exec_pcorr_of_valid hv, hcount, fun k hk => ?_, fun k hk => ?_⟩
  · have hk : k < (pcorr s.params.sync s.decodedBits).length := hk.trans_eq hcount
    rw [State.putPartials_pmtab, tableOverlay_getElem?_lt _ _ _ hk, List.getElem?_eq_getElem hk]
  · exact tableOverlay_getElem?_ge _ _ _ (hcount.symm.trans_le hk)

/-! ## Independence of the two scans -/

/-- Settles O25: PCORR's result is `pcorr` of the pattern and the bits. Each scan leaves what the other reads and
writes other fields, so both orders make the same two updates; with no valid bits both end in SEQ twice. -/
theorem scansAreIndependent : Obligations.ScansAreIndependent := by
  refine ⟨fun s u hs hu hsync hbits => ?_, fun s => ?_⟩
  · have hcount := pcorr_length_lt (sync := s.params.sync) s.decodedBits_length_lt
    refine ⟨_, _, exec_pcorr_of_valid hs, exec_pcorr_of_valid hu, ?_, ?_⟩
    · rw [hsync, hbits]
      rfl
    · rw [hsync, hbits, State.complete_partials, State.complete_partials, State.partials_putPartials _ _ hcount,
        State.partials_putPartials _ _ hcount]
  · cases hv : s.status.vDbits with
    | true =>
      exact ⟨_, _, _, _, exec_fsync_of_valid hv, exec_pcorr_of_valid hv, exec_pcorr_of_valid hv,
        exec_fsync_of_valid hv, rfl, rfl, rfl⟩
    | false =>
      exact ⟨_, _, _, _, exec_fsync_of_invalid hv, exec_pcorr_of_invalid hv, exec_pcorr_of_invalid hv,
        exec_fsync_of_invalid hv, rfl, rfl, rfl⟩

end Sys2Proof.Machine
end

section
/-! The packer (43_pack.md R160 to R164): the bits of a packed region, its byte form and length, where a frame stands
in the packed stream, and what the two commands change and leave. -/

namespace Sys2Proof.Machine

/-! ## The bits of a packed region -/

/-- Bit `k` of a byte list in packing order: bit `7 - k % 8` of byte `k / 8` (43_pack.md R160). -/
def packedBit (out : List Byte) (k : Nat) : Bool := (out.getD (k / 8) 0).getLsbD (7 - k % 8)

theorem packedBit_of_getElem? {out : List Byte} {b : Byte} {k : Nat} (h : out[k / 8]? = some b) :
    packedBit out k = b.getLsbD (7 - k % 8) := by
  rw [packedBit, List.getD_eq_getElem?_getD, h, Option.getD_some]

theorem packedBit_replicate_zero (m k : Nat) : packedBit (List.replicate m 0#8) k = false := by
  rw [packedBit, List.getD_eq_getElem?_getD, List.getElem?_replicate]
  split <;> exact BitVec.getLsbD_zero

/-- The bits in packing order determine the bytes. -/
theorem eq_of_packedBit_eq {xs ys : List Byte} (hlen : xs.length = ys.length)
    (hbit : ∀ k, k / 8 < xs.length → packedBit xs k = packedBit ys k) : xs = ys := by
  refine List.ext_getElem hlen fun q hx hy => BitVec.eq_of_getLsbD_eq fun j hj => ?_
  have hbyte : (8 * q + (7 - j)) / 8 = q := by omega
  have hpos : 7 - (8 * q + (7 - j)) % 8 = j := by omega
  have hk := hbit (8 * q + (7 - j)) (hbyte.symm ▸ hx)
  simpa only [packedBit, hbyte, hpos, List.getD_eq_getElem _ _ hx, List.getD_eq_getElem _ _ hy] using hk

/-- A single bit, at the position of region bit `i` in its byte. -/
theorem one_shiftLeft_getLsbD (i k : Nat) :
    (1#8 <<< (7 - i % 8)).getLsbD (7 - k % 8) = decide (k % 8 = i % 8) := by
  rw [BitVec.getLsbD_shiftLeft, BitVec.getLsbD_one, Bool.eq_iff_iff]
  simp only [Bool.and_eq_true, Bool.not_eq_true', decide_eq_true_eq, decide_eq_false_iff_not]
  omega

/-- A turn of R160's loop sets bit `i` when region bit `i` is 1, and no other bit. -/
theorem packedBit_packTurn {B : Bits} {s i : Nat} {out : List Byte} (hi : i / 8 < out.length) (k : Nat) :
    packedBit (packTurn B s out i) k = (packedBit out k || (decide (k = i) && B.getD (s + i) false)) := by
  cases hb : B.getD (s + i) false with
  | false => simp only [packTurn, hb, Bool.false_eq_true, if_false, Bool.and_false, Bool.or_false]
  | true =>
    simp only [packTurn, hb, if_true, Bool.and_true, packedBit, List.getD_eq_getElem?_getD, List.getElem?_modify]
    by_cases hq : i / 8 = k / 8
    · have hsame : k % 8 = i % 8 ↔ k = i := by omega
      have hk : k / 8 < out.length := hq ▸ hi
      simp only [hq, if_true, List.getElem?_eq_getElem hk, Option.map_eq_map, Option.map_some, Option.getD_some,
        BitVec.getLsbD_or, one_shiftLeft_getLsbD, hsame]
    · have hne : k ≠ i := fun h => hq (h ▸ rfl)
      simp [hq, hne]

theorem packedBit_foldl_packTurn {B : Bits} {s : Nat} {out : List Byte} {n : Nat} (hn : n ≤ 8 * out.length) (k : Nat) :
    packedBit ((List.range n).foldl (packTurn B s) out) k =
      (packedBit out k || (decide (k < n) && B.getD (s + k) false)) := by
  induction n with
  | zero => simp
  | succ n ih =>
    have hin : n / 8 < ((List.range n).foldl (packTurn B s) out).length := by
      rw [foldl_packTurn_length]
      omega
    rw [List.range_succ, List.foldl_append, List.foldl_cons, List.foldl_nil, packedBit_packTurn hin, ih (by omega)]
    by_cases hk : k = n
    · simp [hk]
    · have hlt : k < n + 1 ↔ k < n := by omega
      simp [hk, hlt]

/-- The packed bits are the region's bits, then zeros (R160). -/
theorem packedBit_pack (B : Bits) (s n k : Nat) :
    packedBit (pack B s n) k = (decide (k < n) && B.getD (s + k) false) := by
  have hn : n ≤ 8 * (List.replicate (bytesFor n) 0#8).length := by
    rw [List.length_replicate, bytesFor]
    omega
  rw [pack, packedBit_foldl_packTurn hn, packedBit_replicate_zero, Bool.false_or]

/-- Settles O26: the length, and the two cases of `packedBit_pack`. -/
theorem packPlacesBitsMsbFirst : Obligations.PackPlacesBitsMsbFirst := by
  intro B s n hfit
  refine ⟨pack_length B s n, fun i hi => ?_, fun i hi b hb => ?_⟩
  · have hlen : i / 8 < (pack B s n).length := by
      rw [pack_length, bytesFor]
      omega
    have hin : s + i < B.length := by omega
    have hbyte := List.getElem?_eq_getElem hlen
    refine ⟨_, hbyte, ?_⟩
    rw [← packedBit_of_getElem? hbyte, packedBit_pack, decide_eq_true hi, Bool.true_and, List.getD_eq_getElem _ _ hin,
      List.getElem?_eq_getElem hin]
  · rw [← packedBit_of_getElem? hb, packedBit_pack, decide_eq_false (Nat.not_lt.mpr hi), Bool.false_and]

/-! ## The byte form -/

/-- Bit `7 - j` of packed byte `q` is region bit `8 * q + j`, and 0 beyond the region (R161). -/
theorem packByte_getLsbD (B : Bits) (s n q : Nat) {j : Nat} (hj : j < 8) :
    (packByte B s n q).getLsbD (7 - j) = (decide (8 * q + j < n) && B.getD (s + 8 * q + j) false) := by
  have hfrom : min 8 (n - 8 * q) ≤ 7 + 1 := Nat.min_le_left ..
  have hback : 7 - (7 - j) = j := by omega
  have hvalid : j < min 8 (n - 8 * q) ↔ 8 * q + j < n := by omega
  rw [packByte, BitVec.getLsbD_ofNat, testBit_sum_shiftLeft (fun j => B.getD (s + 8 * q + j) false) hfrom, hback]
  simp only [Nat.sub_le, true_and, show 7 - j < 8 by omega, decide_true, Bool.true_and, hvalid]

/-- The two forms agree everywhere: they have the same length and the same bits (R161). -/
theorem pack_eq_map_packByte (B : Bits) (s n : Nat) :
    pack B s n = (List.range (bytesFor n)).map (packByte B s n) := by
  refine eq_of_packedBit_eq (by rw [pack_length, List.length_map, List.length_range]) fun k hk => ?_
  rw [pack_length] at hk
  have hbyte : ((List.range (bytesFor n)).map (packByte B s n))[k / 8]? = some (packByte B s n (k / 8)) := by
    rw [List.getElem?_map, List.getElem?_range hk, Option.map_some]
  rw [packedBit_pack, packedBit_of_getElem? hbyte, packByte_getLsbD B s n _ (Nat.mod_lt k (by decide)), Nat.add_assoc,
    Nat.div_add_mod]

theorem pack_getElem (B : Bits) (s n : Nat) {q : Nat} (hq : q < (pack B s n).length) :
    (pack B s n)[q] = packByte B s n q := by
  simp [pack_eq_map_packByte]

/-- A byte with `c` valid bits has none below bit `8 - c` (R161). -/
theorem packByte_mod_two_pow (B : Bits) {s n q : Nat} (hshort : n - 8 * q < 8) :
    (packByte B s n q).toNat % 2 ^ (8 - (n - 8 * q)) = 0 := by
  refine Nat.eq_of_testBit_eq fun m => ?_
  rw [Nat.testBit_mod_two_pow, Nat.zero_testBit]
  by_cases hm : m < 8 - (n - 8 * q)
  · have hpad : ¬ 8 * q + (7 - m) < n := by omega
    have hbit := packByte_getLsbD B s n q (show 7 - m < 8 by omega)
    rw [show 7 - (7 - m) = m by omega, decide_eq_false hpad, Bool.false_and] at hbit
    rw [BitVec.testBit_toNat, hbit, Bool.and_false]
  · rw [decide_eq_false hm, Bool.false_and]

/-- Settles O27: the loop's result byte by byte, and the padding of a short byte. -/
theorem packAgreesWithByteForm : Obligations.PackAgreesWithByteForm :=
  fun B s n _ => ⟨pack_eq_map_packByte B s n, fun _ _ hshort => packByte_mod_two_pow B hshort⟩

/-! ## The length and the sync pattern -/

theorem pack_zero (B : Bits) (s : Nat) : pack B s 0 = [] := rfl

/-- Packed byte `q` of the sync pattern is byte `3 - q` of SYNCW (R162, 10_state.md R37). -/
theorem packByte_sync (sync : Word) {q : Nat} (hq : q < 4) :
    packByte ((List.range 32).map (syncBit sync)) 0 32 q = sync.extractLsb' (24 - 8 * q) 8 := by
  refine BitVec.eq_of_getLsbD_eq fun j hj => ?_
  have hbit := packByte_getLsbD ((List.range 32).map (syncBit sync)) 0 32 q (show 7 - j < 8 by omega)
  have hin : 8 * q + (7 - j) < 32 := by omega
  have hpos : 31 - (8 * q + (7 - j)) = 24 - 8 * q + j := by omega
  rw [show 7 - (7 - j) = j by omega] at hbit
  rw [hbit, BitVec.getLsbD_extractLsb']
  simp [hin, hj, syncBit, BitVec.getMsbD, hpos]

/-- Settles O28: `pack_length`, two evaluations, and the four bytes of the pattern. -/
theorem packLengthAndExamples : Obligations.PackLengthAndExamples := by
  refine ⟨fun B s n _ => ⟨pack_length B s n, fun hn => hn ▸ pack_zero B s, fun h1 h8 => ?_⟩, rfl, rfl, fun sync => ?_⟩
  · rw [pack_length, bytesFor]
    omega
  · calc pack ((List.range 32).map (syncBit sync)) 0 32
        = (List.range 4).map (packByte ((List.range 32).map (syncBit sync)) 0 32) := pack_eq_map_packByte ..
      _ = (List.range 4).map fun q => sync.extractLsb' (24 - 8 * q) 8 :=
          List.map_congr_left fun q hq => packByte_sync sync (List.mem_range.mp hq)

/-! ## Where a frame stands in the packed stream -/

theorem packFrames_append (es fs : List FrameEntry) (B : Bits) :
    packFrames (es ++ fs) B = packFrames es B ++ packFrames fs B := List.flatMap_append

theorem packFrames_cons (e : FrameEntry) (es : List FrameEntry) (B : Bits) :
    packFrames (e :: es) B = pack B e.start.toNat (e.stop.toNat - e.start.toNat) ++ packFrames es B := List.flatMap_cons

/-- Byte `q` of frame `k` comes after the bytes of the frames before it (R163). -/
theorem packFrames_getElem? {es : List FrameEntry} (B : Bits) {k q : Nat} {e : FrameEntry} (he : es[k]? = some e)
    (hq : q < bytesFor (e.stop.toNat - e.start.toNat)) :
    (packFrames es B)[(packFrames (es.take k) B).length + q]? =
      some (packByte B e.start.toNat (e.stop.toNat - e.start.toNat) q) := by
  have hsplit : packFrames es B = packFrames (es.take k) B ++
      (pack B e.start.toNat (e.stop.toNat - e.start.toNat) ++ packFrames (es.drop (k + 1)) B) := by
    obtain ⟨hk, rfl⟩ := List.getElem?_eq_some_iff.mp he
    rw [← packFrames_cons, ← packFrames_append, List.cons_getElem_drop_succ, List.take_append_drop]
  have hlen : q < (pack B e.start.toNat (e.stop.toNat - e.start.toNat)).length := (pack_length ..).symm ▸ hq
  rw [hsplit, List.getElem?_append_right (Nat.le_add_right ..), Nat.add_sub_cancel_left,
    List.getElem?_append_left hlen, List.getElem?_eq_getElem hlen, pack_getElem]

/-- What entry `k` of the frame table says of frame `k`, each number in its register without a wrap (42_fsync.md
R139). -/
theorem frameTable_getElem?_toNat {sync : Word} {B : Bits} (hB : B.length < 2 ^ 32) {k : Nat} {e : FrameEntry}
    (he : (frameTable (fsync sync B))[k]? = some e) :
    ∃ f, (fsync sync B)[k]? = some f ∧ e.stop.toNat - e.start.toNat = frameLen f ∧
      e.poff.toNat = packedOffset (fsync sync B) k ∧ e.pbytes.toNat = bytesFor (frameLen f) := by
  rw [frameTable, frameTableFrom_getElem?, Option.map_eq_some_iff] at he
  obtain ⟨f, hf, rfl⟩ := he
  obtain ⟨hlen, hstop⟩ := fsync_mem (List.mem_of_getElem? hf)
  have hbytes : bytesFor (frameLen f) < 2 ^ 32 := by
    rw [bytesFor, frameLen]
    omega
  refine ⟨f, hf, ?_, ?_, toWord_toNat _ hbytes⟩
  · simp only [toWord_toNat f.1 (by omega), toWord_toNat f.2 (by omega), frameLen]
  · rw [Nat.zero_add, toWord_toNat _ (packedOffset_lt hB k)]

/-- PBYTES is the frame's packed length (R139). -/
theorem frameTable_pbytes {sync : Word} {B : Bits} (hB : B.length < 2 ^ 32) {k : Nat} {e : FrameEntry}
    (he : (frameTable (fsync sync B))[k]? = some e) : e.pbytes.toNat = bytesFor (e.stop.toNat - e.start.toNat) := by
  obtain ⟨f, -, hlen, -, hbytes⟩ := frameTable_getElem?_toNat hB he
  rw [hlen, hbytes]

/-- POFF is where the frame's bytes start in the packed stream (R139, R163). -/
theorem frameTable_poff {sync : Word} {B : Bits} (hB : B.length < 2 ^ 32) {k : Nat} {e : FrameEntry}
    (he : (frameTable (fsync sync B))[k]? = some e) :
    e.poff.toNat = (packFrames ((frameTable (fsync sync B)).take k) B).length := by
  have hmap : (frameTable (fsync sync B)).map (fun e => bytesFor (e.stop.toNat - e.start.toNat)) =
      (fsync sync B).map fun f => bytesFor (frameLen f) := by
    refine List.ext_getElem (by simp) fun i hi _ => ?_
    obtain ⟨f, hf, hlen, -⟩ := frameTable_getElem?_toNat hB (List.getElem?_eq_getElem (by simpa using hi))
    rw [List.getElem_map, List.getElem_map, hlen, (List.getElem_eq_iff _).mpr hf]
  obtain ⟨f, -, -, hoff, -⟩ := frameTable_getElem?_toNat hB he
  rw [hoff, packedOffset, packFrames_length, List.map_take, List.map_take, hmap]

theorem packFrames_frameTable_lt {sync : Word} {B : Bits} (hB : B.length < 2 ^ 32) :
    (packFrames (frameTable (fsync sync B)) B).length < 2 ^ 32 := by
  have hpacked := packFrames_frameTable_le (sync := sync) hB
  have hcount := fsync_length_le sync B
  omega

/-! ## The commands -/

theorem exec_packf_of_valid {s : State} (h : s.status.vFrames = true) :
    exec .packf s = .next ((s.putPacked false (packFrames s.frames s.decodedBits)).complete .ok) := by
  rw [exec_eq_finish, bodyOf, packfBody_of_valid h, finish_ok]

theorem exec_packf_of_invalid {s : State} (h : s.status.vFrames = false) :
    exec .packf s = .next (s.complete .seq) := by
  rw [exec_eq_finish, bodyOf, packfBody_of_invalid h, finish_error]

theorem exec_packr_of_valid {s : State} (h : s.status.vDbits = true)
    (hr : s.packStart.toNat + s.packLen.toNat ≤ s.bitCount.toNat) :
    exec .packr s =
      .next ((s.putPacked true (pack s.decodedBits s.packStart.toNat s.packLen.toNat)).complete .ok) := by
  rw [exec_eq_finish, bodyOf, packrBody_of_valid h hr, finish_ok]

theorem exec_packr_of_range {s : State} (h : s.status.vDbits = true)
    (hr : s.bitCount.toNat < s.packStart.toNat + s.packLen.toNat) :
    exec .packr s = .next (s.complete .packRange) := by
  rw [exec_eq_finish, bodyOf, packrBody_of_range h hr, finish_error]

theorem exec_packr_of_invalid {s : State} (h : s.status.vDbits = false) :
    exec .packr s = .next (s.complete .seq) := by
  rw [exec_eq_finish, bodyOf, packrBody_of_invalid h, finish_error]

/-- Settles O29: a valid V_FRAMES takes the body that writes POUT, an invalid one the body's only error. -/
theorem packfPacksFrames : Obligations.PackfPacksFrames := by
  refine ⟨rfl, fun s => ⟨fun hv => ?_, fun hv => exec_packf_of_invalid hv⟩⟩
  exact ⟨_, exec_packf_of_valid hv, fun q hq => bufByte_overlay_lt _ _ _ _ _ hq,
    fun q hq => Memory.read_overlay_ge _ _ _ hq⟩

theorem State.complete_poutAt (s : State) (c : ErrCode) (q : Nat) : (s.complete c).poutAt q = s.poutAt q := rfl

theorem State.frames_getElem? (s : State) {k : Nat} (hk : k < s.frameCount.toNat) :
    s.frames[k]? = some (s.frameAt k) := by
  rw [State.frames, List.getElem?_map, List.getElem?_range hk, Option.map_some]

theorem State.poutAt_putPacked (s : State) (region : Bool) {bytes : List Byte} {q : Nat} {b : Byte}
    (h : bytes[q]? = some b) : (s.putPacked region bytes).poutAt q = b := by
  obtain ⟨hq, rfl⟩ := List.getElem?_eq_some_iff.mp h
  exact bufByte_overlay_lt _ _ _ _ _ hq

/-- Settles O30: in a state that keeps R27's promises FTAB is the frame table of the decoded bits, so POFF is where
each frame's bytes start in the stream PACKF writes. -/
theorem packfPlacesFramesAtTheirOffsets : Obligations.PackfPlacesFramesAtTheirOffsets := by
  intro s hs hv
  obtain ⟨-, hframes, -⟩ := hs.frames hv
  have hB := s.decodedBits_length_lt
  refine ⟨_, exec_packf_of_valid hv, ?_, fun k hk q hq => ?_⟩
  · rw [State.complete_packBytes, State.putPacked_packBytes, hframes, toWord_toNat _ (packFrames_frameTable_lt hB),
      packFrames_length]
    refine congrArg List.sum (List.map_congr_left fun e he => ?_)
    obtain ⟨k, hk⟩ := List.mem_iff_getElem?.mp he
    exact (frameTable_pbytes hB hk).symm
  · have he := s.frames_getElem? hk
    have htab := hframes ▸ he
    have hoff : (s.frameAt k).poff.toNat = (packFrames (s.frames.take k) s.decodedBits).length := by
      rw [hframes, frameTable_poff hB htab]
    rw [frameTable_pbytes hB htab] at hq
    rw [State.complete_poutAt, hoff, s.poutAt_putPacked false (packFrames_getElem? s.decodedBits he hq)]

/-- Settles O31: one clause of `packrBody` each, with the packed bytes in their byte form. -/
theorem packrPacksRegion : Obligations.PackrPacksRegion := by
  refine ⟨rfl, fun s => ⟨fun hv hfit => ?_, fun hv hover => exec_packr_of_range hv hover,
    fun hv => exec_packr_of_invalid hv⟩⟩
  have hlen := pack_length s.decodedBits s.packStart.toNat s.packLen.toNat
  have hcount : (toWord (pack s.decodedBits s.packStart.toNat s.packLen.toNat).length).toNat =
      (pack s.decodedBits s.packStart.toNat s.packLen.toNat).length := by
    have hword := Word_lt s.packLen
    refine toWord_toNat _ ?_
    rw [hlen, bytesFor]
    omega
  refine ⟨_, _, exec_packr_of_valid hv hfit, hcount.trans hlen, fun q hq => ?_, fun q hq => ?_⟩
  · have hbyte := hq.trans_eq hcount
    rw [State.putPacked_pout, bufByte_overlay_lt _ _ _ _ _ hbyte, pack_getElem]
  · exact Memory.read_overlay_ge _ _ _ (hcount.symm.trans_le hq)

end Sys2Proof.Machine
end

section
/-! The control commands (44_control.md R175 to R177): what a completed command leaves for the next, RUN against its
five members and against the stage functions, and the two commands that read no buffer. -/

namespace Sys2Proof.Machine

/-! ## A command after a completed one -/

theorem exec_of_ok {i : Instr} {s t : State} (h : bodyOf i s = .ok t) : exec i s = .next (t.complete .ok) := by
  rw [exec_eq_finish, h, finish_ok]

theorem State.complete_complete (s : State) (c d : ErrCode) : (s.complete c).complete d = s.complete d := rfl

/-- A single command's body neither reads nor writes ERR, BUSY or DONE, so what an earlier completion left there stays
beside its effect. -/
theorem bodyOf_complete {i : Instr} {s t : State} (c : ErrCode) (hi : i ≠ .run) (h : bodyOf i s = .ok t) :
    bodyOf i (s.complete c) = .ok (t.complete c) := by
  cases i with
  | nop | clear =>
    cases h
    rfl
  | extract =>
    obtain ⟨hle, rfl⟩ := extractBody_ok h
    exact extractBody_of_le hle
  | demod =>
    obtain ⟨hv, rfl⟩ := demodBody_ok h
    exact demodBody_of_valid hv
  | fsync =>
    obtain ⟨hv, rfl⟩ := fsyncBody_ok h
    exact fsyncBody_of_valid hv
  | pcorr =>
    obtain ⟨hv, rfl⟩ := pcorrBody_ok h
    exact pcorrBody_of_valid hv
  | packf =>
    obtain ⟨hv, rfl⟩ := packfBody_ok h
    exact packfBody_of_valid hv
  | packr =>
    obtain ⟨hv, hregion, rfl⟩ := packrBody_ok h
    exact packrBody_of_valid hv hregion
  | run => exact absurd rfl hi

theorem exec_complete_of_ok {i : Instr} {s t : State} (c : ErrCode) (hi : i ≠ .run) (h : bodyOf i s = .ok t) :
    exec i (s.complete c) = .next (t.complete .ok) := by
  rw [exec_of_ok (bodyOf_complete c hi h), State.complete_complete]

/-! ## RUN and its members -/

theorem exists_runBody_ok {s : State} (h : s.nLen.toNat ≤ nMax s.params) : ∃ t, runBody s = .ok t := by
  rw [runBody_eq, extractBody_of_le h]
  exact ⟨_, rfl⟩

/-- Settles O33: RUN's body succeeds, so each member's does, and a member's completion does not touch the next. -/
theorem runEqualsItsMembers : Obligations.RunEqualsItsMembers := by
  intro s hle
  obtain ⟨t, hrun⟩ := exists_runBody_ok hle
  obtain ⟨s1, s2, s3, s4, hextract, hdemod, hfsync, hpcorr, hpackf⟩ := runBody_ok hrun
  exact ⟨_, _, _, _, _, exec_of_ok (i := .extract) hextract, exec_complete_of_ok (i := .demod) _ nofun hdemod,
    exec_complete_of_ok (i := .fsync) _ nofun hfsync, exec_complete_of_ok (i := .pcorr) _ nofun hpcorr,
    exec_complete_of_ok (i := .packf) _ nofun hpackf, exec_of_ok (i := .run) hrun⟩

/-! ## RUN and the stage functions -/

/-- EXTRACT's promise starts the chain, and each later member keeps the earlier promises and adds its own. -/
theorem runBody_stageInv {s t : State} (h : runBody s = .ok t) : t.StageInv := by
  obtain ⟨_, _, _, _, hextract, hdemod, hfsync, hpcorr, hpackf⟩ := runBody_ok h
  exact ((((extractBody_stageInv hextract).demodBody hdemod).fsyncBody hfsync).pcorrBody hpcorr).packfBody hpackf

/-- The four later members leave SAMP and SAMPLE_COUNT as EXTRACT wrote them. -/
theorem runBody_samples {s t : State} (h : runBody s = .ok t) :
    t.samples = (s.inBytes s.nLen.toNat).map extract := by
  obtain ⟨s1, s2, s3, s4, hextract, hdemod, hfsync, hpcorr, hpackf⟩ := runBody_ok h
  obtain ⟨-, h1⟩ := extractBody_ok hextract
  obtain ⟨-, h2⟩ := demodBody_ok hdemod
  obtain ⟨-, h3⟩ := fsyncBody_ok hfsync
  obtain ⟨-, h4⟩ := pcorrBody_ok hpcorr
  obtain ⟨-, h5⟩ := packfBody_ok hpackf
  have hlen : ((s.inBytes s.nLen.toNat).map extract).length < 2 ^ 32 := by
    rw [List.length_map, State.inBytes_length]
    exact Word_lt s.nLen
  calc t.samples = s4.samples := by rw [h5, State.putPacked_samples]
    _ = s3.samples := by rw [h4, State.putPartials_samples]
    _ = s2.samples := by rw [h3, State.putFrames_samples]
    _ = s1.samples := by rw [h2, State.invalidateAfterDbits_samples, State.putDbits_samples]
    _ = (s.inBytes s.nLen.toNat).map extract := by
      rw [h1, State.invalidateAfterSamp_samples, s.samples_putSamples _ hlen]

theorem runBody_sampleCount {s t : State} (h : runBody s = .ok t) : t.sampleCount = s.nLen := by
  rw [← BitVec.toNat_inj, ← State.samples_length, runBody_samples h, List.length_map, State.inBytes_length]

/-- PCORR and PACKF set the last two valid bits, and a valid stage's promise says that its input stage is valid. -/
theorem runBody_valid {s t : State} (h : runBody s = .ok t) :
    t.status.vSamp = true ∧ t.status.vDbits = true ∧ t.status.vFrames = true ∧ t.status.vPm = true ∧
      t.status.vPack = true ∧ t.status.pkr = false := by
  have hinv := runBody_stageInv h
  obtain ⟨s1, s2, s3, s4, -, -, -, hpcorr, hpackf⟩ := runBody_ok h
  obtain ⟨-, rfl⟩ := pcorrBody_ok hpcorr
  obtain ⟨-, rfl⟩ := packfBody_ok hpackf
  obtain ⟨hframes, -⟩ := hinv.packf rfl rfl
  obtain ⟨hdbits, -⟩ := hinv.frames hframes
  obtain ⟨hsamp, -⟩ := hinv.dbits hdbits
  exact ⟨hsamp, hdbits, hframes, rfl, rfl, rfl⟩

/-- `t` differs from `s` at most in the results: the buffers but IN, the counts, DIAG, the valid bits and PKR. -/
def State.SameButResults (s t : State) : Prop :=
  t = { s with
        samp := t.samp, dbits := t.dbits, ftab := t.ftab, pmtab := t.pmtab, pout := t.pout
        sampleCount := t.sampleCount, markerCount := t.markerCount, bitCount := t.bitCount
        frameCount := t.frameCount, frameMinLen := t.frameMinLen, frameMaxLen := t.frameMaxLen
        pmCount := t.pmCount, packBytes := t.packBytes
        diagPrefixLen := t.diagPrefixLen, diagHeadLen := t.diagHeadLen
        status := { s.status with
          diag := t.status.diag, vSamp := t.status.vSamp, vDbits := t.status.vDbits,
          vFrames := t.status.vFrames, vPm := t.status.vPm, vPack := t.status.vPack, pkr := t.status.pkr } }

theorem State.SameButResults.trans {s t u : State} (hst : s.SameButResults t) (htu : t.SameButResults u) :
    s.SameButResults u := by
  unfold State.SameButResults at hst
  rw [hst] at htu
  exact htu

theorem State.SameButResults.params_eq {s t : State} (h : s.SameButResults t) : t.params = s.params := by
  rw [h]

/-- No member of RUN writes an input, an operand register, BWERR or the handshake (44_control.md R176). -/
theorem runBody_sameButResults {s t : State} (h : runBody s = .ok t) : s.SameButResults t := by
  obtain ⟨s1, s2, s3, s4, hextract, hdemod, hfsync, hpcorr, hpackf⟩ := runBody_ok h
  have h1 : s.SameButResults s1 := by
    obtain ⟨-, rfl⟩ := extractBody_ok hextract
    rfl
  have h2 : s1.SameButResults s2 := by
    obtain ⟨-, rfl⟩ := demodBody_ok hdemod
    rfl
  have h3 : s2.SameButResults s3 := by
    obtain ⟨-, rfl⟩ := fsyncBody_ok hfsync
    rfl
  have h4 : s3.SameButResults s4 := by
    obtain ⟨-, rfl⟩ := pcorrBody_ok hpcorr
    rfl
  have h5 : s4.SameButResults t := by
    obtain ⟨-, rfl⟩ := packfBody_ok hpackf
    rfl
  exact (((h1.trans h2).trans h3).trans h4).trans h5

theorem State.decodedBits_of_dbitBytes {s : State} {bits : Bits} (h : s.dbitBytes = bits.map bitByte) :
    s.decodedBits = bits := by
  simp [State.decodedBits, h, Function.comp_def]

/-- Settles O34: RUN's end state keeps R27's promises with every stage valid, and those promises are the stage
functions; the one error is EXTRACT's. -/
theorem runComputesWholePipeline : Obligations.RunComputesWholePipeline := by
  refine ⟨rfl, fun s => ⟨fun hle => ?_, fun hgt => ?_⟩⟩
  · obtain ⟨t, hrun⟩ := exists_runBody_ok hle
    have hsamples := runBody_samples hrun
    have hinv := runBody_stageInv hrun
    obtain ⟨hvSamp, hvDbits, hvFrames, hvPm, hvPack, hpkr⟩ := runBody_valid hrun
    obtain ⟨-, hdbits, hmarkers⟩ := hinv.dbits hvDbits
    obtain ⟨-, hframes, hmin, hmax, hdiag, hprefix, hhead⟩ := hinv.frames hvFrames
    obtain ⟨-, hpartials⟩ := hinv.pm hvPm
    obtain ⟨-, hpacked⟩ := hinv.packf hvPack hpkr
    have hsame := runBody_sameButResults hrun
    have hparams := hsame.params_eq
    rw [State.SameButResults, runBody_sampleCount hrun, hvSamp, hvDbits, hvFrames, hvPm, hvPack, hpkr] at hsame
    have hcomplete := congrArg (State.complete · .ok) hsame
    rw [hparams] at hframes hmin hmax hpartials
    have hdiag : t.status.diag = true ↔ 0 < t.bitCount.toNat ∧ t.frameCount = 0 := by
      rw [hdiag, Bool.and_eq_true, decide_eq_true_iff, decide_eq_true_iff]
    exact ⟨t.complete .ok, exec_of_ok (i := .run) hrun, hcomplete, hsamples, hdbits,
      State.decodedBits_of_dbitBytes hdbits, hmarkers, hframes, hmin, hmax, hdiag, hprefix, hhead, hpartials, hpacked⟩
  · rw [exec_eq_finish, bodyOf, runBody_eq, extractBody_of_gt hgt]
    rfl

/-! ## NOP and CLEAR -/

/-- Settles O32: NOP's body is the state it starts from, so its completion is all it does. -/
theorem nopOnlyCompletes : Obligations.NopOnlyCompletes := ⟨rfl, fun _ => exec_of_ok (i := .nop) rfl⟩

theorem exec_demod_of_invalid {s : State} (h : s.status.vSamp = false) :
    exec .demod s = .next (s.complete .seq) := by
  rw [exec_eq_finish, bodyOf, demodBody_of_invalid h, finish_error]

/-- Settles O35: `invalidateAll` is R177's list, and each of the five commands then meets a valid bit of 0. -/
theorem clearDiscardsResults : Obligations.ClearDiscardsResults := by
  refine ⟨rfl, fun s => ⟨_, exec_of_ok (i := .clear) rfl, rfl, ?_⟩⟩
  rintro i (rfl | rfl | rfl | rfl | rfl)
  · exact exec_demod_of_invalid rfl
  · exact exec_fsync_of_invalid rfl
  · exact exec_pcorr_of_invalid rfl
  · exact exec_packf_of_invalid rfl
  · exact exec_packr_of_invalid rfl

end Sys2Proof.Machine
end

section
/-! Errors and liveness (60_exceptions.md R190 to R201): how a Complete step ends, with which code and what it leaves
unchanged, which host accesses are bus errors, and that the block always goes on. -/

namespace Sys2Proof.Machine

/-! ## How a Complete step ends -/

theorem State.SameButResults.refl (s : State) : s.SameButResults s := rfl

theorem State.SameButResults.inputs_eq {s t : State} (h : s.SameButResults t) :
    t.cmdq = s.cmdq ∧ t.nLen = s.nLen ∧ t.packStart = s.packStart ∧ t.packLen = s.packLen ∧ t.inp = s.inp ∧
      t.status.bwerr = s.status.bwerr := by
  rw [h]
  exact ⟨rfl, rfl, rfl, rfl, rfl, rfl⟩

/-- No command writes an input, an operand register, CMDQ, BWERR or, before its completion, the handshake. -/
theorem bodyOf_sameButResults {i : Instr} {s t : State} (h : bodyOf i s = .ok t) : s.SameButResults t := by
  cases i with
  | nop | clear =>
    cases h
    rfl
  | extract =>
    obtain ⟨-, rfl⟩ := extractBody_ok h
    rfl
  | demod =>
    obtain ⟨-, rfl⟩ := demodBody_ok h
    rfl
  | fsync =>
    obtain ⟨-, rfl⟩ := fsyncBody_ok h
    rfl
  | pcorr =>
    obtain ⟨-, rfl⟩ := pcorrBody_ok h
    rfl
  | packf =>
    obtain ⟨-, rfl⟩ := packfBody_ok h
    rfl
  | packr =>
    obtain ⟨-, -, rfl⟩ := packrBody_ok h
    rfl
  | run => exact runBody_sameButResults h

/-- The code a body's answer leaves in ERR: its error, or 0 (60_exceptions.md R192). -/
def codeOf (r : Except ErrCode State) : ErrCode :=
  match r with
  | .ok _ => .ok
  | .error c => c

theorem codeOf_map (r : Except ErrCode State) (f : State → State) : codeOf (r.map f) = codeOf r := by
  cases r <;> rfl

/-- A check of a body that fails with `c` (60_exceptions.md R191). -/
theorem codeOf_check (P : Prop) [Decidable P] (r : Except ErrCode State) (c : ErrCode) :
    codeOf (if P then r else .error c) = if P then codeOf r else c := by
  split <;> rfl

/-- The code the Complete step of `s` leaves in ERR. -/
def State.resultCode (s : State) : ErrCode :=
  match decode s.cmdq with
  | .ok i => codeOf (bodyOf i s)
  | .error _ => .illegal

theorem State.resultCode_of_ok {s : State} {i : Instr} (hd : decode s.cmdq = .ok i) :
    s.resultCode = codeOf (bodyOf i s) := by
  simp only [State.resultCode, hd]

theorem State.resultCode_of_error {s : State} {e : DecodeError} (hd : decode s.cmdq = .error e) :
    s.resultCode = .illegal := by
  simp only [State.resultCode, hd]

/-- All a Complete step can do (60_exceptions.md R190, R191): it completes a state that differs from `s` in the results
at most, and with a nonzero code it completes `s` itself. -/
theorem completeStep_completes (s : State) :
    ∃ u, completeStep s = .next (u.complete s.resultCode) ∧ s.SameButResults u ∧ (s.resultCode ≠ .ok → u = s) := by
  obtain ⟨i, hd, heq⟩ | ⟨e, hd, heq⟩ := completeStep_eq s
  · rw [heq, State.resultCode_of_ok hd]
    cases hbody : bodyOf i s with
    | ok u => exact ⟨u, rfl, bodyOf_sameButResults hbody, fun hcode => absurd rfl hcode⟩
    | error c => exact ⟨s, rfl, .refl s, fun _ => rfl⟩
  · rw [heq, State.resultCode_of_error hd]
    exact ⟨s, rfl, .refl s, fun _ => rfl⟩

/-- Settles O36: with a nonzero code the completed state is the one before. -/
theorem commandErrorsArePrecise : Obligations.CommandErrorsArePrecise := by
  intro s t hstep hcode
  obtain ⟨u, hcomplete, -, hsame⟩ := completeStep_completes s
  obtain rfl : u.complete s.resultCode = t := by simpa [hcomplete] using hstep
  obtain rfl := hsame hcode
  rfl

/-! ## The code of each command -/

theorem extractBody_code (s : State) :
    codeOf (extractBody s) = if nMax s.params < s.nLen.toNat then .lenRange else .ok := by
  rw [extractBody, codeOf_check, codeOf]
  simp only [← Nat.not_lt, ite_not]

/-- RUN has EXTRACT's range check and no other cause (44_control.md R176). -/
theorem runBody_code (s : State) : codeOf (runBody s) = codeOf (extractBody s) := by
  rw [runBody_eq, codeOf_map]

theorem demodBody_code (s : State) : codeOf (demodBody s) = if s.status.vSamp then .ok else .seq :=
  codeOf_check ..

theorem fsyncBody_code (s : State) : codeOf (fsyncBody s) = if s.status.vDbits then .ok else .seq :=
  codeOf_check ..

theorem pcorrBody_code (s : State) : codeOf (pcorrBody s) = if s.status.vDbits then .ok else .seq :=
  codeOf_check ..

theorem packfBody_code (s : State) : codeOf (packfBody s) = if s.status.vFrames then .ok else .seq :=
  codeOf_check ..

/-- SEQ comes before PACK_RANGE (60_exceptions.md R193). -/
theorem packrBody_code (s : State) :
    codeOf (packrBody s) =
      if s.status.vDbits then
        if s.bitCount.toNat < s.packStart.toNat + s.packLen.toNat then .packRange else .ok
      else .seq := by
  rw [packrBody, codeOf_check, codeOf_check, codeOf]
  simp only [← Nat.not_lt, ite_not]

/-- Settles O37: the Complete step completes with `resultCode`, which has one cause for each command. -/
theorem resultCodesFollowTheirCauses : Obligations.ResultCodesFollowTheirCauses := by
  refine ⟨⟨rfl, rfl, rfl, rfl, rfl⟩, fun s => ?_⟩
  obtain ⟨u, hcomplete, hsame, -⟩ := completeStep_completes s
  obtain ⟨-, hnLen, hpackStart, hpackLen, -⟩ := hsame.inputs_eq
  refine ⟨_, hcomplete, hnLen, hpackStart, hpackLen, ?_⟩
  change s.resultCode = _
  cases hd : decode s.cmdq with
  | error e => exact State.resultCode_of_error hd
  | ok i =>
    rw [State.resultCode_of_ok hd]
    cases i with
    | nop | clear => rfl
    | extract => exact extractBody_code s
    | run => exact (runBody_code s).trans (extractBody_code s)
    | demod => exact demodBody_code s
    | fsync => exact fsyncBody_code s
    | pcorr => exact pcorrBody_code s
    | packf => exact packfBody_code s
    | packr => exact packrBody_code s

/-! ## Every step goes on -/

theorem sequencerTurn_idle {s : State} (hb : s.status.busy = false) : sequencerTurn s = .next s := by
  simp [sequencerTurn, hb]

theorem sequencerTurn_busy {s : State} (hr : s.rstN = true) (hb : s.status.busy = true) :
    sequencerTurn s = completeStep s := by
  simp [sequencerTurn, hr, hb]

theorem exists_sequencerTurn_next (s : State) : ∃ t, sequencerTurn s = .next t := by
  obtain ⟨-, -, hturn⟩ | ⟨-, hturn⟩ := sequencerTurn_cases s
  · obtain ⟨u, hcomplete, -⟩ := completeStep_completes s
    exact ⟨_, hturn.trans hcomplete⟩
  · exact ⟨s, hturn⟩

/-- Settles O38: an access and a level of the reset pin answer a next state outright, and a turn completes or idles. -/
theorem everyStepGoesOn : Obligations.EveryStepGoesOn := by
  intro s
  cases henv : s.env with
  | nil => exact step_nil henv ▸ exists_sequencerTurn_next s
  | cons e rest =>
    rw [step_cons henv]
    cases e with
    | host a => exact ⟨_, rfl⟩
    | bus a => exact ⟨_, rfl⟩
    | sequencer => exact exists_sequencerTurn_next (s.setEnv rest)
    | rst high => exact ⟨_, rfl⟩

/-- Settles O52: an empty schedule gives the turn, which leaves an idle block alone and completes a busy one. -/
theorem idleKeepsStateAndBusyCompletes : Obligations.IdleKeepsStateAndBusyCompletes := by
  refine fun s henv => ⟨fun hidle => (step_nil henv).trans (sequencerTurn_idle hidle), fun hr hbusy => ?_⟩
  obtain ⟨u, hcomplete, hsame, -⟩ := completeStep_completes s
  obtain ⟨hcmdq, -, -, -, hinp, hbwerr⟩ := hsame.inputs_eq
  have hstep : step s = .next (u.complete s.resultCode) := by
    rw [step_nil henv, sequencerTurn_busy hr hbusy, hcomplete]
  exact ⟨_, hstep, rfl, rfl, hcmdq, hbwerr, hinp⟩

/-! ## Bus errors -/

/-- The reads that are bus errors, as R196 lists them: the negation of `accessOk_iff`. -/
theorem accessOk_read_eq_false_iff (p : Params) (sp : Space) (off n : Nat) :
    accessOk p sp false off n = false ↔
      (n ≠ 1 ∧ n ≠ 4) ∨ (n = 1 ∧ (sp = .reg ∨ sp = .ftab ∨ sp = .pmtab)) ∨ (n = 4 ∧ off % 4 ≠ 0) ∨
        spaceSize p sp < off + n := by
  rw [← Bool.not_eq_true, accessOk_iff]
  grind

/-- The writes that are bus errors, as R196 lists them: the negation of `accessOk_iff`. -/
theorem accessOk_write_eq_false_iff (p : Params) (sp : Space) (off n : Nat) :
    accessOk p sp true off n = false ↔
      (n ≠ 1 ∧ n ≠ 4) ∨ (n = 1 ∧ sp = .reg) ∨ (sp ≠ .reg ∧ sp ≠ .inp) ∨ (n = 4 ∧ off % 4 ≠ 0) ∨
        spaceSize p sp < off + n := by
  rw [← Bool.not_eq_true, accessOk_iff]
  grind

theorem hostAccess_read_error {s : State} (hr : s.rstN = true) {sp : Space} {off n : Nat}
    (herr : accessOk s.params sp false off n = false) :
    hostAccess s (.read sp off n) = s.answer (.readError (Config.draw s.draws)) := by
  rw [hostAccess_read hr, hostRead_error _ herr]

/-- A read that is no bus error is answered with data of its width (20_memory.md R61). -/
theorem hostAccess_read_ok {s : State} (hr : s.rstN = true) {sp : Space} {off n : Nat}
    (hok : accessOk s.params sp false off n = true) :
    (∃ b, n = 1 ∧ (hostAccess s (.read sp off n)).resp = .byte b) ∨
      (∃ v, n = 4 ∧ (hostAccess s (.read sp off n)).resp = .word v) := by
  obtain ⟨rfl | ⟨rfl, -⟩, -⟩ := (accessOk_iff ..).mp hok
  · rw [hostAccess_read hr, hostRead_word _ hok]
    exact .inr ⟨_, rfl, rfl⟩
  · rw [hostAccess_read hr, hostRead_byte _ hok]
    exact .inl ⟨_, rfl, rfl⟩

/-- Settles O39: R196's list is where `accessOk` fails, and there the access does nothing but answer. -/
theorem busErrorsChangeNothing : Obligations.BusErrorsChangeNothing := by
  intro s sp off n w hr
  rw [← accessOk_read_eq_false_iff, ← accessOk_write_eq_false_iff, Bool.not_eq_false, Bool.not_eq_false]
  refine ⟨hostAccess_read_error hr, hostAccess_read_ok hr, hostAccess_write_error hr w, fun hok => ?_⟩
  rw [hostAccess_write_ok hr w hok, State.answer_resp]

end Sys2Proof.Machine
end

section
/-! Reset and hazards (70_reset_and_hazards.md): a host write of an input leaves every result (R217), and a reset edge
abandons whatever ran (R211, R212). -/

namespace Sys2Proof.Machine

/-! ## Writes of the inputs -/

/-- `t` is `s` but for IN, N_LEN, BWERR, the answer and the draw count. -/
def State.SameButInputs (s t : State) : Prop :=
  t = { s with inp := t.inp, nLen := t.nLen, status := { s.status with bwerr := t.status.bwerr },
               resp := t.resp, draws := t.draws }

theorem State.SameButInputs.answer {s t : State} (h : s.SameButInputs t) (r : BusResp) :
    s.SameButInputs (t.answer r) := by
  rw [h]
  rfl

/-- Every result reads a buffer and a count that `SameButInputs` keeps. -/
theorem State.SameButInputs.results_eq {s t : State} (h : s.SameButInputs t) :
    t.samples = s.samples ∧ t.decodedBits = s.decodedBits ∧ t.frames = s.frames ∧ t.partials = s.partials ∧
      t.packed = s.packed := by
  rw [h]
  exact ⟨rfl, rfl, rfl, rfl, rfl⟩

theorem writeIn_sameButInputs (s : State) (off n : Nat) (w : Word) : s.SameButInputs (s.writeIn off n w) := by
  unfold State.writeIn
  split <;> rfl

theorem setNLen_sameButInputs (s : State) (w : Word) : s.SameButInputs (s.setNLen w) := rfl

/-- A write of anything but STATUS changes the inputs at most when its idle effect does: while a command runs it only
sets BWERR (20_memory.md R68), and an access that stores nothing only answers. -/
theorem hostAccess_write_sameButInputs {s : State} {sp : Space} {off n : Nat} {w : Word} (hst : ¬ (sp = .reg ∧ off = 4))
    (hidle : s.SameButInputs (s.idleWrite sp off n w)) : s.SameButInputs (hostAccess s (.write sp off n w)) := by
  obtain ⟨r, heq⟩ | ⟨_, _, _, _, hwrite, -, -, heq⟩ := hostAccess_cases s (.write sp off n w)
  · rw [heq]
    rfl
  · cases hwrite
    rw [heq]
    cases hb : s.status.busy with
    | true =>
      rw [hostStore_busy hb n w hst]
      rfl
    | false =>
      rw [hostStore_idle hb n w hst]
      exact hidle.answer _

/-- Settles O48: the idle effect of the write is `writeIn` or `setNLen`, and no result reads what they change. -/
theorem inputWritesLeaveResults : Obligations.InputWritesLeaveResults := by
  intro s t off n w hwrite
  have hsame : s.SameButInputs t := by
    obtain rfl | rfl := hwrite
    · exact hostAccess_write_sameButInputs (by simp) (writeIn_sameButInputs s off n w)
    · refine hostAccess_write_sameButInputs (by simp) ?_
      exact idleWrite_reg s .nLen w ▸ setNLen_sameButInputs s w
  exact ⟨hsame, hsame.results_eq⟩

/-! ## The reset pin -/

theorem step_rst {s : State} {high : Bool} {rest : List Event} (henv : s.env = .rst high :: rest) :
    step s = .next (setRst (s.setEnv rest) high) := step_cons henv

/-- The pin taken to 0 is a reset edge, whatever ran (70_reset_and_hazards.md R211). -/
theorem setRst_low (s : State) : setRst s false = s.enterReset false := rfl

/-- The pin taken to 1 is a reset edge when it was 0. -/
theorem setRst_high_of_held {s : State} (hr : s.rstN = false) : setRst s true = s.enterReset true := by
  simp [setRst, hr]

/-- Settles O51: both levels are reset edges, the block held in reset answers nothing, and BUSY is 0 there. -/
theorem resetAbandonsCommand : Obligations.ResetAbandonsCommand := by
  intro s rest henv
  refine ⟨(s.setEnv rest).enterReset false, ?_, rfl, fun a => hostAccess_held rfl a, sequencerTurn_idle rfl, ?_⟩
  · rw [step_rst henv, setRst_low]
  · rintro rest' rfl
    rw [step_rst rfl, setRst_high_of_held rfl]
    rfl

end Sys2Proof.Machine
end
